-- ==== Sys2Proof/Word.lean ====
section
/-! DEFINITION. The value types of the block (00_scope R5, R6): every value is unsigned. -/

namespace Sys2Proof

/-- A symbol, or one byte of a buffer: SYM_W = 8 (00_scope R5). -/
abbrev Byte := BitVec 8

/-- A count, a weight, left-aligned code bits or a 32-bit Container field (00_scope R5). -/
abbrev Word32 := BitVec 32

/-- A length register: LEN_W = 64 (00_scope R5). -/
abbrev Word64 := BitVec 64

/-- An index into the node arena, 9 bits (10_state R18, R19). -/
abbrev ArenaIndex := BitVec 9

/-- A bit sequence, first bit first (00_scope R6). -/
abbrev Bits := List Bool

end Sys2Proof
end

