-- ==== Sys2Proof/Machine/Tables.lean ====
section
/-! DEFINITION. The working tables of the ENGINE as plain data (10_state R17 to R22): types only. -/

namespace Sys2Proof.Machine

/-- A table with one entry for each of the 256 symbols (10_state R17, R20). -/
abbrev SymbolTable (α : Type) := Vector α 256

/-- FREQ: one 32-bit count for each symbol, 0 meaning absent (10_state R17). -/
abbrev FreqTable := SymbolTable Word32

/-- One entry of the node arena (10_state R18): the document's tagged union of
`Leaf(symbol, weight)` and `Internal(weight, left, right)`. -/
inductive Node where
  | leaf (symbol : Byte) (weight : Word32)
  | internal (weight : Word32) (left right : ArenaIndex)
  deriving DecidableEq, Repr, Inhabited

/-- The weight field, which both kinds of entry have (10_state R18). -/
def Node.weight : Node → Word32
  | .leaf _ w => w
  | .internal w _ _ => w

/-- One entry of CODE (10_state R20): `len = 0` means absent; the code's first bit is bit 31 of `bits`. -/
structure CodeEntry where
  len : BitVec 6
  bits : Word32
  deriving DecidableEq, Repr, Inhabited

/-- CODE: one entry for each symbol (10_state R20). -/
abbrev CodeTable := SymbolTable CodeEntry

/-- The working state of the ENGINE (10_state R17 to R22), out of the host's reach (20_memory R43). -/
structure Working where
  /-- FREQ, R17. -/
  freq : FreqTable
  /-- NODE, R18: the entries in use, in index order. -/
  node : List Node
  /-- PQ, R19: a set of arena indices, as a list with no repeats. -/
  pq : List ArenaIndex
  /-- K, R19: the number of distinct symbols. -/
  k : BitVec 9
  /-- ROOT, R19: meaningful only when K ≥ 1. -/
  root : ArenaIndex
  /-- CODE, R20. -/
  code : CodeTable
  /-- ACC, R21: the byte being filled. -/
  acc : Byte
  /-- NACC, R21: how many bits of ACC are filled. -/
  nacc : BitVec 4
  /-- CUR_LEN, R22. -/
  curLen : BitVec 6
  /-- CUR_BITS, R22. -/
  curBits : Word32
  /-- EMIT, R22. -/
  emit : Word32
  deriving DecidableEq, Repr, Inhabited

/-- NNODES (10_state R18): the number of arena entries in use. -/
def Working.nnodes (w : Working) : Nat := w.node.length

end Sys2Proof.Machine
end

