-- ==== Sys2Proof/Config.lean ====
section
/-! DEFINITION. What an implementation fixes (00_scope R5, the OPEN parameters) and the free values. -/

namespace Sys2Proof

/-- The OPEN parameters of the block, fixed at build time and not changed by reset
(00_scope R5; 70_reset_and_hazards R131; 93_implementation_defined U14, U15). A value of this type stands
in the state and no step writes it, so a claim about every state is a claim about every capacity
(log entry 1). -/
structure Config where
  /-- IN_CAP: the capacity of IN in bytes. -/
  inCap : Nat
  /-- OUT_CAP: the capacity of OUT in bytes. -/
  outCap : Nat
  /-- REG_BASE: where the platform puts the registers; no rule reads it (20_memory R38). -/
  regBase : Nat
  /-- IN_BASE; no rule reads it. -/
  inBase : Nat
  /-- OUT_BASE; no rule reads it. -/
  outBase : Nat
  deriving DecidableEq, Repr

/-- The configuration `State.reset` stands for: the largest capacities the spec admits.
DESIGN CHOICE (log entry 1): the spec leaves the parameters open. -/
def Config.largest : Config :=
  { inCap := 2 ^ 64 - 1, outCap := 2 ^ 64 - 1, regBase := 0, inBase := 0, outBase := 0 }

/-- A FREE VALUE: the byte of IN at an offset the host has not written since the last reset, by the
number of resets seen and the offset (10_state R26; 93_implementation_defined U8: `any value`, fixed at
reset; log entry 3). -/
opaque Config.freeInByte : Nat → Nat → Byte

/-- A FREE VALUE: the byte of OUT at an offset that holds no result, by `outEpoch` and the offset
(10_state R26; 93_implementation_defined U6: `any value`; log entry 4). -/
opaque Config.freeOutByte : Nat → Nat → Byte

/-- A FREE VALUE: the working state from the end of one command, or a reset event, to the start of the
next command, by `outEpoch` (10_state R24; 93_implementation_defined U10: `any value`; log entry 4). -/
opaque Config.freeWorking : Nat → Machine.Working

end Sys2Proof
end

