-- ==== Sys2Proof/Syntax.lean ====
section
/-! DEFINITION. The instructions: the two commands of spec/opcode_table.json (30_encoding R49). -/

namespace Sys2Proof

/-- The two operations the host can select (30_encoding R49). A command has no operand field (R46). -/
inductive Instr where
  /-- ENCODE, command word 0x01 (45_codec_commands R102). -/
  | encode
  /-- DECODE, command word 0x02 (45_codec_commands R106). -/
  | decode
  deriving DecidableEq, Repr

end Sys2Proof
end

