-- ==== Sys2Proof/WellFormed.lean ====
section
/-! DEFINITION. Well-formedness: of an instruction (it has no operands, so every term is well formed) and
of a configuration (the bounds 00_scope R5 puts on the OPEN parameters). -/

namespace Sys2Proof

/-- A command has no operand field, immediate or mode bit that could be out of range (30_encoding R46). -/
def Instr.wf : Instr → Bool
  | .encode => true
  | .decode => true

/-- 13 ≤ IN_CAP < 2^64 and 13 ≤ OUT_CAP < 2^64 (00_scope R5, decision D8). -/
def Config.wf (c : Config) : Bool :=
  decide (13 ≤ c.inCap) && decide (c.inCap < 2 ^ 64) && decide (13 ≤ c.outCap) && decide (c.outCap < 2 ^ 64)

end Sys2Proof
end

