-- ==== Sys2Proof/Decode.lean ====
section
/-! DEFINITION. The decoder of command words, total and rejecting by name, and the encoder
(30_encoding R46, R49, R50). -/

namespace Sys2Proof

/-- Why the decoder refuses. -/
inductive DecodeError where
  /-- There is no byte to decode. -/
  | noWord
  /-- The byte is one of the 254 values that encode no operation (30_encoding R50). -/
  | illegalCommand (word : Byte)
  deriving DecidableEq, Repr

/-- Decode one command word and give back the bytes after it; all eight bits are compared
(30_encoding R49, mask 0xFF). -/
def decode : List Byte → Except DecodeError (Instr × List Byte)
  | [] => .error .noWord
  | op :: rest =>
    if op = 0x01#8 then .ok (.encode, rest)
    else if op = 0x02#8 then .ok (.decode, rest)
    else .error (.illegalCommand op)

/-- The command word of an instruction (30_encoding R49). -/
def encode : Instr → List Byte
  | .encode => [0x01#8]
  | .decode => [0x02#8]

/-- The bytes of a table word: bit 0 of `w` is the least significant bit of the first byte. -/
def tableBytes : Nat → Nat → List Byte
  | 0, _ => []
  | n + 1, w => BitVec.ofNat 8 w :: tableBytes n (w / 256)

/-- The instruction the decoder reads from the table word `w` of `nbits` bits; a command word is one byte
long, so a longer one is no instruction (30_encoding R46). -/
def decodeTableWord (nbits w : Nat) : Option Instr :=
  match decode (tableBytes ((nbits + 7) / 8) w) with
  | .ok (i, []) => some i
  | _ => none

end Sys2Proof
end

