-- ==== Sys2Proof/Machine/State.lean ====
section
/-! DEFINITION. The state of one instance of the block as plain data (10_state), the host's actions and
replies, the spec's fault reports, the reasons a step can stop, and the state after reset. -/

namespace Sys2Proof.Machine

/-- A buffer: the bytes that are defined, by offset, strictly rising; an offset that is not listed holds
an unspecified byte (10_state R26; log entry 3). -/
abbrev Memory := List Host.Cell

/-- The canonical form of a buffer: offsets strictly rising. An unlisted offset has no value of its own,
so no listed entry can equal it. -/
abbrev Memory.wf (m : Memory) : Prop := m.Pairwise (fun x y => x.1 < y.1)

/-- The six host registers (10_state R11). -/
inductive HostReg where
  | cmd
  | status
  | errcode
  | errinfo
  | inLen
  | outLen
  deriving DecidableEq, Repr

/-- The sub-causes of MalformedContainer (60_exceptions R116). -/
inductive SubCause where
  | truncFixed
  | truncTable
  | truncPayload
  | badCodeLen
  | tooManyEntries
  | dupSymbol
  | dirtyPad
  | notPrefixFree
  | badUsable
  | trailingBytes
  | noCode
  | outOfBits
  deriving DecidableEq, Repr

/-- What `raise Fault(code, info)` reports: the six fault classes, the first with its sub-cause
(60_exceptions R115, R116). These are the block's own faults; taking one is a NEXT state (R117). -/
inductive FaultReport where
  | malformedContainer (cause : SubCause)
  | unrepresentableCodeLength
  | inputTooLong
  | outputOverflow
  | illegalCommand
  | badLength
  deriving DecidableEq, Repr

/-- One action of the host agent or of its surroundings (10_state R10; 30_encoding R57). Registers are
named by number (10_state R11). -/
inductive HostAction where
  /-- WRREG, WRCMD: write `v` to register number `r`. -/
  | writeReg (r : Nat) (v : Word64)
  /-- RDREG: read register number `r`. -/
  | readReg (r : Nat)
  /-- WRIN, one byte: write `b` to IN at offset `a`. -/
  | writeIn (a : Nat) (b : Byte)
  /-- Read IN at offset `a` (20_memory R42). -/
  | readIn (a : Nat)
  /-- Write OUT: the spec gives it no meaning (20_memory R42). -/
  | writeOut (a : Nat) (b : Byte)
  /-- RDOUT, one byte: read OUT at offset `a`. -/
  | readOut (a : Nat)
  /-- POLL: read STATUS until it returns BUSY = 0; while BUSY = 1 the ENGINE has the move. -/
  | poll
  /-- The host lets the ENGINE have one move without an access of its own (the model's own action, log
  entry 2: the spec leaves open when the ENGINE moves, 93_implementation_defined U13). -/
  | engineTurn
  /-- RESET: the reset event (70_reset_and_hazards R130), not an access of the host. -/
  | reset
  deriving DecidableEq, Repr

/-- What one read of the host returned. -/
inductive Reply where
  /-- The value of a register, widened with zeros to 64 bits. -/
  | reg (r : Nat) (v : Word64)
  /-- A byte of IN. -/
  | inByte (a : Nat) (b : Byte)
  /-- A byte of OUT. -/
  | outByte (a : Nat) (b : Byte)
  deriving DecidableEq, Repr

/-- The state of one instance of the block, with the host agent's script and replies. -/
structure State where
  /-- The OPEN parameters (00_scope R5); never written by a step. -/
  cfg : Config
  /-- CMD, register 0 (10_state R14). -/
  cmd : BitVec 8
  /-- STATUS, register 1 (10_state R13). -/
  status : BitVec 8
  /-- ERRCODE, register 2 (10_state R15). -/
  errcode : BitVec 8
  /-- ERRINFO, register 3 (10_state R15). -/
  errinfo : BitVec 8
  /-- IN_LEN, register 4 (10_state R16). -/
  inLen : Word64
  /-- OUT_LEN, register 5 (10_state R16). -/
  outLen : Word64
  /-- IN (10_state R26): the bytes the host has written since the last reset. -/
  inBuf : Memory
  /-- OUT (10_state R26): the bytes of the last result. -/
  outBuf : Memory
  /-- The working state of the ENGINE (10_state R17 to R22). -/
  work : Working
  /-- The model's own: the host's actions still to come, oldest first (log entry 2). -/
  script : List HostAction
  /-- The model's own: what the host's reads returned, oldest first (log entry 2). -/
  replies : List Reply
  /-- The model's own: how many reset events there have been; selects the free bytes of IN (log entry 3). -/
  inEpoch : Nat
  /-- The model's own: how often OUT and the working state were made unspecified; selects their free
  content (log entry 4). -/
  outEpoch : Nat
  deriving DecidableEq, Repr

/-- Reasons for which the machine stops with a fault: there are none. Every fault of the spec is a
transition to a state in which the host reads it (60_exceptions R117), never a stop; an access to which
the spec gives no meaning is a refusal (20_memory R42). Safe: nothing raises one. -/
inductive Fault where
  deriving DecidableEq, Repr

/-- Reasons for which a step has no meaning. All but the first stand for host accesses the spec gives no
meaning; each is safe (the model stops where hardware would go on in some unstated way). -/
inductive Refusal where
  /-- An instruction that has no meaning yet; raised by no arm of `exec`. Safe. -/
  | notModelled (mnemonic : String)
  /-- Raised by a host access to a register number of 6 or more (10_state R11; U9). Safe. -/
  | noSuchRegister
  /-- Raised by a host write to CMD of a value that does not fit its 8 bits (10_state R14 gives a write of
  "the 8-bit value c" only; log entry 8). Safe. -/
  | cmdValueTooWide
  /-- Raised by a host access to IN at or above IN_CAP (20_memory R42; U9). Safe. -/
  | inOffsetOutOfRange
  /-- Raised by a host access to OUT at or above OUT_CAP (20_memory R42; U9). Safe. -/
  | outOffsetOutOfRange
  /-- Raised by a host write to OUT (20_memory R42; U9). Safe. -/
  | hostWriteToOut
  /-- Raised by a host write to CMD while BUSY = 1 (70_reset_and_hazards R133; U7). Safe. -/
  | writeCmdWhileBusy
  /-- Raised by a host write to IN_LEN while BUSY = 1 (70_reset_and_hazards R133; U7). Safe. -/
  | writeInLenWhileBusy
  /-- Raised by a host write to IN while BUSY = 1 (70_reset_and_hazards R133; U7). Safe. -/
  | writeInWhileBusy
  /-- Raised by a host read of OUT while BUSY = 1 (70_reset_and_hazards R133; U7). Safe. -/
  | readOutWhileBusy
  deriving DecidableEq, Repr

/-- The working state at the values a command start gives it, with ROOT 0 (10_state R24). -/
def Working.init : Working :=
  { freq := Vector.replicate 256 0#32
    node := []
    pq := []
    k := 0#9
    root := 0#9
    code := Vector.replicate 256 { len := 0#6, bits := 0#32 }
    acc := 0#8
    nacc := 0#4
    curLen := 0#6
    curBits := 0#32
    emit := 0#32 }

/-- The state after reset of a block with configuration `c` (10_state R25). IN and OUT list no byte:
every byte is unspecified. The working state, which the spec leaves unspecified, is at
`Working.init` (DESIGN CHOICE, log entry 5). -/
def State.resetOf (c : Config) : State :=
  { cfg := c
    cmd := 0x00#8
    status := 0x00#8
    errcode := 0x00#8
    errinfo := 0x00#8
    inLen := 0#64
    outLen := 0#64
    inBuf := []
    outBuf := []
    work := Working.init
    script := []
    replies := []
    inEpoch := 0
    outEpoch := 0 }

/-- The machine right after reset, with the largest capacities (log entry 1). -/
def State.reset : State := State.resetOf Config.largest

end Sys2Proof.Machine
end

