-- ==== Sys2Proof/Machine/Flags.lean ====
section
/-! DEFINITION. The STATUS register's fields and values (10_state R13), and the codes of ERRCODE and
ERRINFO (60_exceptions R115, R116). -/

namespace Sys2Proof.Machine

/-- STATUS.BUSY, bit 0 (10_state R13). -/
def State.busy (s : State) : Bool := s.status.getLsbD 0

/-- STATUS.DONE, bit 1 (10_state R13). -/
def State.done (s : State) : Bool := s.status.getLsbD 1

/-- STATUS.ERR, bit 2 (10_state R13). -/
def State.err (s : State) : Bool := s.status.getLsbD 2

/-- Idle since reset: BUSY = 0, DONE = 0, ERR = 0. -/
def statusIdle : BitVec 8 := 0x00#8

/-- A command is latched and not yet finished: BUSY = 1. -/
def statusBusy : BitVec 8 := 0x01#8

/-- Finished without a fault: DONE = 1. -/
def statusDone : BitVec 8 := 0x02#8

/-- Finished with a fault: DONE = 1, ERR = 1. -/
def statusFaulted : BitVec 8 := 0x06#8

/-- The value ERRINFO takes for a sub-cause (60_exceptions R116). -/
def SubCause.code : SubCause → BitVec 8
  | .truncFixed => 1#8
  | .truncTable => 2#8
  | .truncPayload => 3#8
  | .badCodeLen => 4#8
  | .tooManyEntries => 5#8
  | .dupSymbol => 6#8
  | .dirtyPad => 7#8
  | .notPrefixFree => 8#8
  | .badUsable => 9#8
  | .trailingBytes => 10#8
  | .noCode => 11#8
  | .outOfBits => 12#8

/-- The value ERRCODE takes for a fault (60_exceptions R115). -/
def FaultReport.errcode : FaultReport → BitVec 8
  | .malformedContainer _ => 1#8
  | .unrepresentableCodeLength => 2#8
  | .inputTooLong => 3#8
  | .outputOverflow => 4#8
  | .illegalCommand => 5#8
  | .badLength => 6#8

/-- The value ERRINFO takes for a fault: the sub-cause of MalformedContainer, else 0
(60_exceptions R115, R116). -/
def FaultReport.errinfo : FaultReport → BitVec 8
  | .malformedContainer c => c.code
  | .unrepresentableCodeLength => 0#8
  | .inputTooLong => 0#8
  | .outputOverflow => 0#8
  | .illegalCommand => 0#8
  | .badLength => 0#8

end Sys2Proof.Machine
end

