-- ==== Sys2Proof/Machine/Operands.lean ====
section
/-! DEFINITION. How operands are read and formed: register numbers, symbol-table entries, big-endian
32-bit fields, left-aligned codes and their bit sequences. -/

namespace Sys2Proof.Machine

/-- The register with a number (10_state R11). -/
def HostReg.ofNumber : Nat → Option HostReg
  | 0 => some .cmd
  | 1 => some .status
  | 2 => some .errcode
  | 3 => some .errinfo
  | 4 => some .inLen
  | 5 => some .outLen
  | _ => none

/-- All symbols, in ascending order. -/
def symbols : List Byte := (List.range 256).map (BitVec.ofNat 8)

/-- The entry of a symbol table for symbol `s`. -/
def SymbolTable.at {α : Type} (t : SymbolTable α) (s : Byte) : α := t[s.toNat]'(s.isLt)

/-- The table with the entry for symbol `s` replaced. -/
def SymbolTable.put {α : Type} (t : SymbolTable α) (s : Byte) (x : α) : SymbolTable α :=
  t.set s.toNat x s.isLt

/-- The entries of a symbol table with their symbols, in ascending order of symbol. -/
def SymbolTable.pairs {α : Type} (t : SymbolTable α) : List (Byte × α) := symbols.zip t.toList

/-- `be32`: four bytes, most significant first, as a 32-bit value (00_scope R6, 20_memory R33). -/
def be32 (b0 b1 b2 b3 : Byte) : Word32 := b0 ++ b1 ++ b2 ++ b3

/-- `bytes_be32`: the four bytes v[31:24], v[23:16], v[15:8], v[7:0] (00_scope R6, 20_memory R33). -/
def bytesBe32 (v : Word32) : List Byte :=
  [v.extractLsb' 24 8, v.extractLsb' 16 8, v.extractLsb' 8 8, v.extractLsb' 0 8]

/-- Read a 32-bit field from the front of a byte sequence (30_encoding R47); `none` when fewer than four
bytes remain. -/
def takeBe32 : List Byte → Option (Word32 × List Byte)
  | b0 :: b1 :: b2 :: b3 :: rest => some (be32 b0 b1 b2 b3, rest)
  | _ => none

/-- `v[31 : 32 − n]`: the top `n` bits of a 32-bit value, as a number (00_scope R6). -/
def topBits (v : Word32) (n : Nat) : Nat := v.toNat / 2 ^ (32 - n)

/-- `v[31 − n : 0]`: the bits below the top `n`, as a number (00_scope R6). -/
def bitsBelow (v : Word32) (n : Nat) : Nat := v.toNat % 2 ^ (32 - n)

/-- A 32-bit value with bit `i` equal to `b` and every other bit 0: `b << i`. -/
def bitAt (b : Bool) (i : Nat) : Word32 := if b then 1#32 <<< i else 0#32

/-- A table entry is present when its length is not 0 (10_state R20). -/
def CodeEntry.present (e : CodeEntry) : Bool := e.len != 0#6

/-- The bits of a code, first bit first: bits[31], ..., bits[32 − len] (10_state R20, 30_encoding R48). -/
def CodeEntry.toBits (e : CodeEntry) : Bits :=
  (List.range e.len.toNat).map (fun j => e.bits.getMsbD j)

/-- `a` is a prefix of `b`; equal codes are prefixes of each other (43_table_serializer R84, check 7). -/
def CodeEntry.isPrefixOf (a b : CodeEntry) : Bool :=
  decide (a.len.toNat ≤ b.len.toNat) && topBits a.bits a.len.toNat == topBits b.bits a.len.toNat

/-- The present entries of a code table, in ascending order of symbol (10_state R20). -/
def CodeTable.entries (t : CodeTable) : List (Byte × CodeEntry) :=
  (SymbolTable.pairs t).filter (fun p => p.2.present)

end Sys2Proof.Machine
end

