-- ==== Sys2Proof/Machine/Ops.lean ====
section
/-! DEFINITION. The named operations over buffers and registers: reading and writing a byte, InRead and
OutWrite, the CMD write, the command start, completion, taking a fault, and the reset event. -/

namespace Sys2Proof.Machine

/-- The byte listed at an offset, if any. -/
def Memory.read : Memory → Nat → Option Byte
  | [], _ => none
  | (a, b) :: rest, x => if a = x then some b else Memory.read rest x

/-- Write one byte, keeping the offsets strictly rising. -/
def Memory.write : Memory → Nat → Byte → Memory
  | [], x, v => [(x, v)]
  | (a, b) :: rest, x, v =>
    if x < a then (x, v) :: (a, b) :: rest
    else if x = a then (x, v) :: rest
    else (a, b) :: Memory.write rest x v

/-- The buffer that lists a byte sequence from offset `a` upward: what OutWrite at ascending offsets
leaves in a buffer that listed nothing (20_memory R32). -/
def Memory.ofBytes (a : Nat) : List Byte → Memory
  | [] => []
  | b :: rest => (a, b) :: Memory.ofBytes (a + 1) rest

/-- `InRead(a)` (20_memory R31): the byte the host last wrote at offset `a`, or, if it has written none
since the last reset, a free value fixed at reset (10_state R26; 70_reset_and_hazards R138; log
entry 3). -/
def State.inRead (s : State) (a : Nat) : Byte :=
  (s.inBuf.read a).getD (Config.freeInByte s.inEpoch a)

/-- The input of a command: IN[0..IN_LEN) (10_state R16). -/
def State.input (s : State) : List Byte := (List.range s.inLen.toNat).map s.inRead

/-- OUT[a] is defined exactly when DONE = 1, ERR = 0 and a < OUT_LEN (10_state R26). -/
def State.outDefined (s : State) (a : Nat) : Bool :=
  s.done && !s.err && decide (a < s.outLen.toNat)

/-- The byte a read of OUT[a] returns: a byte of the result where it is defined, else a free value
(10_state R26; 93_implementation_defined U6; log entry 4). -/
def State.outRead (s : State) (a : Nat) : Byte :=
  if s.outDefined a then (s.outBuf.read a).getD (Config.freeOutByte s.outEpoch a)
  else Config.freeOutByte s.outEpoch a

/-- The value of a host register, widened with zeros; a read has no side effect (10_state R11). -/
def State.readReg (s : State) : HostReg → Word64
  | .cmd => s.cmd.setWidth 64
  | .status => s.status.setWidth 64
  | .errcode => s.errcode.setWidth 64
  | .errinfo => s.errinfo.setWidth 64
  | .inLen => s.inLen
  | .outLen => s.outLen

/-- The state with another script: what the host agent has yet to do (log entry 2). -/
def State.setScript (script : List HostAction) (s : State) : State := { s with script := script }

/-- Append what a read returned to the host's replies (log entry 2). -/
def State.reply (r : Reply) (s : State) : State := { s with replies := s.replies ++ [r] }

/-- A host write to IN_LEN (10_state R16). -/
def State.setInLen (v : Word64) (s : State) : State := { s with inLen := v }

/-- A host write of one byte to IN (20_memory R30, R42). -/
def State.writeIn (a : Nat) (b : Byte) (s : State) : State := { s with inBuf := s.inBuf.write a b }

/-- Make every byte of OUT unspecified. -/
def State.dropOut (s : State) : State :=
  { s with outBuf := [], outEpoch := s.outEpoch + 1 }

/-- The working state becomes dead: from here to the next command start its content is unspecified
(10_state R24; 93_implementation_defined U10; log entry 4). -/
def State.dropWork (s : State) : State :=
  { s with work := Config.freeWorking s.outEpoch }

/-- The whole effect of a host write of `c` to CMD while BUSY = 0 (10_state R14). -/
def State.latchCommand (c : BitVec 8) (s : State) : State :=
  { s.dropOut with cmd := c, status := statusBusy, errcode := 0#8, errinfo := 0#8, outLen := 0#64 }

/-- Stage 0 of a command: the working state is initialised (10_state R24; 45_codec_commands R101). ROOT
is not among the values R24 sets, and stays (DESIGN CHOICE, log entry 5). -/
def Working.start (w : Working) : Working := { Working.init with root := w.root }

/-- Successful completion with a result (45_codec_commands R111). -/
def State.complete (result : List Byte) (s : State) : State :=
  { s.dropOut.dropWork with
    outBuf := Memory.ofBytes 0 result
    outLen := BitVec.ofNat 64 result.length
    errcode := 0#8
    errinfo := 0#8
    status := statusDone }

/-- `raise Fault(code, info)`: taking a fault (60_exceptions R117). Nothing else is saved; there is no
return from a fault, the next CMD write clears it (R123, `State.latchCommand`). -/
def State.raiseFault (r : FaultReport) (s : State) : State :=
  { s.dropOut.dropWork with
    outLen := 0#64
    errcode := r.errcode
    errinfo := r.errinfo
    status := statusFaulted }

/-- How a command ends: with its whole result or with a fault and none (60_exceptions R122). -/
def State.finish (s : State) : Except FaultReport (List Byte) → State
  | .ok result => s.complete result
  | .error r => s.raiseFault r

/-- The reset event (70_reset_and_hazards R130): every piece of state of the block at its reset value,
IN, OUT and the working state unspecified. The parameters stay (R131); the host's script and replies are
not part of the block. -/
def State.resetEvent (s : State) : State :=
  { State.resetOf s.cfg with
    work := Config.freeWorking (s.outEpoch + 1)
    script := s.script
    replies := s.replies
    inEpoch := s.inEpoch + 1
    outEpoch := s.outEpoch + 1 }

end Sys2Proof.Machine
end

