-- ==== Sys2Proof/Machine/FrequencyCounter.lean ====
section
/-! DEFINITION. The unit operation `count` (40_frequency_counter R60). -/

namespace Sys2Proof.Machine

/-- FREQ[s] <- FREQ[s] + 1 (40_frequency_counter R60). -/
def FreqTable.bump (f : FreqTable) (s : Byte) : FreqTable :=
  SymbolTable.put f s (SymbolTable.at f s + 1#32)

/-- The present symbols of FREQ with their counts, in ascending order (40_frequency_counter R62). -/
def FreqTable.present (f : FreqTable) : List (Byte × Word32) :=
  (SymbolTable.pairs f).filter (fun p => p.2 != 0#32)

/-- `count`: one pass over the input at ascending offsets, then K (40_frequency_counter R60). -/
def Working.count (input : List Byte) (w : Working) : Working :=
  let freq := input.foldl FreqTable.bump w.freq
  { w with freq := freq, k := BitVec.ofNat 9 (FreqTable.present freq).length }

end Sys2Proof.Machine
end

