-- ==== Sys2Proof/Machine/TreeBuilder.lean ====
section
/-! DEFINITION. The minimum-priority queue and the unit operation `build` (41_tree_builder). -/

namespace Sys2Proof.Machine

/-- NODE[i].weight. An index that holds no entry never enters the queue; it reads as 0. -/
def weightAt (nodes : List Node) (i : ArenaIndex) : Word32 :=
  match nodes[i.toNat]? with
  | some n => n.weight
  | none => 0#32

/-- The order of the queue: by (weight, index), compared lexicographically (41_tree_builder R65,
decision D4). -/
def keyBefore (nodes : List Node) (i j : ArenaIndex) : Bool :=
  decide ((weightAt nodes i).toNat < (weightAt nodes j).toNat) ||
    (weightAt nodes i == weightAt nodes j && decide (i.toNat < j.toNat))

/-- PQ_INSERT (41_tree_builder R66). -/
def pqInsert (i : ArenaIndex) (pq : List ArenaIndex) : List ArenaIndex :=
  if i ∈ pq then pq else pq ++ [i]

/-- The member whose key comes before every other member's, `m` being the best so far. -/
def pqMin (nodes : List Node) : ArenaIndex → List ArenaIndex → ArenaIndex
  | m, [] => m
  | m, i :: rest => pqMin nodes (if keyBefore nodes i m then i else m) rest

/-- PQ_EXTRACT_MIN: the minimum and the queue without it; `none` when the queue is empty, which `build`
never meets (41_tree_builder R67). -/
def pqExtractMin (nodes : List Node) : List ArenaIndex → Option (ArenaIndex × List ArenaIndex)
  | [] => none
  | i :: rest =>
    let m := pqMin nodes i rest
    some (m, (i :: rest).erase m)

/-- Append one entry to the arena at index NNODES and insert its index into PQ
(41_tree_builder R68, R69). -/
def Working.append (n : Node) (w : Working) : Working :=
  { w with node := w.node ++ [n], pq := pqInsert (BitVec.ofNat 9 w.nnodes) w.pq }

/-- Phase 1 for one present symbol and its count (41_tree_builder R68). -/
def Working.addLeaf (w : Working) (p : Byte × Word32) : Working := w.append (.leaf p.1 p.2)

/-- `build`, phase 1: a leaf for each present symbol, in ascending order (41_tree_builder R68,
decision D5). -/
def Working.buildLeaves (w : Working) : Working := (FreqTable.present w.freq).foldl Working.addLeaf w

/-- One pass of the merge loop: the first extracted is the left child (41_tree_builder R69). -/
def Working.mergeOnce (w : Working) : Working :=
  match pqExtractMin w.node w.pq with
  | none => w
  | some (a, pqA) =>
    match pqExtractMin w.node pqA with
    | none => w
    | some (b, pqB) =>
      { w with pq := pqB }.append (.internal (weightAt w.node a + weightAt w.node b) a b)

/-- `while |PQ| >= 2`, with a bound on the number of passes (41_tree_builder R69). -/
def Working.mergeLoop : Nat → Working → Working
  | 0, w => w
  | n + 1, w => if 2 ≤ w.pq.length then Working.mergeLoop n w.mergeOnce else w

/-- `if |PQ| = 1: ROOT <- the one member of PQ` (41_tree_builder R69). -/
def Working.assignRoot (w : Working) : Working :=
  match w.pq with
  | [r] => { w with root := r }
  | _ => w

/-- `build` (41_tree_builder R68, R69). Each pass of the loop lowers |PQ| by one, so |PQ| passes are
enough. -/
def Working.build (w : Working) : Working :=
  let leaves := w.buildLeaves
  (Working.mergeLoop leaves.pq.length leaves).assignRoot

end Sys2Proof.Machine
end

