-- ==== Sys2Proof/Machine/CodeGenerator.lean ====
section
/-! DEFINITION. The unit operation `codes` (42_code_generator). -/

namespace Sys2Proof.Machine

/-- The prefix for the right child: bit 31 − d set, as long as the code still fits
(42_code_generator R76). -/
def appendOne (bits : Word32) (d : Nat) : Word32 :=
  if d < 32 then bits ||| 1#32 <<< (31 - d) else bits

/-- `walk(i, d, bits)`, left before right (42_code_generator R76). Children have smaller indices than
their parent (41_tree_builder R73), so a bound of one more than the index of the start is never met; nor
is an index that holds no entry. -/
def walk (nodes : List Node) : Nat → ArenaIndex → Nat → Word32 → CodeTable → Except FaultReport CodeTable
  | 0, _, _, _, t => .ok t
  | fuel + 1, i, d, bits, t =>
    match nodes[i.toNat]? with
    | none => .ok t
    | some (.leaf s _) =>
      if 32 < d then .error .unrepresentableCodeLength
      else .ok (SymbolTable.put t s { len := BitVec.ofNat 6 d, bits := bits })
    | some (.internal _ left right) =>
      match walk nodes fuel left (d + 1) bits t with
      | .error r => .error r
      | .ok t' => walk nodes fuel right (d + 1) (appendOne bits d) t'

/-- `codes`: a single-leaf root gets the one-bit code "0" (42_code_generator R77); otherwise the walk
from the root (R76), which faults on a leaf deeper than 32 (R78). -/
def Working.codes (w : Working) : Except FaultReport Working :=
  match w.node[w.root.toNat]? with
  | some (.leaf s _) =>
    .ok { w with code := SymbolTable.put w.code s { len := 1#6, bits := 0#32 } }
  | _ =>
    match walk w.node (w.root.toNat + 1) w.root 0 0#32 w.code with
    | .error r => .error r
    | .ok t => .ok { w with code := t }

end Sys2Proof.Machine
end

