-- ==== Sys2Proof/Machine/TableSerializer.lean ====
section
/-! DEFINITION. The unit operations `serialize` and `deserialize` (43_table_serializer), and the records
they write and read (30_encoding R52). -/

namespace Sys2Proof.Machine

/-- Format RECORD: symbol, codeLength, codeBitsPadded, six bytes (30_encoding R52). -/
def recordBytes (s : Byte) (e : CodeEntry) : List Byte :=
  s :: e.len.setWidth 8 :: bytesBe32 e.bits

/-- `serialize`: the number of entries, then their records in ascending order of symbol
(43_table_serializer R83). -/
def serialize (t : CodeTable) : List Byte :=
  bytesBe32 (BitVec.ofNat 32 (CodeTable.entries t).length) ++
    (CodeTable.entries t).flatMap (fun p => recordBytes p.1 p.2)

/-- Checks 4 to 6 of one record, and its entry in CODE (43_table_serializer R84). -/
def readRecord (s len : Byte) (v : Word32) (t : CodeTable) : Except FaultReport CodeTable :=
  if len.toNat < 1 ∨ 32 < len.toNat then .error (.malformedContainer .badCodeLen)
  else if (SymbolTable.at t s).present then .error (.malformedContainer .dupSymbol)
  else if len.toNat < 32 ∧ bitsBelow v len.toNat ≠ 0 then .error (.malformedContainer .dirtyPad)
  else .ok (SymbolTable.put t s { len := len.setWidth 6, bits := v })

/-- The record loop: `n` records in ascending index (43_table_serializer R84). Check 2 has made sure that
their bytes are there. -/
def readRecords : Nat → List Byte → CodeTable → Except FaultReport CodeTable
  | 0, _, t => .ok t
  | n + 1, s :: len :: b0 :: b1 :: b2 :: b3 :: rest, t =>
    match readRecord s len (be32 b0 b1 b2 b3) t with
    | .error r => .error r
    | .ok t' => readRecords n rest t'
  | _ + 1, _, _ => .error (.malformedContainer .truncTable)

/-- Check 7: no present code is a prefix of another present symbol's (43_table_serializer R84). -/
def prefixFree (es : List (Byte × CodeEntry)) : Bool :=
  es.all (fun p => es.all (fun q => p.1 == q.1 || !p.2.isPrefixOf q.2))

/-- `deserialize`: the table and the number of bytes consumed (43_table_serializer R84, R85). `bytes` is
IN from the start offset up to IN_LEN, `t` the table a command start leaves. -/
def deserialize (bytes : List Byte) (t : CodeTable) : Except FaultReport (CodeTable × Nat) :=
  match takeBe32 bytes with
  | none => .error (.malformedContainer .truncFixed)
  | some (c, rest) =>
    if 6 * c.toNat > bytes.length - 4 then .error (.malformedContainer .truncTable)
    else if c.toNat > 256 then .error (.malformedContainer .tooManyEntries)
    else
      match readRecords c.toNat rest t with
      | .error r => .error r
      | .ok t' =>
        if prefixFree (CodeTable.entries t') then .ok (t', 4 + 6 * c.toNat)
        else .error (.malformedContainer .notPrefixFree)

end Sys2Proof.Machine
end

