-- ==== Sys2Proof/Machine/BitPacker.lean ====
section
/-! DEFINITION. The unit operations `pack` and `unpack` (44_bit_packer_reader). -/

namespace Sys2Proof.Machine

/-- One bit into ACC at bit 7 − NACC (44_bit_packer_reader R91). -/
def Working.packBit (b : Bool) (w : Working) : Working :=
  { w with
    acc := w.acc ||| (if b then 1#8 <<< (7 - w.nacc.toNat) else 0#8)
    nacc := w.nacc + 1#4 }

/-- ACC and NACC after a full byte has gone out (44_bit_packer_reader R91). -/
def Working.flushAcc (w : Working) : Working := { w with acc := 0#8, nacc := 0#4 }

/-- The packing loop, from the ACC and NACC at hand: the bytes that are completely filled, and the working
state after the last bit (44_bit_packer_reader R91). -/
def packLoop : Bits → Working → List Byte × Working
  | [], w => ([], w)
  | b :: rest, w =>
    if (w.packBit b).nacc = 8#4 then
      ((w.packBit b).acc :: (packLoop rest (w.packBit b).flushAcc).1,
        (packLoop rest (w.packBit b).flushAcc).2)
    else packLoop rest (w.packBit b)

/-- `pack`: the payload bytes, the number of usable bits in the last byte, and the working state
(44_bit_packer_reader R91, R92). -/
def Working.pack (bits : Bits) (w : Working) : List Byte × Byte × Working :=
  match packLoop bits w.flushAcc with
  | (full, w') =>
    if w'.nacc ≠ 0#4 then (full ++ [w'.acc], w'.nacc.setWidth 8, w')
    else if bits ≠ [] then (full, 8#8, w')
    else (full, 0#8, w')

/-- The top `n` bits of a byte, bit 7 first. -/
def byteBits (n : Nat) (b : Byte) : Bits := (List.range n).map (fun t => b.getMsbD t)

/-- `unpack`: all bits of all but the last byte, and the top `usable` bits of the last
(44_bit_packer_reader R94). -/
def unpack : List Byte → Byte → Bits
  | [], _ => []
  | [b], usable => byteBits usable.toNat b
  | b :: b' :: rest, usable => byteBits 8 b ++ unpack (b' :: rest) usable

end Sys2Proof.Machine
end

