-- ==== Sys2Proof/Machine/Codec.lean ====
section
/-! DEFINITION. The two commands ENCODE and DECODE, the container parser, the symbol matcher and the
illegal command (45_codec_commands). -/

namespace Sys2Proof.Machine

/-- The Bitstream: the code of each input byte, in order (45_codec_commands R105). -/
def bitstream (t : CodeTable) (input : List Byte) : Bits :=
  input.flatMap (fun s => (SymbolTable.at t s).toBits)

/-- Format CONTAINER (30_encoding R51): count, serialized table, usable bits, payload length, payload. -/
def containerBytes (count : Nat) (table : List Byte) (usable : Byte) (payload : List Byte) : List Byte :=
  bytesBe32 (BitVec.ofNat 32 count) ++ table ++ [usable] ++
    bytesBe32 (BitVec.ofNat 32 payload.length) ++ payload

/-- The Container ENCODE assembles from a finished code table: serialize, form the Bitstream, pack,
assemble (45_codec_commands R102, stages 4 to 7). -/
def assemble (input : List Byte) (w : Working) : List Byte :=
  match w.pack (bitstream w.code input) with
  | (payload, usable, _) => containerBytes input.length (serialize w.code) usable payload

/-- ENCODE on an input of acceptable length, from the working state of a command start: the Container, or
the fault (45_codec_commands R102, R104, R105). -/
def encodeInput (outCap : Nat) (input : List Byte) (w : Working) : Except FaultReport (List Byte) :=
  if (w.count input).k = 0#9 then .ok (List.replicate 13 0x00#8)
  else
    match (w.count input).build.codes with
    | .error r => .error r
    | .ok w' =>
      if outCap < (assemble input w').length then .error .outputOverflow
      else .ok (assemble input w')

/-- ENCODE with its operand checks, in order (45_codec_commands R102, R103). -/
def encodeResult (s : State) : Except FaultReport (List Byte) :=
  if s.cfg.inCap < s.inLen.toNat then .error .badLength
  else if 2 ^ 32 - 1 < s.inLen.toNat then .error .inputTooLong
  else encodeInput s.cfg.outCap s.input s.work.start

/-- What the container parser finds (45_codec_commands R107). -/
structure Parsed where
  /-- originalSymbolCount. -/
  count : Word32
  /-- The code table. -/
  table : CodeTable
  /-- codeTableEntryCount. -/
  entries : Nat
  /-- usableBitsInLastByte. -/
  usable : Byte
  /-- The payload. -/
  payload : List Byte
  deriving DecidableEq, Repr

/-- Steps d to i of the parser: the fields after the table (45_codec_commands R107). -/
def parseTail (count : Word32) (table : CodeTable) (entries : Nat) (bytes : List Byte) :
    Except FaultReport Parsed :=
  match bytes with
  | [] => .error (.malformedContainer .truncFixed)
  | usable :: rest =>
    match takeBe32 rest with
    | none => .error (.malformedContainer .truncFixed)
    | some (p, payload) =>
      if payload.length < p.toNat then .error (.malformedContainer .truncPayload)
      else if p.toNat < payload.length then .error (.malformedContainer .trailingBytes)
      else if 8 < usable.toNat ∨ (usable.toNat = 0 ∧ 0 < p.toNat) ∨ (0 < usable.toNat ∧ p.toNat = 0) then
        .error (.malformedContainer .badUsable)
      else .ok { count := count, table := table, entries := entries, usable := usable, payload := payload }

/-- Parsing the Container, steps b to i (45_codec_commands R107). `t` is the table of a command start. -/
def parseContainer (input : List Byte) (t : CodeTable) : Except FaultReport Parsed :=
  match takeBe32 input with
  | none => .error (.malformedContainer .truncFixed)
  | some (count, rest) =>
    match deserialize rest t with
    | .error r => .error r
    | .ok (table, consumed) => parseTail count table ((consumed - 4) / 6) (rest.drop consumed)

/-- One bit into the matcher's prefix (45_codec_commands R109). -/
def Working.matchBit (b : Bool) (w : Working) : Working :=
  { w with
    curBits := w.curBits ||| bitAt b (31 - w.curLen.toNat)
    curLen := w.curLen + 1#6 }

/-- The matcher after it has emitted a symbol (45_codec_commands R109). -/
def Working.emitted (w : Working) : Working :=
  { w with emit := w.emit + 1#32, curLen := 0#6, curBits := 0#32 }

/-- The symbol whose code is exactly the prefix read, if there is one (45_codec_commands R109). -/
def exactMatch (es : List (Byte × CodeEntry)) (w : Working) : Option Byte :=
  (es.find? (fun p => p.2.len == w.curLen && p.2.bits == w.curBits)).map (fun p => p.1)

/-- Some code is longer than the prefix read and starts with it (45_codec_commands R109). -/
def extendable (es : List (Byte × CodeEntry)) (w : Working) : Bool :=
  es.any (fun p => decide (w.curLen.toNat < p.2.len.toNat) &&
    topBits p.2.bits w.curLen.toNat == topBits w.curBits w.curLen.toNat)

/-- The matcher loop over the bits not yet read: the bytes it emits, and the working state in which it
stops (45_codec_commands R109). `es` lists the present entries of CODE. -/
def matchLoop (es : List (Byte × CodeEntry)) (count : Word32) :
    Bits → Working → Except FaultReport (List Byte × Working)
  | [], w =>
    if w.emit.toNat < count.toNat then .error (.malformedContainer .outOfBits) else .ok ([], w)
  | b :: rest, w =>
    if w.emit.toNat < count.toNat then
      match exactMatch es (w.matchBit b) with
      | some s =>
        match matchLoop es count rest (w.matchBit b).emitted with
        | .error r => .error r
        | .ok (out, w') => .ok (s :: out, w')
      | none =>
        if extendable es (w.matchBit b) then matchLoop es count rest (w.matchBit b)
        else .error (.malformedContainer .noCode)
    else .ok ([], w)

/-- `match`, from CUR_LEN = 0, CUR_BITS = 0 and EMIT = 0 (45_codec_commands R109). -/
def Working.matchSymbols (bits : Bits) (count : Word32) (w : Working) :
    Except FaultReport (List Byte × Working) :=
  matchLoop (CodeTable.entries w.code) count bits
    { w with curLen := 0#6, curBits := 0#32, emit := 0#32 }

/-- DECODE on an input of acceptable length, from the working state of a command start: the original
bytes, or the fault (45_codec_commands R106, R108, R110). -/
def decodeInput (outCap : Nat) (input : List Byte) (w : Working) : Except FaultReport (List Byte) :=
  match parseContainer input w.code with
  | .error r => .error r
  | .ok p =>
    if p.entries = 0 then .ok []
    else if outCap < p.count.toNat then .error .outputOverflow
    else
      match { w with code := p.table }.matchSymbols (unpack p.payload p.usable) p.count with
      | .error r => .error r
      | .ok (out, _) => .ok out

/-- DECODE with its operand check (45_codec_commands R106, R107 step a). -/
def decodeResult (s : State) : Except FaultReport (List Byte) :=
  if s.cfg.inCap < s.inLen.toNat then .error .badLength
  else decodeInput s.cfg.outCap s.input s.work.start

/-- ENCODE (45_codec_commands R102): it ends with the Container in OUT (R111) or with a fault
(60_exceptions R117), always in a next state. -/
def execEncode (s : State) : Host.Outcome State Fault Refusal := .next (s.finish (encodeResult s))

/-- DECODE (45_codec_commands R106): it ends with the original bytes in OUT (R111) or with a fault
(60_exceptions R117), always in a next state. -/
def execDecode (s : State) : Host.Outcome State Fault Refusal := .next (s.finish (decodeResult s))

/-- A command word that encodes no operation: nothing but the fault IllegalCommand; IN is not read and
IN_LEN not checked (45_codec_commands R112). -/
def execIllegal (s : State) : Host.Outcome State Fault Refusal := .next (s.raiseFault .illegalCommand)

end Sys2Proof.Machine
end

