-- ==== Sys2Proof/Machine/Engine.lean ====
section
/-! DEFINITION. The ENGINE's move (45_codec_commands R100) and the host's accesses (10_state R11, R14;
20_memory R42; 70_reset_and_hazards R130, R133). -/

namespace Sys2Proof.Machine

/-- The instruction the command word in CMD encodes (30_encoding R49; 20_memory R41). -/
def State.fetch (s : State) : Except DecodeError Instr :=
  match Sys2Proof.decode [s.cmd] with
  | .ok (i, _) => .ok i
  | .error e => .error e

/-- The ENGINE's move: with BUSY = 1 the whole command in CMD (45_codec_commands R100; one step, 20_memory
R39); with BUSY = 0 nothing (10_state R12). -/
def engineStep (s : State) : Host.Outcome State Fault Refusal :=
  if s.busy then
    match s.fetch with
    | .ok i => exec i s
    | .error _ => execIllegal s
  else .next s

/-- A host write to a register (10_state R11, R14, R16; 70_reset_and_hazards R133). -/
def hostWriteReg (r : Nat) (v : Word64) (s : State) : Host.Outcome State Fault Refusal :=
  match HostReg.ofNumber r with
  | none => .refused .noSuchRegister
  | some .cmd =>
    if s.busy then .refused .writeCmdWhileBusy
    else if 256 ≤ v.toNat then .refused .cmdValueTooWide
    else .next (s.latchCommand (v.setWidth 8))
  | some .inLen => if s.busy then .refused .writeInLenWhileBusy else .next (s.setInLen v)
  | some .status => .next s
  | some .errcode => .next s
  | some .errinfo => .next s
  | some .outLen => .next s

/-- A host read of a register, at any time (10_state R11; 70_reset_and_hazards R133). -/
def hostReadReg (r : Nat) (s : State) : Host.Outcome State Fault Refusal :=
  match HostReg.ofNumber r with
  | none => .refused .noSuchRegister
  | some reg => .next (s.reply (.reg r (s.readReg reg)))

/-- A host write to IN (20_memory R30, R42; 70_reset_and_hazards R133). -/
def hostWriteIn (a : Nat) (b : Byte) (s : State) : Host.Outcome State Fault Refusal :=
  if s.busy then .refused .writeInWhileBusy
  else if s.cfg.inCap ≤ a then .refused .inOffsetOutOfRange
  else .next (s.writeIn a b)

/-- A host read of IN, at any time (20_memory R42; 70_reset_and_hazards R133). -/
def hostReadIn (a : Nat) (s : State) : Host.Outcome State Fault Refusal :=
  if s.cfg.inCap ≤ a then .refused .inOffsetOutOfRange
  else .next (s.reply (.inByte a (s.inRead a)))

/-- A host read of OUT (10_state R26; 20_memory R42; 70_reset_and_hazards R133, R135). -/
def hostReadOut (a : Nat) (s : State) : Host.Outcome State Fault Refusal :=
  if s.busy then .refused .readOutWhileBusy
  else if s.cfg.outCap ≤ a then .refused .outOffsetOutOfRange
  else .next (s.reply (.outByte a (s.outRead a)))

/-- One action of the host's script. A POLL that finds BUSY = 1 is not over: `stepMove` gives the move to
the ENGINE instead of coming here; one that finds BUSY = 0 is over, and its reads of STATUS are not
recorded (the programs of 95_test_vectors list the replies of RDREG and RDOUT only; log entry 2). -/
def hostAct (a : HostAction) (s : State) : Host.Outcome State Fault Refusal :=
  match a with
  | .writeReg r v => hostWriteReg r v s
  | .readReg r => hostReadReg r s
  | .writeIn x b => hostWriteIn x b s
  | .readIn x => hostReadIn x s
  | .writeOut _ _ => .refused .hostWriteToOut
  | .readOut x => hostReadOut x s
  | .poll => .next s
  | .engineTurn => engineStep s
  | .reset => .next s.resetEvent

/-- One move: the head of the script, if there is one, else the ENGINE. A POLL stays at the head while
BUSY = 1 and the ENGINE moves (30_encoding R57). -/
def stepMove (s : State) : Host.Outcome State Fault Refusal :=
  match s.script with
  | [] => engineStep s
  | a :: rest => if a = .poll ∧ s.busy then engineStep s else hostAct a (s.setScript rest)

/-- LOAD: write bytes to IN from offset `a` upward (30_encoding R57, WRIN). -/
def writeInActions (a : Nat) : List Byte → List HostAction
  | [] => []
  | b :: rest => .writeIn a b :: writeInActions (a + 1) rest

/-- LOAD: WRIN 0 and WRREG IN_LEN (30_encoding R57). -/
def loadActions (bytes : List Byte) : List HostAction :=
  writeInActions 0 bytes ++ [.writeReg 4 (BitVec.ofNat 64 bytes.length)]

/-- RUN: WRCMD and POLL (30_encoding R57). -/
def runActions (c : BitVec 8) : List HostAction := [.writeReg 0 (c.setWidth 64), .poll]

/-- RDOUT `a`, `m` (30_encoding R57). -/
def readOutActions (a m : Nat) : List HostAction := (List.range m).map (fun j => .readOut (a + j))

/-- COPYBACK (30_encoding R57): read OUT_LEN and the result, then LOAD the bytes the reads return. The
actions depend on what the state holds when they are formed. -/
def copyBackActions (s : State) : List HostAction :=
  .readReg 5 :: readOutActions 0 s.outLen.toNat ++
    loadActions ((List.range s.outLen.toNat).map s.outRead)

end Sys2Proof.Machine
end

