-- ==== Sys2Proof/Machine/Step.lean ====
section
/-! DEFINITION. One step of the machine. -/

namespace Sys2Proof.Machine

/-- One step: a move of the host's script or of the ENGINE (`stepMove`). -/
def step (s : State) : Host.Outcome State Fault Refusal := stepMove s

/-- `s` with the command word `w` where the ENGINE takes its next command from: the register CMD, latched
as a host write to CMD latches it (10_state R14), and no host action before the ENGINE's move. -/
def State.withFetchWord (s : State) (nbits w : Nat) : State :=
  match tableBytes ((nbits + 7) / 8) w with
  | [] => (s.latchCommand 0x00#8).setScript []
  | op :: _ => (s.latchCommand op).setScript []

end Sys2Proof.Machine
end

