-- ==== Sys2Proof/Safety.lean ====
section
/-! DEFINITION. What claims about the machine are stated in: the invariant of a run, which host actions
have a meaning, paths in the node arena, good code tables, and what a command's result may depend on. -/

namespace Sys2Proof.Machine

/-- The invariant every step keeps (10_state R13, R15, R16, R26; 00_scope R5). -/
structure State.Inv (s : State) : Prop where
  /-- The capacities are within their bounds (00_scope R5). -/
  cfgWf : s.cfg.wf = true
  /-- IN is in canonical form. -/
  inWf : s.inBuf.wf
  /-- OUT is in canonical form. -/
  outWf : s.outBuf.wf
  /-- IN lists no offset at or above IN_CAP (20_memory R30). -/
  inBound : ∀ c ∈ s.inBuf, c.1 < s.cfg.inCap
  /-- STATUS takes four values only (10_state R13). -/
  statusLegal : s.status = statusIdle ∨ s.status = statusBusy ∨ s.status = statusDone ∨
    s.status = statusFaulted
  /-- Unless the last command finished without a fault, there is no result (10_state R16, R26). -/
  noResult : s.status ≠ statusDone → s.outLen = 0#64 ∧ s.outBuf = []
  /-- After a command without a fault, OUT lists exactly the offsets below OUT_LEN (10_state R26). -/
  outListed : s.status = statusDone → s.outBuf.map (fun c => c.1) = List.range s.outLen.toNat
  /-- The result fits OUT (20_memory R32). -/
  outFits : s.outLen.toNat ≤ s.cfg.outCap
  /-- ERRCODE and ERRINFO are 0 unless the last command faulted (10_state R15). -/
  noError : s.status ≠ statusFaulted → s.errcode = 0#8 ∧ s.errinfo = 0#8
  /-- After a fault they are the codes of one fault of the tables (60_exceptions R115, R116). -/
  error : s.status = statusFaulted → ∃ r : FaultReport, s.errcode = r.errcode ∧ s.errinfo = r.errinfo

/-- The host actions to which the spec gives a meaning in a state (10_state R11, R14; 20_memory R42;
70_reset_and_hazards R133). -/
def HostAction.allowed (s : State) : HostAction → Prop
  | .writeReg r v => r < 6 ∧ (r = 0 → ¬ s.busy ∧ v.toNat < 256) ∧ (r = 4 → ¬ s.busy)
  | .readReg r => r < 6
  | .writeIn a _ => ¬ s.busy ∧ a < s.cfg.inCap
  | .readIn a => a < s.cfg.inCap
  | .writeOut _ _ => False
  | .readOut a => ¬ s.busy ∧ a < s.cfg.outCap
  | .poll => True
  | .engineTurn => True
  | .reset => True

/-- OUT holds exactly the byte sequence `bytes` as its result: a read of OUT[a] returns byte a, and no
byte at or above its length is defined (10_state R26). -/
def State.outHolds (s : State) (bytes : List Byte) : Prop :=
  s.outLen.toNat = bytes.length ∧
    (∀ a, a < bytes.length → s.outDefined a = true ∧ some (s.outRead a) = bytes[a]?) ∧
    (∀ a, bytes.length ≤ a → s.outDefined a = false)

/-- Everything a command leaves alone: the parameters, CMD, IN_LEN, IN, and the host's side
(60_exceptions R117; 45_codec_commands R111). -/
def State.sameInputSide (s t : State) : Prop :=
  t.cfg = s.cfg ∧ t.cmd = s.cmd ∧ t.inLen = s.inLen ∧ t.inBuf = s.inBuf ∧ t.inEpoch = s.inEpoch ∧
    t.script = s.script ∧ t.replies = s.replies ∧ ∀ a, t.inRead a = s.inRead a

/-- The state finished without a fault and with the result `bytes` (45_codec_commands R111). -/
def State.finishedWith (s : State) (bytes : List Byte) : Prop :=
  s.status = 0x02#8 ∧ s.errcode = 0#8 ∧ s.errinfo = 0#8 ∧ s.outHolds bytes

/-- The state finished with a fault and no result (60_exceptions R117). -/
def State.faultedWith (s : State) (r : FaultReport) : Prop :=
  s.status = 0x06#8 ∧ s.errcode = r.errcode ∧ s.errinfo = r.errinfo ∧ s.outHolds []

/-- Follow a path in the arena from an entry: a 0 goes to the left child, a 1 to the right
(42_code_generator R76). -/
def follow (nodes : List Node) : ArenaIndex → Bits → Option Node
  | i, [] => nodes[i.toNat]?
  | i, b :: rest =>
    match nodes[i.toNat]? with
    | some (.internal _ left right) => follow nodes (if b then right else left) rest
    | _ => none

/-- A code entry as a code table may hold it: absent, or of length 1 to 32 with zeros below the code
(10_state R20). -/
def CodeEntry.good (e : CodeEntry) : Prop :=
  (e.len = 0#6 ∧ e.bits = 0#32) ∨ (1 ≤ e.len.toNat ∧ e.len.toNat ≤ 32 ∧ bitsBelow e.bits e.len.toNat = 0)

/-- A code table in the document's sense: good entries, and no code a prefix of another symbol's
(10_state R20; 42_code_generator R79). -/
def CodeTable.good (t : CodeTable) : Prop :=
  (∀ s : Byte, (SymbolTable.at t s).good) ∧
    ∀ s u : Byte, s ≠ u → (SymbolTable.at t s).present = true → (SymbolTable.at t u).present = true →
      ¬ (SymbolTable.at t s).toBits <+: (SymbolTable.at t u).toBits

/-- How often a symbol occurs in the input (40_frequency_counter R61). -/
def occurrences (input : List Byte) (s : Byte) : Nat := input.count s

/-- The distinct symbols of the input, in ascending order. -/
def distinctSymbols (input : List Byte) : List Byte := symbols.filter (fun s => input.contains s)

/-- The arena and root `build` makes of an input (40_frequency_counter R60; 41_tree_builder). -/
def treeOf (input : List Byte) : Working := (Working.init.count input).build

/-- The total number of bits of the Bitstream: Σ FREQ[s]·CODE[s].len (42_code_generator R80). -/
def bitstreamLength (t : CodeTable) (input : List Byte) : Nat :=
  (input.map (fun s => (SymbolTable.at t s).len.toNat)).sum

end Sys2Proof.Machine
end

