-- ==== Sys2Proof/Certificates/Slice0/Obligations.lean ====
section
/-! DEFINITION. The statements for the provers, from the numbered rules of spec/. -/

namespace Sys2Proof.Machine

/-! ### Words used by several statements -/

/-- The Container with these fields (30_encoding R51, R52), the records in the order given. -/
def containerOf (count : Nat) (records : List (Byte × CodeEntry)) (usable : Byte) (payload : List Byte) :
    List Byte :=
  bytesBe32 (BitVec.ofNat 32 count) ++ bytesBe32 (BitVec.ofNat 32 records.length) ++
    records.flatMap (fun p => p.1 :: BitVec.ofNat 8 p.2.len.toNat :: bytesBe32 p.2.bits) ++
    [usable] ++ bytesBe32 (BitVec.ofNat 32 payload.length) ++ payload

/-- Records a Container may hold (30_encoding R55): every symbol once, every length in 1 to 32 with zeros
below the code, no code a prefix of, or equal to, another. -/
def legalRecords (records : List (Byte × CodeEntry)) : Prop :=
  (records.map (fun p => p.1)).Nodup ∧
    (∀ p ∈ records, 1 ≤ p.2.len.toNat ∧ p.2.len.toNat ≤ 32 ∧ bitsBelow p.2.bits p.2.len.toNat = 0) ∧
    ∀ p ∈ records, ∀ q ∈ records, p.1 ≠ q.1 → ¬ p.2.toBits <+: q.2.toBits

/-- A usable-bits count that fits its payload (30_encoding R53), the payload short enough for its length
field. -/
def legalPayload (usable : Byte) (payload : List Byte) : Prop :=
  payload.length < 2 ^ 32 ∧ usable.toNat ≤ 8 ∧ (usable.toNat = 0 ↔ payload = [])

/-- The bits that spell a list of records' codes. -/
def spelled (chosen : List (Byte × CodeEntry)) : Bits := chosen.flatMap (fun p => p.2.toBits)

/-- `t` is the next state of `s` after a host access that returned `r` and did nothing else. -/
def State.afterRead (s : State) (rest : List HostAction) (r : Reply) : State :=
  (s.setScript rest).reply r

/-- `t` is `s` after the fault IllegalCommand and nothing else (45_codec_commands R112). -/
def State.afterIllegalCommand (s t : State) : Prop :=
  t.status = 0x06#8 ∧ t.errcode = 5#8 ∧ t.errinfo = 0#8 ∧ t.outLen = 0#64 ∧
    (∀ a, t.outDefined a = false) ∧ s.sameInputSide t

end Sys2Proof.Machine

open Sys2Proof Sys2Proof.Machine

/-! ### Command words -/

/-- 30_encoding R49: the two command words, bit by bit, and a few that are none. -/
def Obligations.CommandWordsDecodeAsTheOpcodeMapSays : Prop :=
  decode [0b00000001#8] = .ok (.encode, []) ∧ decode [0b00000010#8] = .ok (.decode, []) ∧
    decodeTableWord 8 0x01 = some .encode ∧ decodeTableWord 8 0x02 = some .decode ∧
    decode [0b00000000#8] = .error (.illegalCommand 0x00#8) ∧
    decode [0b00000011#8] = .error (.illegalCommand 0x03#8) ∧
    decode [0b10000001#8] = .error (.illegalCommand 0x81#8) ∧
    decode [0b11111111#8] = .error (.illegalCommand 0xFF#8)

/-- 30_encoding R49, R50: decoding and encoding agree in both directions, all eight bits are compared, and
exactly 254 words encode no operation. -/
def Obligations.DecodeAndEncodeAgreeOnEveryCommandWord : Prop :=
  (∀ i rest, decode (encode i ++ rest) = .ok (i, rest)) ∧
    (∀ i op rest rest', decode (op :: rest) = .ok (i, rest') → encode i = [op] ∧ rest' = rest) ∧
    (∀ op rest, (∀ i, encode i ≠ [op]) → decode (op :: rest) = .error (.illegalCommand op)) ∧
    (symbols.filter (fun op => decide (∀ i ∈ [Instr.encode, Instr.decode], encode i ≠ [op]))).length = 254

/-- 45_codec_commands R100: with BUSY = 1 a move of the ENGINE is exec of the instruction that CMD encodes,
whether the host's script is empty, waits in a POLL, or gives the ENGINE its turn. The script and the
replies are the model's form of the host (DESIGN CHOICE, log entry 2). -/
def Obligations.StepRunsTheDecodedCommand : Prop :=
  ∀ (s : State) (i : Instr) (rest : List HostAction), s.busy = true → decode [s.cmd] = .ok (i, []) →
    (s.script = [] → step s = exec i s) ∧
      (s.script = .poll :: rest → step s = exec i s) ∧
      (s.script = .engineTurn :: rest → step s = exec i (s.setScript rest))

/-- 10_state R12, 70_reset_and_hazards R131: when BUSY = 0 the ENGINE is idle and does nothing. The script
and the replies are the model's form of the host (DESIGN CHOICE, log entry 2). -/
def Obligations.IdleEngineDoesNothing : Prop :=
  ∀ (s : State) (rest : List HostAction), s.busy = false →
    (s.script = [] → step s = .next s) ∧
      (s.script = .engineTurn :: rest → step s = .next (s.setScript rest))

/-- 30_encoding R50, 45_codec_commands R112: a word other than 0x01 and 0x02 does nothing but fault with
IllegalCommand (ERRCODE 5), whatever IN_LEN is, in each of the three ways in which the ENGINE has the move:
an empty script, a POLL at the head (which stays), an ENGINE turn at the head. The script, and with it who
has the move, is the model's form of the host (DESIGN CHOICE, log entry 2). -/
def Obligations.IllegalCommandDoesNothingButFault : Prop :=
  ∀ (s : State) (rest : List HostAction), s.busy = true → s.cmd ≠ 0x01#8 → s.cmd ≠ 0x02#8 →
    (s.script = [] → ∃ t, step s = .next t ∧ s.afterIllegalCommand t) ∧
      (s.script = .poll :: rest → ∃ t, step s = .next t ∧ s.afterIllegalCommand t) ∧
      (s.script = .engineTurn :: rest →
        ∃ t, step s = .next t ∧ (s.setScript rest).afterIllegalCommand t)

/-! ### Reset and the host registers -/

/-- 10_state R25: the state after reset, for every configuration; the working state, for which the spec
states no value, is not spoken of. -/
def Obligations.ResetStateHoldsTheStatedValues : Prop :=
  ∀ c : Config, ∀ a : Nat,
    (State.resetOf c).cmd = 0x00#8 ∧ (State.resetOf c).status = 0x00#8 ∧
      (State.resetOf c).errcode = 0x00#8 ∧ (State.resetOf c).errinfo = 0x00#8 ∧
      (State.resetOf c).inLen = 0#64 ∧ (State.resetOf c).outLen = 0#64 ∧
      (State.resetOf c).inBuf.read a = none ∧ (State.resetOf c).outDefined a = false ∧
      (State.resetOf c).busy = false

/-- 70_reset_and_hazards R130: the reset event, at any time, also while a command runs; R131: the parameters
stay. That the rest of the script and the replies stay is the model's choice (DESIGN CHOICE, log entry 12),
and so is their form (DESIGN CHOICE, log entry 2). -/
def Obligations.ResetEventPutsTheBlockAtItsResetValues : Prop :=
  ∀ (s : State) (rest : List HostAction), s.script = .reset :: rest →
    ∃ t, step s = .next t ∧ t.cmd = 0x00#8 ∧ t.status = 0x00#8 ∧ t.errcode = 0x00#8 ∧
      t.errinfo = 0x00#8 ∧ t.inLen = 0#64 ∧ t.outLen = 0#64 ∧ (∀ a, t.inBuf.read a = none) ∧
      (∀ a, t.outDefined a = false) ∧ t.cfg = s.cfg ∧ t.script = rest ∧ t.replies = s.replies

/-- 10_state R11: six registers by number, each read without side effect, writes to the read-only ones
ignored, and no other register number. The script and the replies are the model's form of the host (DESIGN
CHOICE, log entry 2). The name of the refusal is the model's (DESIGN CHOICE, log entry 11). -/
def Obligations.RegisterFileReadsAndIgnoresAsStated : Prop :=
  ∀ (s : State) (rest : List HostAction),
    (s.script = .readReg 0 :: rest → step s = .next (s.afterRead rest (.reg 0 (s.cmd.setWidth 64)))) ∧
      (s.script = .readReg 1 :: rest → step s = .next (s.afterRead rest (.reg 1 (s.status.setWidth 64)))) ∧
      (s.script = .readReg 2 :: rest → step s = .next (s.afterRead rest (.reg 2 (s.errcode.setWidth 64)))) ∧
      (s.script = .readReg 3 :: rest → step s = .next (s.afterRead rest (.reg 3 (s.errinfo.setWidth 64)))) ∧
      (s.script = .readReg 4 :: rest → step s = .next (s.afterRead rest (.reg 4 s.inLen))) ∧
      (s.script = .readReg 5 :: rest → step s = .next (s.afterRead rest (.reg 5 s.outLen))) ∧
      (∀ r v, r = 1 ∨ r = 2 ∨ r = 3 ∨ r = 5 → s.script = .writeReg r v :: rest →
        step s = .next (s.setScript rest)) ∧
      (∀ v, s.busy = false → s.script = .writeReg 4 v :: rest →
        step s = .next ((s.setScript rest).setInLen v)) ∧
      (∀ r v, 6 ≤ r → s.script = .writeReg r v :: rest → step s = .refused .noSuchRegister) ∧
      (∀ r, 6 ≤ r → s.script = .readReg r :: rest → step s = .refused .noSuchRegister)

/-- 10_state R14: the whole effect of a host write of an 8-bit value to CMD while BUSY = 0. The script and
the replies are the model's form of the host (DESIGN CHOICE, log entry 2). -/
def Obligations.CmdWriteStartsACommand : Prop :=
  ∀ (s : State) (rest : List HostAction) (c : BitVec 8), s.busy = false →
    s.script = .writeReg 0 (c.setWidth 64) :: rest →
    ∃ t, step s = .next t ∧ t.cmd = c ∧ t.status = 0x01#8 ∧ t.errcode = 0#8 ∧ t.errinfo = 0#8 ∧
      t.outLen = 0#64 ∧ (∀ a, t.outDefined a = false) ∧ t.busy = true ∧ t.cfg = s.cfg ∧ t.inLen = s.inLen ∧
      (∀ a, t.inRead a = s.inRead a) ∧ t.script = rest ∧ t.replies = s.replies

/-- 20_memory R42, R35: a host write to IN sets that byte alone, and a host read of IN returns the byte last
written there. The script and the replies are the model's form of the host (DESIGN CHOICE, log entry 2). -/
def Obligations.InHoldsTheByteLastWritten : Prop :=
  ∀ (s : State) (rest : List HostAction) (a : Nat) (b : Byte), a < s.cfg.inCap →
    (s.busy = false → s.script = .writeIn a b :: rest →
      ∃ t, step s = .next t ∧ t.inRead a = b ∧ (∀ x, x ≠ a → t.inRead x = s.inRead x) ∧
        t = { s with script := rest, inBuf := t.inBuf }) ∧
      (s.script = .readIn a :: rest → step s = .next (s.afterRead rest (.inByte a (s.inRead a))))

/-- 20_memory R42: an access to IN or OUT at or above the capacity, and a write to OUT, are refused, whether
BUSY is 0 or 1. While BUSY = 1 a write of IN and a read of OUT are refused at every offset, and the refusal
then has the name of that hazard (70_reset_and_hazards R133). The names of the refusals are the model's
(DESIGN CHOICE, log entry 11), and so is the script (DESIGN CHOICE, log entry 2). -/
def Obligations.AccessesOutsideTheBuffersAreRefused : Prop :=
  ∀ (s : State) (rest : List HostAction) (a : Nat) (b : Byte),
    (s.cfg.inCap ≤ a → s.script = .writeIn a b :: rest →
      step s = .refused (if s.busy then .writeInWhileBusy else .inOffsetOutOfRange)) ∧
      (s.cfg.inCap ≤ a → s.script = .readIn a :: rest → step s = .refused .inOffsetOutOfRange) ∧
      (s.cfg.outCap ≤ a → s.script = .readOut a :: rest →
        step s = .refused (if s.busy then .readOutWhileBusy else .outOffsetOutOfRange)) ∧
      (s.script = .writeOut a b :: rest → step s = .refused .hostWriteToOut)

/-- 70_reset_and_hazards R133: while BUSY = 1 the host's writes of CMD, IN_LEN and IN and its reads of OUT
are refused; it may read every register, the result registers reading as R133 says, and IN. The script and
the replies are the model's form of the host (DESIGN CHOICE, log entry 2). That a refusal has a name of its
own, and that the name of this hazard wins over every other, is the model's choice (DESIGN CHOICE, log entry
11). -/
def Obligations.HazardousAccessesWhileBusyAreRefused : Prop :=
  ∀ (s : State) (rest : List HostAction) (a : Nat), s.Inv → s.busy = true →
    (∀ v, s.script = .writeReg 0 v :: rest → step s = .refused .writeCmdWhileBusy) ∧
      (∀ v, s.script = .writeReg 4 v :: rest → step s = .refused .writeInLenWhileBusy) ∧
      (∀ b, s.script = .writeIn a b :: rest → step s = .refused .writeInWhileBusy) ∧
      (s.script = .readOut a :: rest → step s = .refused .readOutWhileBusy) ∧
      (s.script = .readReg 0 :: rest → step s = .next (s.afterRead rest (.reg 0 (s.cmd.setWidth 64)))) ∧
      (s.script = .readReg 1 :: rest → step s = .next (s.afterRead rest (.reg 1 1#64))) ∧
      (s.script = .readReg 2 :: rest → step s = .next (s.afterRead rest (.reg 2 0#64))) ∧
      (s.script = .readReg 3 :: rest → step s = .next (s.afterRead rest (.reg 3 0#64))) ∧
      (s.script = .readReg 4 :: rest → step s = .next (s.afterRead rest (.reg 4 s.inLen))) ∧
      (s.script = .readReg 5 :: rest → step s = .next (s.afterRead rest (.reg 5 0#64))) ∧
      (a < s.cfg.inCap → s.script = .readIn a :: rest →
        step s = .next (s.afterRead rest (.inByte a (s.inRead a))))

/-- 10_state R26, 70_reset_and_hazards R135: a read of OUT returns a byte of the result exactly below
OUT_LEN after a command without a fault; the state but for the reply is as before. The script and the
replies are the model's form of the host (DESIGN CHOICE, log entry 2). -/
def Obligations.OutReadsReturnTheResult : Prop :=
  ∀ (s : State) (rest : List HostAction) (bytes : List Byte) (a : Nat) (b : Byte),
    s.finishedWith bytes → a < s.cfg.outCap → bytes[a]? = some b → s.script = .readOut a :: rest →
      step s = .next (s.afterRead rest (.outByte a b))

/-- 20_memory R37: a read has no side effect and may be repeated: twice the same read gives twice the same
reply. The script and the replies are the model's form of the host (DESIGN CHOICE, log entry 2). That an
unspecified byte of OUT reads alike twice is DEDUCED (log entry 4). -/
def Obligations.ReadsAreIdempotent : Prop :=
  ∀ (s : State) (rest : List HostAction) (x : HostAction),
    (∃ r, x = .readReg r) ∨ (∃ a, x = .readIn a) ∨ (∃ a, x = .readOut a) → x.allowed s →
    s.script = x :: x :: rest →
    ∃ r t, step s = .next t ∧ t = s.afterRead (x :: rest) r ∧
      step t = .next (s.afterRead rest r |>.reply r)

/-- 20_memory R42, 70_reset_and_hazards R133 (and U7, U9): a step has a next state exactly when the host
action that has the move, if any, is one to which the spec gives a meaning; the ENGINE always has one. The
script and the replies are the model's form of the host (DESIGN CHOICE, log entry 2). The bound on the value
written to CMD is the model's (log entry 8). -/
def Obligations.StepStopsExactlyOnAnAccessWithoutMeaning : Prop :=
  ∀ s : State, (∃ t, step s = .next t) ↔ ∀ a rest, s.script = a :: rest → a.allowed s

/-- 60_exceptions R128, 30_encoding R57: a host that polls sees BUSY = 0 after one move of the ENGINE, and
its POLL is then over. The script and the replies are the model's form of the host (DESIGN CHOICE, log entry
2). One move of the ENGINE is enough because a command is one step (R39; log entry 9). -/
def Obligations.PollingHostSeesTheCommandFinish : Prop :=
  ∀ (s : State) (rest : List HostAction), s.busy = true → s.script = .poll :: rest →
    ∃ t, step s = .next t ∧ t.busy = false ∧ t.done = true ∧ t.script = .poll :: rest ∧
      step t = .next (t.setScript rest)

/-! ### Whole-machine rules -/

/-- 10_state R13, R15, R16, R26: the invariant holds after reset, for every configuration within the bounds
of 00_scope R5. The capacities of State.reset are the model's (DESIGN CHOICE, log entry 1). -/
def Obligations.ResetStateMeetsTheInvariant : Prop :=
  State.reset.Inv ∧ ∀ c : Config, c.wf = true → (State.resetOf c).Inv

/-- 10_state R13, R15, R16, R26: every step keeps the invariant (STATUS legal, results and error codes
consistent with it, buffers canonical and within their capacities). -/
def Obligations.EveryStepKeepsTheInvariant : Prop :=
  ∀ s t : State, s.Inv → step s = .next t → t.Inv

/-- 10_state R10: the ENGINE never writes IN, IN_LEN or CMD: only the host's own write, or the reset event,
changes one of them, a byte of IN only the write at its own offset; the parameters never change
(70_reset_and_hazards R131). The script and the replies are the model's form of the host (DESIGN CHOICE, log
entry 2). -/
def Obligations.OnlyTheHostChangesTheInputSide : Prop :=
  ∀ s t : State, step s = .next t →
    t.cfg = s.cfg ∧
      (t.cmd ≠ s.cmd → ∃ rest, s.script = .reset :: rest ∨ ∃ v, s.script = .writeReg 0 v :: rest) ∧
      (t.inLen ≠ s.inLen → ∃ rest, s.script = .reset :: rest ∨ ∃ v, s.script = .writeReg 4 v :: rest) ∧
      ∀ a, t.inRead a ≠ s.inRead a →
        ∃ rest, s.script = .reset :: rest ∨ ∃ b, s.script = .writeIn a b :: rest

/-- 10_state R13: BUSY is set by a CMD write only, and cleared by the ENGINE when the command finishes (then
DONE = 1) or by reset only (70_reset_and_hazards R130; 60_exceptions R121). The script and the replies are
the model's form of the host (DESIGN CHOICE, log entry 2). -/
def Obligations.BusyRisesAndFallsOnlyAsStated : Prop :=
  ∀ s t : State, step s = .next t →
    (s.busy = false → t.busy = true → ∃ v rest, s.script = .writeReg 0 v :: rest) ∧
      (s.busy = true → t.busy = false →
        (∃ rest, s.script = .reset :: rest) ∨
          (t.done = true ∧
            (s.script = [] ∨ ∃ rest, s.script = .poll :: rest ∨ s.script = .engineTurn :: rest)))

/-- 10_state R24: the result of a command is a function of (CMD, IN_LEN, IN[0..IN_LEN), IN_CAP, OUT_CAP)
alone: nothing of the working state, of OUT or of the previous command's registers flows into it. -/
def Obligations.ResultDependsOnTheCommandInputsAlone : Prop :=
  ∀ (i : Instr) (s u : State), s.inLen = u.inLen → s.cfg.inCap = u.cfg.inCap →
    s.cfg.outCap = u.cfg.outCap → (∀ a, a < s.inLen.toNat → s.inRead a = u.inRead a) →
    ∃ s' u', exec i s = .next s' ∧ exec i u = .next u' ∧ s'.status = u'.status ∧
      s'.errcode = u'.errcode ∧ s'.errinfo = u'.errinfo ∧ s'.outLen = u'.outLen ∧
      (∀ a, s'.outDefined a = u'.outDefined a) ∧
      ∀ a, s'.outDefined a = true → s'.outRead a = u'.outRead a

/-- 60_exceptions R117, R122 and 45_codec_commands R111: both commands end in a next state, with the whole
result or with a fault and none; CMD, IN_LEN, IN, the parameters and the host's side are as before. The spec
marks this as its own inference: R122, derived from R117 and R111. -/
def Obligations.CommandEndsWithItsWholeResultOrNone : Prop :=
  ∀ (i : Instr) (s : State), s.cfg.wf = true →
    ∃ t, exec i s = .next t ∧ s.sameInputSide t ∧
      ((∃ bytes, bytes.length ≤ s.cfg.outCap ∧ t.finishedWith bytes) ∨ ∃ r, t.faultedWith r)

/-- 60_exceptions R115, R116: the values of ERRCODE and ERRINFO. -/
def Obligations.FaultCodesAreTheTablesValues : Prop :=
  (∀ c, (FaultReport.malformedContainer c).errcode = 1#8) ∧
    FaultReport.unrepresentableCodeLength.errcode = 2#8 ∧ FaultReport.inputTooLong.errcode = 3#8 ∧
    FaultReport.outputOverflow.errcode = 4#8 ∧ FaultReport.illegalCommand.errcode = 5#8 ∧
    FaultReport.badLength.errcode = 6#8 ∧
    (∀ r : FaultReport, (∀ c, r ≠ .malformedContainer c) → r.errinfo = 0#8) ∧
    ([SubCause.truncFixed, .truncTable, .truncPayload, .badCodeLen, .tooManyEntries, .dupSymbol, .dirtyPad,
      .notPrefixFree, .badUsable, .trailingBytes, .noCode, .outOfBits].map
        (fun c => (FaultReport.malformedContainer c).errinfo.toNat)) = [1, 2, 3, 4, 5, 6, 7, 8, 9, 10, 11, 12]

/-! ### The unit operations of ENCODE -/

/-- 40_frequency_counter R60, R61: FREQ counts the occurrences, their sum is the input length, K is the
number of distinct symbols, and K = 0 exactly for the empty input. The spec marks this as its own inference:
R61, derived from R60. -/
def Obligations.CountCountsEverySymbol : Prop :=
  ∀ (input : List Byte) (w : Working), input.length ≤ 2 ^ 32 - 1 →
    (∀ x, SymbolTable.at w.freq x = 0#32) →
    (∀ x, (SymbolTable.at (w.count input).freq x).toNat = input.count x) ∧
      (symbols.map (fun x => (SymbolTable.at (w.count input).freq x).toNat)).sum = input.length ∧
      (w.count input).k.toNat = (distinctSymbols input).length ∧
      ((w.count input).k = 0#9 ↔ input = []) ∧
      (w.count input) = { w with freq := (w.count input).freq, k := (w.count input).k }

/-- 10_state R24, 45_codec_commands R101: what a command start sets, whatever the working state held. R24
does not name ROOT: that ROOT keeps its value (the last clause) is the model's choice (DESIGN CHOICE, log
entry 5). -/
def Obligations.CommandStartInitialisesTheWorkingState : Prop :=
  ∀ (w : Working) (x : Byte),
    SymbolTable.at w.start.freq x = 0#32 ∧ SymbolTable.at w.start.code x = { len := 0#6, bits := 0#32 } ∧
      w.start.nnodes = 0 ∧ w.start.pq = [] ∧ w.start.k = 0#9 ∧ w.start.acc = 0#8 ∧ w.start.nacc = 0#4 ∧
      w.start.curLen = 0#6 ∧ w.start.curBits = 0#32 ∧ w.start.emit = 0#32 ∧ w.start.root = w.root

/-- 41_tree_builder R65, R67: PQ_EXTRACT_MIN returns the one member whose (weight, index) comes before
every other's, and removes it alone. -/
def Obligations.ExtractMinTakesTheLeastKey : Prop :=
  ∀ (nodes : List Node) (pq : List ArenaIndex), pq.Nodup → pq ≠ [] →
    ∃ m rest, pqExtractMin nodes pq = some (m, rest) ∧ m ∈ pq ∧ rest.Nodup ∧
      (∀ i, i ∈ rest ↔ i ∈ pq ∧ i ≠ m) ∧
      ∀ i ∈ rest, (weightAt nodes m).toNat < (weightAt nodes i).toNat ∨
        ((weightAt nodes m).toNat = (weightAt nodes i).toNat ∧ m.toNat < i.toNat)

/-- 41_tree_builder R69: one pass of the merge loop replaces the two least members of PQ by a new entry at
index NNODES, first extracted = left, with the sum of their weights. -/
def Obligations.MergeJoinsTheTwoLightestNodes : Prop :=
  ∀ w : Working, w.pq.Nodup → 2 ≤ w.pq.length → (∀ i ∈ w.pq, i.toNat < w.nnodes) → w.nnodes < 511 →
    ∃ a b, a ∈ w.pq ∧ b ∈ w.pq ∧ a ≠ b ∧
      (∀ i ∈ w.pq, i ≠ a → keyBefore w.node a i = true) ∧
      (∀ i ∈ w.pq, i ≠ a → i ≠ b → keyBefore w.node b i = true) ∧
      w.mergeOnce.node = w.node ++ [.internal (weightAt w.node a + weightAt w.node b) a b] ∧
      (∀ i, i ∈ w.mergeOnce.pq ↔ (i ∈ w.pq ∧ i ≠ a ∧ i ≠ b) ∨ i.toNat = w.nnodes) ∧
      w.mergeOnce.pq.Nodup ∧ w.mergeOnce.pq.length + 1 = w.pq.length ∧
      w.mergeOnce = { w with node := w.mergeOnce.node, pq := w.mergeOnce.pq }

/-- 41_tree_builder R68, R73: the shape of the arena after `build`: K leaves in ascending symbol order with
their counts, K − 1 internal entries with two smaller children each, the root last, every other entry the
child of exactly one internal entry. The spec marks this as its own inference: R73, derived from R68 and
R69. -/
def Obligations.BuildMakesAStrictBinaryTree : Prop :=
  ∀ input : List Byte, input ≠ [] → input.length ≤ 2 ^ 32 - 1 →
    (treeOf input).nnodes = 2 * (distinctSymbols input).length - 1 ∧ (treeOf input).nnodes ≤ 511 ∧
      (treeOf input).root.toNat = 2 * (distinctSymbols input).length - 2 ∧
      (treeOf input).pq = [(treeOf input).root] ∧
      (∀ (j : Nat) (x : Byte), (distinctSymbols input)[j]? = some x →
        ∃ c, (treeOf input).node[j]? = some (.leaf x c) ∧ c.toNat = input.count x) ∧
      (∀ j : Nat, (distinctSymbols input).length ≤ j → j < (treeOf input).nnodes →
        ∃ c l r, (treeOf input).node[j]? = some (.internal c l r) ∧ l ≠ r ∧ l.toNat < j ∧ r.toNat < j) ∧
      ∀ j : Nat, j < (treeOf input).root.toNat →
        ∃! p : Nat, ∃ c l r, (treeOf input).node[p]? = some (.internal c l r) ∧ (l.toNat = j ∨ r.toNat = j)

/-- 41_tree_builder R72: an internal weight is the sum of its children's, with no overflow; the root weighs
the input length; no weight is 0. The spec marks this as its own inference: R72, derived from R68, R69 and
R61. -/
def Obligations.WeightsAddUpWithoutOverflow : Prop :=
  ∀ input : List Byte, input ≠ [] → input.length ≤ 2 ^ 32 - 1 →
    (∀ (j : Nat) c l r, (treeOf input).node[j]? = some (.internal c l r) →
      c.toNat = (weightAt (treeOf input).node l).toNat + (weightAt (treeOf input).node r).toNat) ∧
      (weightAt (treeOf input).node (treeOf input).root).toNat = input.length ∧
      ∀ (j : Nat) n, (treeOf input).node[j]? = some n → 1 ≤ n.weight.toNat

/-- 42_code_generator R76, R77: the code of a symbol is the path from the root to its leaf (0 left, 1
right), or "0" when the root is the only leaf; absent symbols get no code. -/
def Obligations.CodesAreRootToLeafPaths : Prop :=
  ∀ (input : List Byte) (w : Working), input ≠ [] → input.length ≤ 2 ^ 32 - 1 →
    (treeOf input).codes = .ok w →
    (2 ≤ (distinctSymbols input).length → ∀ x ∈ input,
      ∃ c, follow (treeOf input).node (treeOf input).root (SymbolTable.at w.code x).toBits =
        some (.leaf x c)) ∧
      (∀ x, distinctSymbols input = [x] → SymbolTable.at w.code x = { len := 1#6, bits := 0#32 }) ∧
      (∀ x, x ∉ input → SymbolTable.at w.code x = { len := 0#6, bits := 0#32 }) ∧
      w = { treeOf input with code := w.code }

/-- 42_code_generator R78: `codes` faults exactly when some leaf is deeper than 32, and then with
UnrepresentableCodeLength. -/
def Obligations.CodesFaultsExactlyOnATooDeepLeaf : Prop :=
  ∀ (input : List Byte) (r : FaultReport), input ≠ [] → input.length ≤ 2 ^ 32 - 1 →
    ((treeOf input).codes = .error r ↔
      r = .unrepresentableCodeLength ∧
        ∃ path x c, 32 < path.length ∧
          follow (treeOf input).node (treeOf input).root path = some (.leaf x c))

/-- 42_code_generator R79: the code table of ENCODE: an entry exactly for the symbols of the input, lengths
1 to 32, zeros below, prefix-free, and complete when there are two symbols or more. The spec marks this as
its own inference: R79, derived from R76, R77 and R73. -/
def Obligations.CodeTableIsPrefixFreeAndComplete : Prop :=
  ∀ (input : List Byte) (w : Working), input ≠ [] → input.length ≤ 2 ^ 32 - 1 →
    (treeOf input).codes = .ok w →
    CodeTable.good w.code ∧
      (∀ x, (SymbolTable.at w.code x).present = true ↔ x ∈ input) ∧
      (CodeTable.entries w.code).length = (distinctSymbols input).length ∧
      (2 ≤ (distinctSymbols input).length → ∀ f : Nat → Bool,
        ∃! x, x ∈ input ∧ (SymbolTable.at w.code x).toBits =
          (List.range (SymbolTable.at w.code x).len.toNat).map f) ∧
      ((distinctSymbols input).length = 1 → ∀ x ∈ input, (SymbolTable.at w.code x).toBits = [false])

/-- 42_code_generator R80, 45_codec_commands R105 (2): the Bitstream has at most n·ceil(log2 K) bits for K ≥
2 symbols, n bits for K = 1, hence at most 8·n, so the payload has at most n bytes. The spec marks this as
its own inference: R80, the optimality of the merge, from general knowledge (G2). -/
def Obligations.BitstreamIsNoLongerThanFixedWidth : Prop :=
  ∀ (input : List Byte) (w : Working), input ≠ [] → input.length ≤ 2 ^ 32 - 1 →
    (treeOf input).codes = .ok w →
    (2 ≤ (distinctSymbols input).length →
      (bitstream w.code input).length ≤ input.length * Nat.clog 2 (distinctSymbols input).length) ∧
      ((distinctSymbols input).length = 1 → (bitstream w.code input).length = input.length) ∧
      input.length ≤ (bitstream w.code input).length ∧
      (bitstream w.code input).length ≤ 8 * input.length ∧
      (w.pack (bitstream w.code input)).1.length ≤ input.length

/-- 43_table_serializer R86: `deserialize(serialize(t)) = t` for every good table, whatever bytes follow,
and the bytes consumed are those of the table, 4 + 6·c. The spec marks this as its own inference: R86,
derived from R83 and R84. -/
def Obligations.DeserializeInvertsSerialize : Prop :=
  ∀ (t : CodeTable) (rest : List Byte), CodeTable.good t →
    deserialize (serialize t ++ rest) Working.init.code = .ok (t, (serialize t).length) ∧
      (serialize t).length = 4 + 6 * (CodeTable.entries t).length

/-- 43_table_serializer R83, 30_encoding R51, R52, R56: the bytes of a Container that ENCODE assembles,
field by field at their offsets, and its size. The spec marks this as its own inference: R56, derived from
R51. -/
def Obligations.ContainerFieldsStandAtTheirOffsets : Prop :=
  ∀ (n : Nat) (t : CodeTable) (usable : Byte) (payload : List Byte), n < 2 ^ 32 → payload.length < 2 ^ 32 →
    (containerBytes n (serialize t) usable payload).length =
        13 + 6 * (CodeTable.entries t).length + payload.length ∧
      takeBe32 (containerBytes n (serialize t) usable payload) =
        some (BitVec.ofNat 32 n, (containerBytes n (serialize t) usable payload).drop 4) ∧
      takeBe32 ((containerBytes n (serialize t) usable payload).drop 4) =
        some (BitVec.ofNat 32 (CodeTable.entries t).length,
          (containerBytes n (serialize t) usable payload).drop 8) ∧
      (∀ (i : Nat) x e, (CodeTable.entries t)[i]? = some (x, e) →
        ((containerBytes n (serialize t) usable payload).drop (8 + 6 * i)).take 6 =
          [x, BitVec.ofNat 8 e.len.toNat, e.bits.extractLsb' 24 8, e.bits.extractLsb' 16 8,
            e.bits.extractLsb' 8 8, e.bits.extractLsb' 0 8]) ∧
      (containerBytes n (serialize t) usable payload)[8 + 6 * (CodeTable.entries t).length]? = some usable ∧
      takeBe32 ((containerBytes n (serialize t) usable payload).drop
          (9 + 6 * (CodeTable.entries t).length)) =
        some (BitVec.ofNat 32 payload.length, payload) ∧
      (containerBytes n (serialize t) usable payload).drop (13 + 6 * (CodeTable.entries t).length) = payload

/-- 43_table_serializer R83: the records stand in ascending order of symbol, one for each present entry. -/
def Obligations.RecordsStandInAscendingSymbolOrder : Prop :=
  ∀ t : CodeTable, (CodeTable.entries t).Pairwise (fun p q => p.1.toNat < q.1.toNat) ∧
    ∀ x e, (x, e) ∈ CodeTable.entries t ↔ e = SymbolTable.at t x ∧ 0 < e.len.toNat

/-- 44_bit_packer_reader R96: the round-trip law in both directions; the second clears the padding bits of
the last byte. The spec marks this as its own inference: R96, derived from R91, R92 and R94. -/
def Obligations.PackAndUnpackAreInverse : Prop :=
  (∀ (bits : Bits) (w : Working), unpack (w.pack bits).1 (w.pack bits).2.1 = bits) ∧
    ∀ (payload : List Byte) (last usable : Byte) (w : Working), 1 ≤ usable.toNat → usable.toNat ≤ 8 →
      (w.pack (unpack (payload ++ [last]) usable)).2.1 = usable ∧
        ∃ last', (w.pack (unpack (payload ++ [last]) usable)).1 = payload ++ [last'] ∧
          ∀ t, t < 8 → last'.getMsbD t = (decide (t < usable.toNat) && last.getMsbD t)

/-- 44_bit_packer_reader R93: the closed form of `pack`: the number of bytes, the usable count, and every
bit of every payload byte, padding included. The spec marks this as its own inference: R93, derived from R91
and R92. -/
def Obligations.PackHasItsClosedForm : Prop :=
  ∀ (bits : Bits) (w : Working),
    (w.pack bits).1.length = (bits.length + 7) / 8 ∧
      (w.pack bits).2.1.toNat = (if bits.length = 0 then 0 else (bits.length - 1) % 8 + 1) ∧
      (∀ (j : Nat) (b : Byte), (w.pack bits).1[j]? = some b → ∀ t : Nat, t < 8 →
        b.getLsbD (7 - t) = (bits[8 * j + t]?).getD false) ∧
      ((w.pack bits).1 ≠ [] → bits.length = 8 * ((w.pack bits).1.length - 1) + (w.pack bits).2.1.toNat)

/-- 20_memory R33: a 32-bit field is stored most significant byte first and reads back as the value. -/
def Obligations.WordFieldsAreBigEndian : Prop :=
  ∀ (v : Word32) (rest : List Byte),
    (bytesBe32 v).map (fun b => b.toNat) =
        [v.toNat / 2 ^ 24 % 256, v.toNat / 2 ^ 16 % 256, v.toNat / 2 ^ 8 % 256, v.toNat % 256] ∧
      takeBe32 (bytesBe32 v ++ rest) = some (v, rest)

/-! ### ENCODE -/

/-- 45_codec_commands R103: the operand checks of ENCODE, in order, with nothing else changed. -/
def Obligations.EncodeChecksItsOperandsInOrder : Prop :=
  ∀ s : State,
    (s.cfg.inCap < s.inLen.toNat →
      ∃ t, exec .encode s = .next t ∧ t.status = 0x06#8 ∧ t.errcode = 6#8 ∧ t.errinfo = 0#8 ∧
        t.outHolds [] ∧ s.sameInputSide t) ∧
      (s.inLen.toNat ≤ s.cfg.inCap → 2 ^ 32 - 1 < s.inLen.toNat →
        ∃ t, exec .encode s = .next t ∧ t.status = 0x06#8 ∧ t.errcode = 3#8 ∧ t.errinfo = 0#8 ∧
          t.outHolds [] ∧ s.sameInputSide t)

/-- 45_codec_commands R104: the empty input is no error and gives the 13-byte Container of zeros. -/
def Obligations.EncodeOfTheEmptyInputGivesThirteenZeros : Prop :=
  ∀ s : State, s.inLen = 0#64 →
    ∃ t, exec .encode s = .next t ∧ t.finishedWith (List.replicate 13 0x00#8) ∧ s.sameInputSide t

/-- 45_codec_commands R102, R105, 60_exceptions R119: ENCODE of a non-empty input of acceptable length.
When no leaf is deeper than 32 and the Container fits OUT, ENCODE completes with it; a too deep leaf gives
UnrepresentableCodeLength, whatever the size; else a Container too long for OUT gives OutputOverflow. -/
def Obligations.EncodeCompletesWithTheContainer : Prop :=
  ∀ s : State, 0 < s.inLen.toNat → s.inLen.toNat ≤ s.cfg.inCap → s.inLen.toNat ≤ 2 ^ 32 - 1 →
    (∀ w payload usable w', (treeOf s.input).codes = .ok w →
      w.pack (bitstream w.code s.input) = (payload, usable, w') →
      (13 + 6 * (distinctSymbols s.input).length + payload.length ≤ s.cfg.outCap → s.cfg.wf = true →
        ∃ t, exec .encode s = .next t ∧ s.sameInputSide t ∧
          t.finishedWith
            (containerOf s.inLen.toNat (CodeTable.entries w.code) usable payload)) ∧
        (s.cfg.outCap < 13 + 6 * (distinctSymbols s.input).length + payload.length →
          ∃ t, exec .encode s = .next t ∧ s.sameInputSide t ∧ t.faultedWith .outputOverflow)) ∧
      ∀ r, (treeOf s.input).codes = .error r →
        ∃ t, exec .encode s = .next t ∧ s.sameInputSide t ∧ t.faultedWith r

/-- 45_codec_commands R102 (corner case), 42_code_generator R77, 60_exceptions R118: one symbol repeated n
times is no error: one record with the code "0", ceil(n/8) payload bytes of zero. -/
def Obligations.EncodeOfOneRepeatedSymbolCompletes : Prop :=
  ∀ (s : State) (x : Byte) (n : Nat), 1 ≤ n → n ≤ 2 ^ 32 - 1 → n ≤ s.cfg.inCap → s.cfg.wf = true →
    s.input = List.replicate n x → 19 + (n + 7) / 8 ≤ s.cfg.outCap →
    ∃ t, exec .encode s = .next t ∧ s.sameInputSide t ∧
      t.finishedWith (bytesBe32 (BitVec.ofNat 32 n) ++ bytesBe32 1#32 ++ [x, 1#8, 0#8, 0#8, 0#8, 0#8] ++
        [BitVec.ofNat 8 ((n - 1) % 8 + 1)] ++ bytesBe32 (BitVec.ofNat 32 ((n + 7) / 8)) ++
        List.replicate ((n + 7) / 8) 0#8)

/-! ### DECODE -/

/-- 45_codec_commands R107 (a, b), 43_table_serializer R84 (checks 1 to 3), 60_exceptions R120 (1) to (5):
the checks DECODE makes before it reads a record, in order. -/
def Obligations.DecodeChecksLengthsAndCountFirst : Prop :=
  ∀ s : State,
    (s.cfg.inCap < s.inLen.toNat →
      ∃ t, exec .decode s = .next t ∧ t.faultedWith .badLength ∧ s.sameInputSide t) ∧
      (s.inLen.toNat ≤ s.cfg.inCap → s.inLen.toNat < 8 →
        ∃ t, exec .decode s = .next t ∧ t.faultedWith (.malformedContainer .truncFixed) ∧
          s.sameInputSide t) ∧
      (s.inLen.toNat ≤ s.cfg.inCap → 8 ≤ s.inLen.toNat →
        s.inLen.toNat - 8 < 6 * (be32 (s.inRead 4) (s.inRead 5) (s.inRead 6) (s.inRead 7)).toNat →
        ∃ t, exec .decode s = .next t ∧ t.faultedWith (.malformedContainer .truncTable) ∧
          s.sameInputSide t) ∧
      (s.inLen.toNat ≤ s.cfg.inCap → 8 ≤ s.inLen.toNat →
        6 * (be32 (s.inRead 4) (s.inRead 5) (s.inRead 6) (s.inRead 7)).toNat ≤ s.inLen.toNat - 8 →
        256 < (be32 (s.inRead 4) (s.inRead 5) (s.inRead 6) (s.inRead 7)).toNat →
        ∃ t, exec .decode s = .next t ∧ t.faultedWith (.malformedContainer .tooManyEntries) ∧
          s.sameInputSide t)

/-- 43_table_serializer R84 (checks 4 to 6), 60_exceptions R120 (6): the first record that fails a check,
after records that pass, decides the sub-cause, and inside a record BAD_CODELEN comes before DUP_SYMBOL
before DIRTY_PAD; whatever follows the record. -/
def Obligations.FirstBadRecordDecidesTheSubCause : Prop :=
  ∀ (s : State) (osc : Word32) (c : Nat) (before : List (Byte × CodeEntry)) (x len : Byte) (v : Word32)
    (after : List Byte) (cause : SubCause),
    s.inLen.toNat ≤ s.cfg.inCap → c ≤ 256 → before.length < c →
    s.input = bytesBe32 osc ++ bytesBe32 (BitVec.ofNat 32 c) ++
      before.flatMap (fun p => p.1 :: BitVec.ofNat 8 p.2.len.toNat :: bytesBe32 p.2.bits) ++
      x :: len :: bytesBe32 v ++ after →
    8 + 6 * c ≤ s.inLen.toNat →
    (before.map (fun p => p.1)).Nodup →
    (∀ p ∈ before, 1 ≤ p.2.len.toNat ∧ p.2.len.toNat ≤ 32 ∧ bitsBelow p.2.bits p.2.len.toNat = 0) →
    ((cause = .badCodeLen ∧ (len.toNat = 0 ∨ 32 < len.toNat)) ∨
      (cause = .dupSymbol ∧ 1 ≤ len.toNat ∧ len.toNat ≤ 32 ∧ x ∈ before.map (fun p => p.1)) ∨
      (cause = .dirtyPad ∧ 1 ≤ len.toNat ∧ len.toNat ≤ 32 ∧ x ∉ before.map (fun p => p.1) ∧
        bitsBelow v len.toNat ≠ 0)) →
    ∃ t, exec .decode s = .next t ∧ t.faultedWith (.malformedContainer cause) ∧ s.sameInputSide t

/-- 43_table_serializer R84 (check 7), 60_exceptions R120 (7): records that pass their own checks but of
which one code is a prefix of, or equal to, another give NOT_PREFIX_FREE, whatever follows the table. -/
def Obligations.TableThatIsNotPrefixFreeFaults : Prop :=
  ∀ (s : State) (osc : Word32) (records : List (Byte × CodeEntry)) (after : List Byte)
    (p q : Byte × CodeEntry),
    s.inLen.toNat ≤ s.cfg.inCap →
    s.input = bytesBe32 osc ++ bytesBe32 (BitVec.ofNat 32 records.length) ++
      records.flatMap (fun p => p.1 :: BitVec.ofNat 8 p.2.len.toNat :: bytesBe32 p.2.bits) ++ after →
    (records.map (fun p => p.1)).Nodup →
    (∀ p ∈ records, 1 ≤ p.2.len.toNat ∧ p.2.len.toNat ≤ 32 ∧ bitsBelow p.2.bits p.2.len.toNat = 0) →
    p ∈ records → q ∈ records → p.1 ≠ q.1 → p.2.toBits <+: q.2.toBits →
    ∃ t, exec .decode s = .next t ∧ t.faultedWith (.malformedContainer .notPrefixFree) ∧ s.sameInputSide t

/-- 45_codec_commands R107 (d to h), 60_exceptions R120 (8) to (12): after a legal table, the checks of the
fields that follow, in order. -/
def Obligations.DecodeChecksTheFieldsAfterTheTableInOrder : Prop :=
  ∀ (s : State) (osc : Word32) (records : List (Byte × CodeEntry)) (tail : List Byte) (cause : SubCause),
    s.inLen.toNat ≤ s.cfg.inCap → legalRecords records →
    s.input = bytesBe32 osc ++ bytesBe32 (BitVec.ofNat 32 records.length) ++
      records.flatMap (fun p => p.1 :: BitVec.ofNat 8 p.2.len.toNat :: bytesBe32 p.2.bits) ++ tail →
    ((cause = .truncFixed ∧ tail.length < 5) ∨
      ∃ usable p payload, tail = usable :: bytesBe32 p ++ payload ∧
        ((cause = .truncPayload ∧ payload.length < p.toNat) ∨
          (cause = .trailingBytes ∧ p.toNat < payload.length) ∨
          (cause = .badUsable ∧ p.toNat = payload.length ∧ ¬ legalPayload usable payload))) →
    ∃ t, exec .decode s = .next t ∧ t.faultedWith (.malformedContainer cause) ∧ s.sameInputSide t

/-- 45_codec_commands R108: a Container with an empty table that passes the parser decodes to the empty
output, whatever its count and payload. -/
def Obligations.DecodeOfAnEmptyTableIsEmpty : Prop :=
  ∀ (s : State) (osc : Nat) (usable : Byte) (payload : List Byte), s.inLen.toNat ≤ s.cfg.inCap →
    legalPayload usable payload → s.input = containerOf osc [] usable payload →
    ∃ t, exec .decode s = .next t ∧ t.finishedWith [] ∧ s.sameInputSide t

/-- 45_codec_commands R110, 60_exceptions R120 (13): a legal Container with a non-empty table and a count
above OUT_CAP gives OutputOverflow, before any bit is matched. -/
def Obligations.DecodeOfATooLongResultOverflows : Prop :=
  ∀ (s : State) (osc : Nat) (records : List (Byte × CodeEntry)) (usable : Byte) (payload : List Byte),
    s.inLen.toNat ≤ s.cfg.inCap → legalRecords records → records ≠ [] → legalPayload usable payload →
    osc < 2 ^ 32 → s.cfg.outCap < osc → s.input = containerOf osc records usable payload →
    ∃ t, exec .decode s = .next t ∧ t.faultedWith .outputOverflow ∧ s.sameInputSide t

/-- 45_codec_commands R106, R109, R110, 43_table_serializer R84, 30_encoding R54: DECODE of ANY legal
Container, the records in any order, whose bits start with the codes of a list of its symbols, completes
with that list; the bits after it, padding or more, are ignored. -/
def Obligations.DecodeCompletesOnEveryLegalContainer : Prop :=
  ∀ (s : State) (records chosen : List (Byte × CodeEntry)) (extra : Bits) (usable : Byte)
    (payload : List Byte), s.cfg.wf = true →
    s.inLen.toNat ≤ s.cfg.inCap → legalRecords records → records ≠ [] → legalPayload usable payload →
    (∀ p ∈ chosen, p ∈ records) → chosen.length < 2 ^ 32 → chosen.length ≤ s.cfg.outCap →
    unpack payload usable = spelled chosen ++ extra →
    s.input = containerOf chosen.length records usable payload →
    ∃ t, exec .decode s = .next t ∧ t.finishedWith (chosen.map (fun p => p.1)) ∧ s.sameInputSide t

/-- 45_codec_commands R109, 60_exceptions R120 (14): the two faults of the matcher. When the bits spell
fewer symbols than the count and what is left starts a code but is none, or nothing is left, the fault is
OUT_OF_BITS; when a bit makes the prefix start no code, it is NO_CODE, whatever bits follow. -/
def Obligations.MatcherFaultsAsStated : Prop :=
  ∀ (s : State) (records chosen : List (Byte × CodeEntry)) (count : Nat) (left : Bits) (usable : Byte)
    (payload : List Byte),
    s.inLen.toNat ≤ s.cfg.inCap → legalRecords records → records ≠ [] → legalPayload usable payload →
    (∀ p ∈ chosen, p ∈ records) → chosen.length < count → count < 2 ^ 32 → count ≤ s.cfg.outCap →
    s.input = containerOf count records usable payload →
    (∃ p ∈ records, left <+: p.2.toBits ∧ left.length < p.2.len.toNat) →
    (unpack payload usable = spelled chosen ++ left →
      ∃ t, exec .decode s = .next t ∧ t.faultedWith (.malformedContainer .outOfBits) ∧
        s.sameInputSide t) ∧
      (∀ b more, unpack payload usable = spelled chosen ++ left ++ b :: more →
        (∀ p ∈ records, ¬ (left ++ [b]) <+: p.2.toBits) →
        ∃ t, exec .decode s = .next t ∧ t.faultedWith (.malformedContainer .noCode) ∧ s.sameInputSide t)

/-- 45_codec_commands R108, R110: a DECODE that finishes without a fault has an empty result when
codeTableEntryCount (IN[4..8)) is 0, and otherwise exactly originalSymbolCount (IN[0..4)) bytes, which then
fit OUT. -/
def Obligations.DecodeResultHasTheCountedLength : Prop :=
  ∀ s t : State, exec .decode s = .next t → t.status = 0x02#8 → s.cfg.wf = true →
    (be32 (s.inRead 4) (s.inRead 5) (s.inRead 6) (s.inRead 7) = 0#32 → t.outLen = 0#64) ∧
      (be32 (s.inRead 4) (s.inRead 5) (s.inRead 6) (s.inRead 7) ≠ 0#32 →
        t.outLen.toNat = (be32 (s.inRead 0) (s.inRead 1) (s.inRead 2) (s.inRead 3)).toNat ∧
          t.outLen.toNat ≤ s.cfg.outCap)

/-! ### Round trip -/

/-- 45_codec_commands R113: if ENCODE of an input completes with result C, and C is then the input of a
block in which it fits and whose OUT holds the original length, DECODE completes with the original bytes.
The spec marks this as its own inference: R113, derived from R102, R106, R86 and R96. -/
def Obligations.DecodeInvertsEncode : Prop :=
  ∀ (s t u : State) (container : List Byte), s.cfg.wf = true → u.cfg.wf = true →
    exec .encode s = .next t → t.finishedWith container →
    u.input = container → u.inLen.toNat ≤ u.cfg.inCap → s.inLen.toNat ≤ u.cfg.outCap →
    ∃ v, exec .decode u = .next v ∧ v.finishedWith s.input ∧ u.sameInputSide v
end

