-- ==== Sys2Proof/Laws/State.lean ====
section
/-! SUPPORT. One lemma for each field and each update of the state; all true by unfolding. -/

namespace Sys2Proof.Machine

@[simp] theorem State.dropOut_cfg (s : State) :
    s.dropOut.cfg = s.cfg := rfl
@[simp] theorem State.dropOut_cmd (s : State) :
    s.dropOut.cmd = s.cmd := rfl
@[simp] theorem State.dropOut_status (s : State) :
    s.dropOut.status = s.status := rfl
@[simp] theorem State.dropOut_errcode (s : State) :
    s.dropOut.errcode = s.errcode := rfl
@[simp] theorem State.dropOut_errinfo (s : State) :
    s.dropOut.errinfo = s.errinfo := rfl
@[simp] theorem State.dropOut_inLen (s : State) :
    s.dropOut.inLen = s.inLen := rfl
@[simp] theorem State.dropOut_outLen (s : State) :
    s.dropOut.outLen = s.outLen := rfl
@[simp] theorem State.dropOut_inBuf (s : State) :
    s.dropOut.inBuf = s.inBuf := rfl
@[simp] theorem State.dropOut_outBuf (s : State) :
    s.dropOut.outBuf = [] := rfl
@[simp] theorem State.dropOut_work (s : State) :
    s.dropOut.work = s.work := rfl
@[simp] theorem State.dropOut_script (s : State) :
    s.dropOut.script = s.script := rfl
@[simp] theorem State.dropOut_replies (s : State) :
    s.dropOut.replies = s.replies := rfl
@[simp] theorem State.dropOut_inEpoch (s : State) :
    s.dropOut.inEpoch = s.inEpoch := rfl
@[simp] theorem State.dropOut_outEpoch (s : State) :
    s.dropOut.outEpoch = s.outEpoch + 1 := rfl
@[simp] theorem State.dropOut_busy (s : State) :
    s.dropOut.busy = s.busy := rfl
@[simp] theorem State.dropOut_done (s : State) :
    s.dropOut.done = s.done := rfl
@[simp] theorem State.dropOut_err (s : State) :
    s.dropOut.err = s.err := rfl

@[simp] theorem State.dropWork_cfg (s : State) :
    s.dropWork.cfg = s.cfg := rfl
@[simp] theorem State.dropWork_cmd (s : State) :
    s.dropWork.cmd = s.cmd := rfl
@[simp] theorem State.dropWork_status (s : State) :
    s.dropWork.status = s.status := rfl
@[simp] theorem State.dropWork_errcode (s : State) :
    s.dropWork.errcode = s.errcode := rfl
@[simp] theorem State.dropWork_errinfo (s : State) :
    s.dropWork.errinfo = s.errinfo := rfl
@[simp] theorem State.dropWork_inLen (s : State) :
    s.dropWork.inLen = s.inLen := rfl
@[simp] theorem State.dropWork_outLen (s : State) :
    s.dropWork.outLen = s.outLen := rfl
@[simp] theorem State.dropWork_inBuf (s : State) :
    s.dropWork.inBuf = s.inBuf := rfl
@[simp] theorem State.dropWork_outBuf (s : State) :
    s.dropWork.outBuf = s.outBuf := rfl
@[simp] theorem State.dropWork_work (s : State) :
    s.dropWork.work = Config.freeWorking s.outEpoch := rfl
@[simp] theorem State.dropWork_script (s : State) :
    s.dropWork.script = s.script := rfl
@[simp] theorem State.dropWork_replies (s : State) :
    s.dropWork.replies = s.replies := rfl
@[simp] theorem State.dropWork_inEpoch (s : State) :
    s.dropWork.inEpoch = s.inEpoch := rfl
@[simp] theorem State.dropWork_outEpoch (s : State) :
    s.dropWork.outEpoch = s.outEpoch := rfl
@[simp] theorem State.dropWork_busy (s : State) :
    s.dropWork.busy = s.busy := rfl
@[simp] theorem State.dropWork_done (s : State) :
    s.dropWork.done = s.done := rfl
@[simp] theorem State.dropWork_err (s : State) :
    s.dropWork.err = s.err := rfl

@[simp] theorem State.latchCommand_cfg (c : BitVec 8) (s : State) :
    (s.latchCommand c).cfg = s.cfg := rfl
@[simp] theorem State.latchCommand_cmd (c : BitVec 8) (s : State) :
    (s.latchCommand c).cmd = c := rfl
@[simp] theorem State.latchCommand_status (c : BitVec 8) (s : State) :
    (s.latchCommand c).status = statusBusy := rfl
@[simp] theorem State.latchCommand_errcode (c : BitVec 8) (s : State) :
    (s.latchCommand c).errcode = 0#8 := rfl
@[simp] theorem State.latchCommand_errinfo (c : BitVec 8) (s : State) :
    (s.latchCommand c).errinfo = 0#8 := rfl
@[simp] theorem State.latchCommand_inLen (c : BitVec 8) (s : State) :
    (s.latchCommand c).inLen = s.inLen := rfl
@[simp] theorem State.latchCommand_outLen (c : BitVec 8) (s : State) :
    (s.latchCommand c).outLen = 0#64 := rfl
@[simp] theorem State.latchCommand_inBuf (c : BitVec 8) (s : State) :
    (s.latchCommand c).inBuf = s.inBuf := rfl
@[simp] theorem State.latchCommand_outBuf (c : BitVec 8) (s : State) :
    (s.latchCommand c).outBuf = [] := rfl
@[simp] theorem State.latchCommand_work (c : BitVec 8) (s : State) :
    (s.latchCommand c).work = s.work := rfl
@[simp] theorem State.latchCommand_script (c : BitVec 8) (s : State) :
    (s.latchCommand c).script = s.script := rfl
@[simp] theorem State.latchCommand_replies (c : BitVec 8) (s : State) :
    (s.latchCommand c).replies = s.replies := rfl
@[simp] theorem State.latchCommand_inEpoch (c : BitVec 8) (s : State) :
    (s.latchCommand c).inEpoch = s.inEpoch := rfl
@[simp] theorem State.latchCommand_outEpoch (c : BitVec 8) (s : State) :
    (s.latchCommand c).outEpoch = s.outEpoch + 1 := rfl

@[simp] theorem State.complete_cfg (b : List Byte) (s : State) :
    (s.complete b).cfg = s.cfg := rfl
@[simp] theorem State.complete_cmd (b : List Byte) (s : State) :
    (s.complete b).cmd = s.cmd := rfl
@[simp] theorem State.complete_status (b : List Byte) (s : State) :
    (s.complete b).status = statusDone := rfl
@[simp] theorem State.complete_errcode (b : List Byte) (s : State) :
    (s.complete b).errcode = 0#8 := rfl
@[simp] theorem State.complete_errinfo (b : List Byte) (s : State) :
    (s.complete b).errinfo = 0#8 := rfl
@[simp] theorem State.complete_inLen (b : List Byte) (s : State) :
    (s.complete b).inLen = s.inLen := rfl
@[simp] theorem State.complete_outLen (b : List Byte) (s : State) :
    (s.complete b).outLen = BitVec.ofNat 64 b.length := rfl
@[simp] theorem State.complete_inBuf (b : List Byte) (s : State) :
    (s.complete b).inBuf = s.inBuf := rfl
@[simp] theorem State.complete_outBuf (b : List Byte) (s : State) :
    (s.complete b).outBuf = Memory.ofBytes 0 b := rfl
@[simp] theorem State.complete_work (b : List Byte) (s : State) :
    (s.complete b).work = Config.freeWorking (s.outEpoch + 1) := rfl
@[simp] theorem State.complete_script (b : List Byte) (s : State) :
    (s.complete b).script = s.script := rfl
@[simp] theorem State.complete_replies (b : List Byte) (s : State) :
    (s.complete b).replies = s.replies := rfl
@[simp] theorem State.complete_inEpoch (b : List Byte) (s : State) :
    (s.complete b).inEpoch = s.inEpoch := rfl
@[simp] theorem State.complete_outEpoch (b : List Byte) (s : State) :
    (s.complete b).outEpoch = s.outEpoch + 1 := rfl

@[simp] theorem State.raiseFault_cfg (r : FaultReport) (s : State) :
    (s.raiseFault r).cfg = s.cfg := rfl
@[simp] theorem State.raiseFault_cmd (r : FaultReport) (s : State) :
    (s.raiseFault r).cmd = s.cmd := rfl
@[simp] theorem State.raiseFault_status (r : FaultReport) (s : State) :
    (s.raiseFault r).status = statusFaulted := rfl
@[simp] theorem State.raiseFault_errcode (r : FaultReport) (s : State) :
    (s.raiseFault r).errcode = r.errcode := rfl
@[simp] theorem State.raiseFault_errinfo (r : FaultReport) (s : State) :
    (s.raiseFault r).errinfo = r.errinfo := rfl
@[simp] theorem State.raiseFault_inLen (r : FaultReport) (s : State) :
    (s.raiseFault r).inLen = s.inLen := rfl
@[simp] theorem State.raiseFault_outLen (r : FaultReport) (s : State) :
    (s.raiseFault r).outLen = 0#64 := rfl
@[simp] theorem State.raiseFault_inBuf (r : FaultReport) (s : State) :
    (s.raiseFault r).inBuf = s.inBuf := rfl
@[simp] theorem State.raiseFault_outBuf (r : FaultReport) (s : State) :
    (s.raiseFault r).outBuf = [] := rfl
@[simp] theorem State.raiseFault_work (r : FaultReport) (s : State) :
    (s.raiseFault r).work = Config.freeWorking (s.outEpoch + 1) := rfl
@[simp] theorem State.raiseFault_script (r : FaultReport) (s : State) :
    (s.raiseFault r).script = s.script := rfl
@[simp] theorem State.raiseFault_replies (r : FaultReport) (s : State) :
    (s.raiseFault r).replies = s.replies := rfl
@[simp] theorem State.raiseFault_inEpoch (r : FaultReport) (s : State) :
    (s.raiseFault r).inEpoch = s.inEpoch := rfl
@[simp] theorem State.raiseFault_outEpoch (r : FaultReport) (s : State) :
    (s.raiseFault r).outEpoch = s.outEpoch + 1 := rfl

@[simp] theorem State.resetEvent_cfg (s : State) :
    s.resetEvent.cfg = s.cfg := rfl
@[simp] theorem State.resetEvent_cmd (s : State) :
    s.resetEvent.cmd = 0#8 := rfl
@[simp] theorem State.resetEvent_status (s : State) :
    s.resetEvent.status = 0#8 := rfl
@[simp] theorem State.resetEvent_errcode (s : State) :
    s.resetEvent.errcode = 0#8 := rfl
@[simp] theorem State.resetEvent_errinfo (s : State) :
    s.resetEvent.errinfo = 0#8 := rfl
@[simp] theorem State.resetEvent_inLen (s : State) :
    s.resetEvent.inLen = 0#64 := rfl
@[simp] theorem State.resetEvent_outLen (s : State) :
    s.resetEvent.outLen = 0#64 := rfl
@[simp] theorem State.resetEvent_inBuf (s : State) :
    s.resetEvent.inBuf = [] := rfl
@[simp] theorem State.resetEvent_outBuf (s : State) :
    s.resetEvent.outBuf = [] := rfl
@[simp] theorem State.resetEvent_work (s : State) :
    s.resetEvent.work = Config.freeWorking (s.outEpoch + 1) := rfl
@[simp] theorem State.resetEvent_script (s : State) :
    s.resetEvent.script = s.script := rfl
@[simp] theorem State.resetEvent_replies (s : State) :
    s.resetEvent.replies = s.replies := rfl
@[simp] theorem State.resetEvent_inEpoch (s : State) :
    s.resetEvent.inEpoch = s.inEpoch + 1 := rfl
@[simp] theorem State.resetEvent_outEpoch (s : State) :
    s.resetEvent.outEpoch = s.outEpoch + 1 := rfl

@[simp] theorem State.setScript_cfg (r : List HostAction) (s : State) :
    (s.setScript r).cfg = s.cfg := rfl
@[simp] theorem State.setScript_cmd (r : List HostAction) (s : State) :
    (s.setScript r).cmd = s.cmd := rfl
@[simp] theorem State.setScript_status (r : List HostAction) (s : State) :
    (s.setScript r).status = s.status := rfl
@[simp] theorem State.setScript_errcode (r : List HostAction) (s : State) :
    (s.setScript r).errcode = s.errcode := rfl
@[simp] theorem State.setScript_errinfo (r : List HostAction) (s : State) :
    (s.setScript r).errinfo = s.errinfo := rfl
@[simp] theorem State.setScript_inLen (r : List HostAction) (s : State) :
    (s.setScript r).inLen = s.inLen := rfl
@[simp] theorem State.setScript_outLen (r : List HostAction) (s : State) :
    (s.setScript r).outLen = s.outLen := rfl
@[simp] theorem State.setScript_inBuf (r : List HostAction) (s : State) :
    (s.setScript r).inBuf = s.inBuf := rfl
@[simp] theorem State.setScript_outBuf (r : List HostAction) (s : State) :
    (s.setScript r).outBuf = s.outBuf := rfl
@[simp] theorem State.setScript_work (r : List HostAction) (s : State) :
    (s.setScript r).work = s.work := rfl
@[simp] theorem State.setScript_script (r : List HostAction) (s : State) :
    (s.setScript r).script = r := rfl
@[simp] theorem State.setScript_replies (r : List HostAction) (s : State) :
    (s.setScript r).replies = s.replies := rfl
@[simp] theorem State.setScript_inEpoch (r : List HostAction) (s : State) :
    (s.setScript r).inEpoch = s.inEpoch := rfl
@[simp] theorem State.setScript_outEpoch (r : List HostAction) (s : State) :
    (s.setScript r).outEpoch = s.outEpoch := rfl
@[simp] theorem State.setScript_busy (r : List HostAction) (s : State) :
    (s.setScript r).busy = s.busy := rfl
@[simp] theorem State.setScript_done (r : List HostAction) (s : State) :
    (s.setScript r).done = s.done := rfl
@[simp] theorem State.setScript_err (r : List HostAction) (s : State) :
    (s.setScript r).err = s.err := rfl
@[simp] theorem State.setScript_readReg (r : List HostAction) (s : State) (x : HostReg) :
    (s.setScript r).readReg x = s.readReg x := by cases x <;> rfl
@[simp] theorem State.setScript_inRead (r : List HostAction) (s : State) (x : Nat) :
    (s.setScript r).inRead x = s.inRead x := rfl
@[simp] theorem State.setScript_outRead (r : List HostAction) (s : State) (x : Nat) :
    (s.setScript r).outRead x = s.outRead x := rfl
@[simp] theorem State.setScript_outDefined (r : List HostAction) (s : State) (x : Nat) :
    (s.setScript r).outDefined x = s.outDefined x := rfl

@[simp] theorem State.setInLen_cfg (v : Word64) (s : State) :
    (s.setInLen v).cfg = s.cfg := rfl
@[simp] theorem State.setInLen_cmd (v : Word64) (s : State) :
    (s.setInLen v).cmd = s.cmd := rfl
@[simp] theorem State.setInLen_status (v : Word64) (s : State) :
    (s.setInLen v).status = s.status := rfl
@[simp] theorem State.setInLen_errcode (v : Word64) (s : State) :
    (s.setInLen v).errcode = s.errcode := rfl
@[simp] theorem State.setInLen_errinfo (v : Word64) (s : State) :
    (s.setInLen v).errinfo = s.errinfo := rfl
@[simp] theorem State.setInLen_inLen (v : Word64) (s : State) :
    (s.setInLen v).inLen = v := rfl
@[simp] theorem State.setInLen_outLen (v : Word64) (s : State) :
    (s.setInLen v).outLen = s.outLen := rfl
@[simp] theorem State.setInLen_inBuf (v : Word64) (s : State) :
    (s.setInLen v).inBuf = s.inBuf := rfl
@[simp] theorem State.setInLen_outBuf (v : Word64) (s : State) :
    (s.setInLen v).outBuf = s.outBuf := rfl
@[simp] theorem State.setInLen_work (v : Word64) (s : State) :
    (s.setInLen v).work = s.work := rfl
@[simp] theorem State.setInLen_script (v : Word64) (s : State) :
    (s.setInLen v).script = s.script := rfl
@[simp] theorem State.setInLen_replies (v : Word64) (s : State) :
    (s.setInLen v).replies = s.replies := rfl
@[simp] theorem State.setInLen_inEpoch (v : Word64) (s : State) :
    (s.setInLen v).inEpoch = s.inEpoch := rfl
@[simp] theorem State.setInLen_outEpoch (v : Word64) (s : State) :
    (s.setInLen v).outEpoch = s.outEpoch := rfl
@[simp] theorem State.setInLen_busy (v : Word64) (s : State) :
    (s.setInLen v).busy = s.busy := rfl
@[simp] theorem State.setInLen_done (v : Word64) (s : State) :
    (s.setInLen v).done = s.done := rfl
@[simp] theorem State.setInLen_err (v : Word64) (s : State) :
    (s.setInLen v).err = s.err := rfl
@[simp] theorem State.setInLen_inRead (v : Word64) (s : State) (x : Nat) :
    (s.setInLen v).inRead x = s.inRead x := rfl
@[simp] theorem State.setInLen_outRead (v : Word64) (s : State) (x : Nat) :
    (s.setInLen v).outRead x = s.outRead x := rfl
@[simp] theorem State.setInLen_outDefined (v : Word64) (s : State) (x : Nat) :
    (s.setInLen v).outDefined x = s.outDefined x := rfl

@[simp] theorem State.writeIn_cfg (a : Nat) (b : Byte) (s : State) :
    (s.writeIn a b).cfg = s.cfg := rfl
@[simp] theorem State.writeIn_cmd (a : Nat) (b : Byte) (s : State) :
    (s.writeIn a b).cmd = s.cmd := rfl
@[simp] theorem State.writeIn_status (a : Nat) (b : Byte) (s : State) :
    (s.writeIn a b).status = s.status := rfl
@[simp] theorem State.writeIn_errcode (a : Nat) (b : Byte) (s : State) :
    (s.writeIn a b).errcode = s.errcode := rfl
@[simp] theorem State.writeIn_errinfo (a : Nat) (b : Byte) (s : State) :
    (s.writeIn a b).errinfo = s.errinfo := rfl
@[simp] theorem State.writeIn_inLen (a : Nat) (b : Byte) (s : State) :
    (s.writeIn a b).inLen = s.inLen := rfl
@[simp] theorem State.writeIn_outLen (a : Nat) (b : Byte) (s : State) :
    (s.writeIn a b).outLen = s.outLen := rfl
@[simp] theorem State.writeIn_inBuf (a : Nat) (b : Byte) (s : State) :
    (s.writeIn a b).inBuf = s.inBuf.write a b := rfl
@[simp] theorem State.writeIn_outBuf (a : Nat) (b : Byte) (s : State) :
    (s.writeIn a b).outBuf = s.outBuf := rfl
@[simp] theorem State.writeIn_work (a : Nat) (b : Byte) (s : State) :
    (s.writeIn a b).work = s.work := rfl
@[simp] theorem State.writeIn_script (a : Nat) (b : Byte) (s : State) :
    (s.writeIn a b).script = s.script := rfl
@[simp] theorem State.writeIn_replies (a : Nat) (b : Byte) (s : State) :
    (s.writeIn a b).replies = s.replies := rfl
@[simp] theorem State.writeIn_inEpoch (a : Nat) (b : Byte) (s : State) :
    (s.writeIn a b).inEpoch = s.inEpoch := rfl
@[simp] theorem State.writeIn_outEpoch (a : Nat) (b : Byte) (s : State) :
    (s.writeIn a b).outEpoch = s.outEpoch := rfl
@[simp] theorem State.writeIn_busy (a : Nat) (b : Byte) (s : State) :
    (s.writeIn a b).busy = s.busy := rfl
@[simp] theorem State.writeIn_done (a : Nat) (b : Byte) (s : State) :
    (s.writeIn a b).done = s.done := rfl
@[simp] theorem State.writeIn_err (a : Nat) (b : Byte) (s : State) :
    (s.writeIn a b).err = s.err := rfl
@[simp] theorem State.writeIn_readReg (a : Nat) (b : Byte) (s : State) (x : HostReg) :
    (s.writeIn a b).readReg x = s.readReg x := by cases x <;> rfl
@[simp] theorem State.writeIn_outRead (a : Nat) (b : Byte) (s : State) (x : Nat) :
    (s.writeIn a b).outRead x = s.outRead x := rfl
@[simp] theorem State.writeIn_outDefined (a : Nat) (b : Byte) (s : State) (x : Nat) :
    (s.writeIn a b).outDefined x = s.outDefined x := rfl

@[simp] theorem State.reply_cfg (r : Reply) (s : State) :
    (s.reply r).cfg = s.cfg := rfl
@[simp] theorem State.reply_cmd (r : Reply) (s : State) :
    (s.reply r).cmd = s.cmd := rfl
@[simp] theorem State.reply_status (r : Reply) (s : State) :
    (s.reply r).status = s.status := rfl
@[simp] theorem State.reply_errcode (r : Reply) (s : State) :
    (s.reply r).errcode = s.errcode := rfl
@[simp] theorem State.reply_errinfo (r : Reply) (s : State) :
    (s.reply r).errinfo = s.errinfo := rfl
@[simp] theorem State.reply_inLen (r : Reply) (s : State) :
    (s.reply r).inLen = s.inLen := rfl
@[simp] theorem State.reply_outLen (r : Reply) (s : State) :
    (s.reply r).outLen = s.outLen := rfl
@[simp] theorem State.reply_inBuf (r : Reply) (s : State) :
    (s.reply r).inBuf = s.inBuf := rfl
@[simp] theorem State.reply_outBuf (r : Reply) (s : State) :
    (s.reply r).outBuf = s.outBuf := rfl
@[simp] theorem State.reply_work (r : Reply) (s : State) :
    (s.reply r).work = s.work := rfl
@[simp] theorem State.reply_script (r : Reply) (s : State) :
    (s.reply r).script = s.script := rfl
@[simp] theorem State.reply_replies (r : Reply) (s : State) :
    (s.reply r).replies = s.replies ++ [r] := rfl
@[simp] theorem State.reply_inEpoch (r : Reply) (s : State) :
    (s.reply r).inEpoch = s.inEpoch := rfl
@[simp] theorem State.reply_outEpoch (r : Reply) (s : State) :
    (s.reply r).outEpoch = s.outEpoch := rfl
@[simp] theorem State.reply_busy (r : Reply) (s : State) :
    (s.reply r).busy = s.busy := rfl
@[simp] theorem State.reply_done (r : Reply) (s : State) :
    (s.reply r).done = s.done := rfl
@[simp] theorem State.reply_err (r : Reply) (s : State) :
    (s.reply r).err = s.err := rfl
@[simp] theorem State.reply_readReg (r : Reply) (s : State) (x : HostReg) :
    (s.reply r).readReg x = s.readReg x := by cases x <;> rfl
@[simp] theorem State.reply_inRead (r : Reply) (s : State) (x : Nat) :
    (s.reply r).inRead x = s.inRead x := rfl
@[simp] theorem State.reply_outRead (r : Reply) (s : State) (x : Nat) :
    (s.reply r).outRead x = s.outRead x := rfl
@[simp] theorem State.reply_outDefined (r : Reply) (s : State) (x : Nat) :
    (s.reply r).outDefined x = s.outDefined x := rfl

end Sys2Proof.Machine
end

