-- ==== Sys2Proof/Laws/Memory.lean ====
section
/-! SUPPORT. The laws of a buffer: a read after a write, the canonical form, and the bytes a result lists. -/

namespace Sys2Proof.Machine

theorem Memory.read_write_same (m : Memory) (x : Nat) (v : Byte) : (m.write x v).read x = some v := by
  induction m with
  | nil => simp [Memory.write, Memory.read]
  | cons c rest ih =>
    obtain ⟨a, b⟩ := c
    simp only [Memory.write]
    split
    · simp [Memory.read]
    · split
      · simp [Memory.read]
      · rename_i h1 h2
        simp only [Memory.read, if_neg (fun h => h2 (Eq.symm h))]
        exact ih

theorem Memory.read_write_other (m : Memory) {x y : Nat} (v : Byte) (h : y ≠ x) :
    (m.write x v).read y = m.read y := by
  induction m with
  | nil => simp [Memory.write, Memory.read, h.symm]
  | cons c rest ih =>
    obtain ⟨a, b⟩ := c
    simp only [Memory.write]
    split
    · simp [Memory.read, h.symm]
    · split
      · rename_i h1 h2
        subst h2
        simp [Memory.read, h.symm]
      · simp only [Memory.read, ih]

theorem Memory.mem_write {m : Memory} {x : Nat} {v : Byte} {c : Host.Cell} (h : c ∈ m.write x v) :
    c = (x, v) ∨ c ∈ m := by
  induction m with
  | nil => simpa [Memory.write] using h
  | cons d rest ih =>
    obtain ⟨a, b⟩ := d
    simp only [Memory.write] at h
    split at h
    · simpa using h
    · split at h
      · rcases List.mem_cons.mp h with h | h
        · exact .inl h
        · exact .inr (List.mem_cons_of_mem _ h)
      · rcases List.mem_cons.mp h with h | h
        · exact .inr (h ▸ List.mem_cons_self)
        · exact (ih h).imp_right (List.mem_cons_of_mem _)

/-- Writing a byte keeps the canonical form. -/
theorem Memory.write_wf {m : Memory} (h : m.wf) (x : Nat) (v : Byte) : (m.write x v).wf := by
  induction m with
  | nil => simp [Memory.write, Memory.wf]
  | cons c rest ih =>
    obtain ⟨a, b⟩ := c
    have hr := List.pairwise_cons.mp h
    simp only [Memory.write]
    split
    · rename_i h1
      refine List.pairwise_cons.mpr ⟨fun d hd => ?_, h⟩
      rcases List.mem_cons.mp hd with rfl | hd
      · exact h1
      · exact Nat.lt_trans h1 (hr.1 d hd)
    · split
      · rename_i h1 h2
        subst h2
        exact List.pairwise_cons.mpr ⟨fun d hd => hr.1 d hd, hr.2⟩
      · rename_i h1 h2
        refine List.pairwise_cons.mpr ⟨fun d hd => ?_, ih hr.2⟩
        rcases Memory.mem_write hd with rfl | hd
        · simp only; omega
        · exact hr.1 d hd

theorem Memory.ofBytes_offsets (a : Nat) (bs : List Byte) :
    (Memory.ofBytes a bs).map (fun c => c.1) = List.range' a bs.length := by
  induction bs generalizing a with
  | nil => rfl
  | cons b rest ih => simp [Memory.ofBytes, ih, List.range'_succ]

theorem Memory.le_of_mem_ofBytes {a : Nat} {bs : List Byte} {c : Host.Cell}
    (h : c ∈ Memory.ofBytes a bs) : a ≤ c.1 := by
  have : c.1 ∈ (Memory.ofBytes a bs).map (fun c => c.1) := List.mem_map_of_mem h
  rw [Memory.ofBytes_offsets] at this
  exact (List.mem_range'_1.mp this).1

/-- A result in a buffer is in canonical form. -/
theorem Memory.ofBytes_wf (a : Nat) (bs : List Byte) : (Memory.ofBytes a bs).wf := by
  induction bs generalizing a with
  | nil => exact List.Pairwise.nil
  | cons b rest ih =>
    refine List.pairwise_cons.mpr ⟨fun c hc => ?_, ih (a + 1)⟩
    have := Memory.le_of_mem_ofBytes hc
    exact this

theorem Memory.read_ofBytes (a : Nat) (bs : List Byte) (x : Nat) :
    (Memory.ofBytes a bs).read x = if x < a then none else bs[x - a]? := by
  induction bs generalizing a with
  | nil => simp [Memory.ofBytes, Memory.read]
  | cons b rest ih =>
    simp only [Memory.ofBytes, Memory.read, ih (a + 1)]
    rcases Nat.lt_trichotomy x a with h | h | h
    · simp [h, Nat.ne_of_gt h, Nat.lt_succ_of_lt h]
    · subst h; simp
    · have e : x - a = (x - (a + 1)) + 1 := by omega
      simp [Nat.ne_of_lt h, Nat.not_lt_of_lt h, show ¬ x < a + 1 by omega, e]

/-- Writing the bytes one after the other at ascending offsets lists the same bytes (20_memory R32). -/
theorem Memory.ofBytes_eq_writes (a : Nat) (m : Memory) (bs : List Byte) (h : ∀ c ∈ m, c.1 < a) :
    m ++ Memory.ofBytes a bs =
      ((bs.zipIdx a).foldl (fun n p => n.write p.2 p.1) m) := by
  induction bs generalizing a m with
  | nil => simp [Memory.ofBytes]
  | cons b rest ih =>
    have hw : ∀ n : Memory, (∀ c ∈ n, c.1 < a) → n.write a b = n ++ [(a, b)] := by
      intro n
      induction n with
      | nil => intro; rfl
      | cons c n ihn =>
        intro hn
        have hc := hn c List.mem_cons_self
        simp only [Memory.write]
        rw [if_neg (by omega), if_neg (by omega), ihn (fun d hd => hn d (List.mem_cons_of_mem _ hd))]
        rfl
    have := ih (a + 1) (m ++ [(a, b)]) (by
      intro c hc
      rcases List.mem_append.mp hc with hc | hc
      · exact Nat.lt_succ_of_lt (h c hc)
      · simp at hc; subst hc; simp)
    simpa [Memory.ofBytes, hw m h] using this

end Sys2Proof.Machine
end

