-- ==== Sys2Proof/Laws/Tables.lean ====
section
/-! SUPPORT. Symbol tables, big-endian fields and the parts of a 32-bit value. -/

namespace Sys2Proof.Machine

@[simp] theorem SymbolTable.at_put_same {α : Type} (t : SymbolTable α) (s : Byte) (x : α) :
    SymbolTable.at (SymbolTable.put t s x) s = x := by
  simp [SymbolTable.at, SymbolTable.put]

theorem SymbolTable.at_put_other {α : Type} (t : SymbolTable α) {s u : Byte} (x : α) (h : u ≠ s) :
    SymbolTable.at (SymbolTable.put t s x) u = SymbolTable.at t u := by
  have : s.toNat ≠ u.toNat := fun e => h (BitVec.eq_of_toNat_eq e.symm)
  simp [SymbolTable.at, SymbolTable.put, this]

theorem SymbolTable.at_put {α : Type} (t : SymbolTable α) (s u : Byte) (x : α) :
    SymbolTable.at (SymbolTable.put t s x) u = if u = s then x else SymbolTable.at t u := by
  split
  · rename_i h; rw [h, SymbolTable.at_put_same]
  · rename_i h; exact SymbolTable.at_put_other t x h

@[simp] theorem SymbolTable.at_replicate {α : Type} (x : α) (s : Byte) :
    SymbolTable.at (Vector.replicate 256 x) s = x := by
  simp [SymbolTable.at]

/-- Two symbol tables with the same entries are the same table. -/
theorem SymbolTable.ext_at {α : Type} {t u : SymbolTable α}
    (h : ∀ s : Byte, SymbolTable.at t s = SymbolTable.at u s) : t = u := by
  refine Vector.ext fun i hi => ?_
  have := h (BitVec.ofNat 8 i)
  simpa [SymbolTable.at, Nat.mod_eq_of_lt hi] using this

theorem symbols_length : symbols.length = 256 := by simp [symbols]

theorem symbols_getElem (i : Nat) (h : i < symbols.length) : symbols[i] = BitVec.ofNat 8 i := by
  simp [symbols]

theorem mem_symbols (s : Byte) : s ∈ symbols :=
  List.mem_map.mpr ⟨s.toNat, List.mem_range.mpr s.isLt, by simp⟩

/-- The symbols are listed in strictly ascending order. -/
theorem symbols_sorted : symbols.Pairwise (fun s u => s.toNat < u.toNat) := by
  refine List.pairwise_map.mpr ?_
  refine List.Pairwise.imp_of_mem ?_ (List.pairwise_lt_range (n := 256))
  intro a b ha hb hab
  have ha := List.mem_range.mp ha
  have hb := List.mem_range.mp hb
  simpa [Nat.mod_eq_of_lt ha, Nat.mod_eq_of_lt hb] using hab

theorem symbols_nodup : symbols.Nodup :=
  symbols_sorted.imp (fun h e => by subst e; exact Nat.lt_irrefl _ h)

theorem SymbolTable.pairs_eq_map {α : Type} (t : SymbolTable α) :
    SymbolTable.pairs t = symbols.map (fun s => (s, SymbolTable.at t s)) := by
  refine List.ext_getElem (by simp [SymbolTable.pairs, symbols_length]) fun i h₁ h₂ => ?_
  have hi : i < 256 := by simpa [symbols_length] using h₂
  simp [SymbolTable.pairs, symbols_getElem, SymbolTable.at, Nat.mod_eq_of_lt hi]

theorem SymbolTable.mem_pairs {α : Type} (t : SymbolTable α) (s : Byte) (x : α) :
    (s, x) ∈ SymbolTable.pairs t ↔ x = SymbolTable.at t s := by
  rw [SymbolTable.pairs_eq_map, List.mem_map]
  constructor
  · rintro ⟨u, -, h⟩
    cases h; rfl
  · rintro rfl
    exact ⟨s, mem_symbols s, rfl⟩

theorem CodeTable.mem_entries (t : CodeTable) (s : Byte) (e : CodeEntry) :
    (s, e) ∈ CodeTable.entries t ↔ e = SymbolTable.at t s ∧ e.present = true := by
  simp [CodeTable.entries, SymbolTable.mem_pairs]

/-- The entries as a filter over the symbols, for counting and for walking them in order. -/
theorem CodeTable.entries_eq_map (t : CodeTable) :
    CodeTable.entries t =
      (symbols.filter (fun s => (SymbolTable.at t s).present)).map (fun s => (s, SymbolTable.at t s)) := by
  rw [CodeTable.entries, SymbolTable.pairs_eq_map, List.filter_map]
  rfl

theorem CodeTable.entries_length_le (t : CodeTable) : (CodeTable.entries t).length ≤ 256 := by
  rw [CodeTable.entries_eq_map, List.length_map]
  exact (List.length_filter_le _ _).trans_eq symbols_length

theorem FreqTable.present_eq_map (f : FreqTable) :
    FreqTable.present f =
      (symbols.filter (fun s => SymbolTable.at f s != 0#32)).map (fun s => (s, SymbolTable.at f s)) := by
  rw [FreqTable.present, SymbolTable.pairs_eq_map, List.filter_map]
  rfl

theorem FreqTable.mem_present (f : FreqTable) (s : Byte) (c : Word32) :
    (s, c) ∈ FreqTable.present f ↔ c = SymbolTable.at f s ∧ c ≠ 0#32 := by
  simp [FreqTable.present, SymbolTable.mem_pairs]

theorem FreqTable.present_length_le (f : FreqTable) : (FreqTable.present f).length ≤ 256 := by
  rw [FreqTable.present_eq_map, List.length_map]
  exact (List.length_filter_le _ _).trans_eq symbols_length

@[simp] theorem bytesBe32_length (v : Word32) : (bytesBe32 v).length = 4 := rfl

theorem be32_toNat (b0 b1 b2 b3 : Byte) :
    (be32 b0 b1 b2 b3).toNat = b0.toNat * 2 ^ 24 + b1.toNat * 2 ^ 16 + b2.toNat * 2 ^ 8 + b3.toNat := by
  have h0 := b0.isLt; have h1 := b1.isLt; have h2 := b2.isLt; have h3 := b3.isLt
  simp only [be32, BitVec.toNat_append]
  rw [← Nat.shiftLeft_add_eq_or_of_lt h1, ← Nat.shiftLeft_add_eq_or_of_lt h2,
    ← Nat.shiftLeft_add_eq_or_of_lt h3]
  simp only [Nat.shiftLeft_eq]
  omega

theorem be32_bytesBe32 (v : Word32) :
    be32 (v.extractLsb' 24 8) (v.extractLsb' 16 8) (v.extractLsb' 8 8) (v.extractLsb' 0 8) = v := by
  apply BitVec.eq_of_toNat_eq
  have := v.isLt
  rw [be32_toNat]
  simp only [BitVec.extractLsb'_toNat, Nat.shiftRight_eq_div_pow]
  omega

/-- Reading back a 32-bit field that was written (20_memory R33). -/
@[simp] theorem takeBe32_bytesBe32 (v : Word32) (rest : List Byte) :
    takeBe32 (bytesBe32 v ++ rest) = some (v, rest) := by
  simp [bytesBe32, takeBe32, be32_bytesBe32]

/-- A 32-bit field cannot be read exactly when fewer than four bytes remain. -/
theorem takeBe32_eq_none {bytes : List Byte} : takeBe32 bytes = none ↔ bytes.length < 4 := by
  match bytes with
  | [] | [_] | [_, _] | [_, _, _] => simp [takeBe32]
  | _ :: _ :: _ :: _ :: rest => simp [takeBe32]

theorem takeBe32_length {bytes rest : List Byte} {v : Word32} (h : takeBe32 bytes = some (v, rest)) :
    bytes.length = rest.length + 4 := by
  match bytes, h with
  | _ :: _ :: _ :: _ :: _, h => simp only [takeBe32, Option.some.injEq, Prod.mk.injEq] at h; simp [h.2]

theorem takeBe32_rest {bytes rest : List Byte} {v : Word32} (h : takeBe32 bytes = some (v, rest)) :
    rest = bytes.drop 4 := by
  match bytes, h with
  | _ :: _ :: _ :: _ :: _, h => simp only [takeBe32, Option.some.injEq, Prod.mk.injEq] at h; simp [h.2]

end Sys2Proof.Machine
end

