-- ==== Sys2Proof/Laws/Step.lean ====
section
/-! SUPPORT. What a command and a step can do, said once: the spec lemma of `finish`, of the ENGINE's move, of
a host access and of `step`. -/

namespace Sys2Proof.Machine

/-- A command in either form ends in the next state `finish` gives. -/
theorem exec_encode (s : State) : exec .encode s = .next (s.finish (encodeResult s)) := rfl

theorem exec_decode (s : State) : exec .decode s = .next (s.finish (decodeResult s)) := rfl

/-- The result or fault of a command. -/
def resultOf : Instr → State → Except FaultReport (List Byte)
  | .encode => encodeResult
  | .decode => decodeResult

theorem exec_eq (i : Instr) (s : State) : exec i s = .next (s.finish (resultOf i s)) := by
  cases i <;> rfl

/-- What every end of a command leaves alone. -/
theorem finish_sameInputSide (s : State) (x : Except FaultReport (List Byte)) :
    s.sameInputSide (s.finish x) := by
  cases x <;> exact ⟨rfl, rfl, rfl, rfl, rfl, rfl, rfl, fun _ => rfl⟩

theorem complete_outRead (s : State) (b : List Byte) (a : Nat)
    (h : (s.complete b).outDefined a = true) : some ((s.complete b).outRead a) = b[a]? := by
  have ha : a < b.length := by
    simp only [State.outDefined, Bool.and_eq_true, decide_eq_true_eq, State.complete_outLen,
      BitVec.toNat_ofNat] at h
    exact Nat.lt_of_lt_of_le h.2 (Nat.mod_le _ _)
  rw [State.outRead, if_pos h]
  simp [Memory.read_ofBytes, List.getElem?_eq_getElem ha]

/-- Completion with a result that the length register can hold. -/
theorem complete_finishedWith (s : State) (b : List Byte) (h : b.length < 2 ^ 64) :
    (s.complete b).finishedWith b := by
  have hl : (BitVec.ofNat 64 b.length).toNat = b.length := by
    rw [BitVec.toNat_ofNat, Nat.mod_eq_of_lt h]
  have hd : ∀ a, (s.complete b).outDefined a = decide (a < b.length) := fun a => by
    simp only [State.outDefined, State.complete_outLen, hl]
    simp [State.done, State.err, statusDone]
  refine ⟨rfl, rfl, rfl, hl, fun a ha => ?_, fun a ha => ?_⟩
  · have hda : (s.complete b).outDefined a = true := by simp [hd, ha]
    exact ⟨hda, complete_outRead s b a hda⟩
  · simp [hd, Nat.not_lt.mpr ha]

/-- Taking a fault. -/
theorem raiseFault_faultedWith (s : State) (r : FaultReport) : (s.raiseFault r).faultedWith r :=
  ⟨rfl, rfl, rfl, rfl, fun _ ha => absurd ha (Nat.not_lt_zero _), fun a _ => by
    simp [State.outDefined, State.done, State.err, statusFaulted]⟩

/-- What the ENGINE's move is: a command's end when BUSY = 1, nothing when BUSY = 0. -/
theorem engineStep_eq (s : State) :
    engineStep s =
      if s.busy then
        .next (match s.fetch with
          | .ok i => s.finish (resultOf i s)
          | .error _ => s.raiseFault .illegalCommand)
      else .next s := by
  unfold engineStep
  split
  · cases s.fetch with
    | ok i => exact exec_eq i s
    | error e => rfl
  · rfl

/-- The ENGINE's move with BUSY = 1 is some end of a command. -/
theorem engineStep_busy {s : State} (h : s.busy = true) :
    ∃ x, engineStep s = .next (s.finish x) := by
  rw [engineStep_eq, if_pos h]
  cases s.fetch with
  | ok i => exact ⟨_, rfl⟩
  | error e => exact ⟨.error .illegalCommand, rfl⟩

theorem engineStep_idle {s : State} (h : s.busy = false) : engineStep s = .next s := by
  rw [engineStep_eq, if_neg (by simp [h])]

/-- The ENGINE's move on a word that encodes no operation (45_codec_commands R112). -/
theorem engineStep_illegal {s : State} (h : s.busy = true) (h1 : s.cmd ≠ 0x01#8) (h2 : s.cmd ≠ 0x02#8) :
    engineStep s = .next (s.raiseFault .illegalCommand) := by
  rw [engineStep_eq, if_pos h]
  simp [State.fetch, decode, h1, h2]

/-- The ENGINE always has a next state: the end of a command, or nothing when idle. -/
theorem engineStep_next (s : State) :
    (s.busy = true ∧ ∃ x, engineStep s = .next (s.finish x)) ∨ (s.busy = false ∧ engineStep s = .next s) := by
  cases h : s.busy
  · exact .inr ⟨rfl, engineStep_idle h⟩
  · exact .inl ⟨rfl, engineStep_busy h⟩

@[simp] theorem finish_busy (s : State) (x : Except FaultReport (List Byte)) : (s.finish x).busy = false := by
  cases x <;> simp [State.finish, State.busy, statusDone, statusFaulted]

@[simp] theorem finish_done (s : State) (x : Except FaultReport (List Byte)) : (s.finish x).done = true := by
  cases x <;> simp [State.finish, State.done, statusDone, statusFaulted]

/-- A step with an empty script is the ENGINE's. -/
theorem step_nil {s : State} (h : s.script = []) : step s = engineStep s := by
  simp [step, stepMove, h]

/-- A step with a script is its head's, but for a POLL that finds BUSY = 1. -/
theorem step_cons {s : State} {a : HostAction} {rest : List HostAction} (h : s.script = a :: rest)
    (ha : ¬ (a = .poll ∧ s.busy = true)) : step s = hostAct a (s.setScript rest) := by
  simp only [step, stepMove, h]
  exact if_neg ha

theorem step_poll_busy {s : State} {rest : List HostAction} (h : s.script = .poll :: rest)
    (hb : s.busy = true) : step s = engineStep s := by
  simp [step, stepMove, h, hb]

/-- Everything a step that answers a next state can have been. `u` is the state without the script's
head. -/
theorem step_cases {s t : State} (h : step s = .next t) :
    (∃ x, s.busy = true ∧ (s.script = [] ∨ ∃ rest, s.script = .poll :: rest) ∧ t = s.finish x) ∨
    (s.busy = false ∧ s.script = [] ∧ t = s) ∨
    ∃ a rest u, s.script = a :: rest ∧ u = s.setScript rest ∧
      ((∃ x, a = .engineTurn ∧ s.busy = true ∧ t = u.finish x) ∨
        (a = .engineTurn ∧ s.busy = false ∧ t = u) ∨
        (a = .poll ∧ s.busy = false ∧ t = u) ∨
        (a = .reset ∧ t = u.resetEvent) ∨
        (∃ v, a = .writeReg 0 v ∧ s.busy = false ∧ v.toNat < 256 ∧ t = u.latchCommand (v.setWidth 8)) ∨
        (∃ v, a = .writeReg 4 v ∧ s.busy = false ∧ t = u.setInLen v) ∨
        (∃ r v, a = .writeReg r v ∧ (r = 1 ∨ r = 2 ∨ r = 3 ∨ r = 5) ∧ t = u) ∨
        (∃ x b, a = .writeIn x b ∧ s.busy = false ∧ x < s.cfg.inCap ∧
          t = u.writeIn x b) ∨
        (∃ r, a.allowed s ∧ ((∃ n, a = .readReg n) ∨ (∃ x, a = .readIn x) ∨ ∃ x, a = .readOut x) ∧
          t = u.reply r)) := by
  cases hs : s.script with
  | nil =>
    rw [step_nil hs] at h
    rcases engineStep_next s with ⟨hb, x, hx⟩ | ⟨hb, hx⟩ <;> rw [hx] at h <;> cases h
    · exact .inl ⟨x, hb, .inl rfl, rfl⟩
    · exact .inr (.inl ⟨hb, rfl, rfl⟩)
  | cons a rest =>
    by_cases hp : a = .poll ∧ s.busy = true
    · obtain ⟨rfl, hb⟩ := hp
      rw [step_poll_busy hs hb] at h
      obtain ⟨x, hx⟩ := engineStep_busy hb
      rw [hx] at h; cases h
      exact .inl ⟨x, hb, .inr ⟨rest, rfl⟩, rfl⟩
    rw [step_cons hs hp] at h
    refine .inr (.inr ⟨a, rest, s.setScript rest, rfl, rfl, ?_⟩)
    have hbusy : (s.setScript rest).busy = s.busy := rfl
    cases a with
    | poll =>
      simp only [hostAct, Host.Outcome.next.injEq] at h
      have hb : s.busy = false := by simpa using hp
      exact .inr (.inr (.inl ⟨rfl, hb, h.symm⟩))
    | engineTurn =>
      simp only [hostAct] at h
      rcases engineStep_next (s.setScript rest) with ⟨hb, x, hx⟩ | ⟨hb, hx⟩ <;> rw [hx] at h <;> cases h
      · exact .inl ⟨x, rfl, hb, rfl⟩
      · exact .inr (.inl ⟨rfl, hb, rfl⟩)
    | reset =>
      simp only [hostAct, Host.Outcome.next.injEq] at h
      exact .inr (.inr (.inr (.inl ⟨rfl, h.symm⟩)))
    | writeOut x b => simp [hostAct] at h
    | writeIn x b =>
      simp only [hostAct, hostWriteIn, hbusy] at h
      split at h
      · cases h
      split at h
      · cases h
      rename_i hb hx
      cases h
      exact .inr (.inr (.inr (.inr (.inr (.inr (.inr (.inl
        ⟨x, b, rfl, by simpa using hb, Nat.not_le.mp hx, rfl⟩)))))))
    | readIn x =>
      simp only [hostAct, hostReadIn] at h
      split at h
      · cases h
      rename_i hx
      cases h
      exact .inr (.inr (.inr (.inr (.inr (.inr (.inr (.inr
        ⟨_, Nat.not_le.mp hx, .inr (.inl ⟨x, rfl⟩), rfl⟩)))))))
    | readOut x =>
      simp only [hostAct, hostReadOut, hbusy] at h
      split at h
      · cases h
      split at h
      · cases h
      rename_i hb hx
      cases h
      exact .inr (.inr (.inr (.inr (.inr (.inr (.inr (.inr
        ⟨_, ⟨hb, Nat.not_le.mp hx⟩, .inr (.inr ⟨x, rfl⟩), rfl⟩)))))))
    | readReg r =>
      simp only [hostAct, hostReadReg] at h
      split at h
      · cases h
      rename_i reg hr
      cases h
      have hlt : r < 6 := by
        unfold HostReg.ofNumber at hr
        split at hr <;> first | omega | cases hr
      exact .inr (.inr (.inr (.inr (.inr (.inr (.inr (.inr
        ⟨_, hlt, .inl ⟨r, rfl⟩, rfl⟩)))))))
    | writeReg r v =>
      simp only [hostAct, hostWriteReg, hbusy] at h
      match r with
      | 0 =>
        simp only [HostReg.ofNumber] at h
        split at h
        · cases h
        split at h
        · cases h
        rename_i hb hv
        cases h
        exact .inr (.inr (.inr (.inr (.inl ⟨v, rfl, by simpa using hb, Nat.not_le.mp hv, rfl⟩))))
      | 4 =>
        simp only [HostReg.ofNumber] at h
        split at h
        · cases h
        rename_i hb
        cases h
        exact .inr (.inr (.inr (.inr (.inr (.inl ⟨v, rfl, by simpa using hb, rfl⟩)))))
      | 1 | 2 | 3 | 5 =>
        simp only [HostReg.ofNumber, Host.Outcome.next.injEq] at h
        exact .inr (.inr (.inr (.inr (.inr (.inr (.inl ⟨_, v, rfl, by simp, h.symm⟩))))))
      | n + 6 => simp [HostReg.ofNumber] at h

end Sys2Proof.Machine
end

