-- ==== Sys2Proof/Laws/Codes.lean ====
section
/-! SUPPORT. Left-aligned codes as bit sequences: equality, the prefix relation, and the codes of a table. -/

namespace Sys2Proof.Machine

theorem topBits_testBit (v : Word32) {n : Nat} (hn : n ≤ 32) (i : Nat) :
    (topBits v n).testBit i = if i < n then v.getMsbD (n - 1 - i) else false := by
  rw [topBits, Nat.testBit_div_two_pow]
  split
  · rename_i h
    rw [BitVec.getMsbD_eq_getLsbD, BitVec.getLsbD, if_pos_true (by omega)]
    congr 1; omega
  · rename_i h
    exact BitVec.getLsbD_of_ge v _ (by omega)
where
  if_pos_true {p : Prop} [Decidable p] {b : Bool} (h : p) : (decide p && b) = b := by simp [h]

/-- Two 32-bit values agree on their top `n` bits exactly when they agree bit by bit. -/
theorem topBits_eq_iff {u v : Word32} {n : Nat} (hn : n ≤ 32) :
    topBits u n = topBits v n ↔ ∀ j, j < n → u.getMsbD j = v.getMsbD j := by
  constructor
  · intro h j hj
    have := congrArg (fun x => x.testBit (n - 1 - j)) h
    simp only [topBits_testBit _ hn, if_pos (show n - 1 - j < n by omega)] at this
    rwa [show n - 1 - (n - 1 - j) = j by omega] at this
  · intro h
    refine Nat.eq_of_testBit_eq fun i => ?_
    rw [topBits_testBit _ hn, topBits_testBit _ hn]
    split
    · exact h _ (by omega)
    · rfl

/-- No 1 bit below the top `n`. -/
theorem bitsBelow_eq_zero_iff {v : Word32} {n : Nat} (hn : n ≤ 32) :
    bitsBelow v n = 0 ↔ ∀ j, n ≤ j → v.getMsbD j = false := by
  have key : ∀ i, (bitsBelow v n).testBit i = (decide (i < 32 - n) && v.getLsbD i) := fun i => by
    rw [bitsBelow, Nat.testBit_mod_two_pow]; rfl
  constructor
  · intro h j hj
    by_cases hj' : j < 32
    · have := key (31 - j)
      rw [h, Nat.zero_testBit] at this
      rw [BitVec.getMsbD_eq_getLsbD]
      simp only [show 31 - j < 32 - n by omega, decide_true, Bool.true_and] at this
      simp [← this]
    · exact BitVec.getMsbD_of_ge _ _ (by omega)
  · intro h
    refine Nat.eq_of_testBit_eq fun i => ?_
    rw [key, Nat.zero_testBit]
    by_cases hi : i < 32 - n
    · have := h (31 - i) (by omega)
      rw [BitVec.getMsbD_eq_getLsbD] at this
      simp only [show 31 - i < 32 by omega, decide_true, Bool.true_and,
        show 32 - 1 - (31 - i) = i by omega] at this
      simp [this]
    · simp [hi]

@[simp] theorem CodeEntry.toBits_length (e : CodeEntry) : e.toBits.length = e.len.toNat := by
  simp [CodeEntry.toBits]

theorem CodeEntry.toBits_getElem (e : CodeEntry) (j : Nat) (h : j < e.toBits.length) :
    e.toBits[j] = e.bits.getMsbD j := by
  simp [CodeEntry.toBits]

/-- The prefix relation on codes, bit by bit. -/
theorem CodeEntry.toBits_prefix_iff (a b : CodeEntry) :
    a.toBits <+: b.toBits ↔
      a.len.toNat ≤ b.len.toNat ∧ ∀ j, j < a.len.toNat → a.bits.getMsbD j = b.bits.getMsbD j := by
  rw [List.prefix_iff_getElem]
  simp only [CodeEntry.toBits_length, CodeEntry.toBits_getElem]
  exact ⟨fun ⟨h, h'⟩ => ⟨h, fun j hj => h' j hj⟩, fun ⟨h, h'⟩ => ⟨h, fun j hj => h' j hj⟩⟩

/-- The check of 43_table_serializer R84 decides the prefix relation of the codes as bit sequences. -/
theorem CodeEntry.isPrefixOf_iff {a b : CodeEntry} (ha : a.len.toNat ≤ 32) :
    a.isPrefixOf b = true ↔ a.toBits <+: b.toBits := by
  rw [CodeEntry.toBits_prefix_iff, ← topBits_eq_iff ha]
  simp [CodeEntry.isPrefixOf]

/-- A code with zeros below it is determined by its bit sequence. -/
theorem CodeEntry.eq_of_toBits {a b : CodeEntry} (ha : a.len.toNat ≤ 32)
    (ha' : bitsBelow a.bits a.len.toNat = 0) (hb' : bitsBelow b.bits b.len.toNat = 0)
    (h : a.toBits = b.toBits) : a = b := by
  have hl : a.len.toNat = b.len.toNat := by simpa using congrArg List.length h
  have hp := ((CodeEntry.toBits_prefix_iff a b).mp (h ▸ List.prefix_rfl)).2
  obtain ⟨la, va⟩ := a
  obtain ⟨lb, vb⟩ := b
  have hlen : la = lb := BitVec.eq_of_toNat_eq hl
  subst hlen
  simp only [bitsBelow_eq_zero_iff ha] at ha' hb'
  congr 1
  refine BitVec.eq_of_getMsbD_eq fun j _ => ?_
  by_cases hj : j < la.toNat
  · exact hp j hj
  · rw [ha' j (by omega), hb' j (by omega)]

theorem CodeEntry.present_iff (e : CodeEntry) : e.present = true ↔ 1 ≤ e.len.toNat := by
  rw [CodeEntry.present, bne_iff_ne, ne_eq, ← BitVec.toNat_inj]
  simp; omega

/-- Check 7 of 43_table_serializer R84 as a statement about bit sequences. -/
theorem prefixFree_iff {es : List (Byte × CodeEntry)} (h : ∀ p ∈ es, p.2.len.toNat ≤ 32) :
    prefixFree es = true ↔ ∀ p ∈ es, ∀ q ∈ es, p.1 ≠ q.1 → ¬ p.2.toBits <+: q.2.toBits := by
  simp only [prefixFree, List.all_eq_true]
  constructor
  · intro hf p hp q hq hne hpre
    have := hf p hp q hq
    rw [(CodeEntry.isPrefixOf_iff (h p hp)).mpr hpre] at this
    simp [hne] at this
  · intro hf p hp q hq
    by_cases hne : p.1 = q.1
    · simp [hne]
    · have : p.2.isPrefixOf q.2 ≠ true := fun hc => hf p hp q hq hne ((CodeEntry.isPrefixOf_iff (h p hp)).mp hc)
      simp [this]

end Sys2Proof.Machine
end

