-- ==== Sys2Proof/Laws/Serializer.lean ====
section
/-! SUPPORT. What `serialize`, the record loop and `deserialize` do, on records in any order. -/

namespace Sys2Proof.Machine

/-- The code table a list of records describes, over a given table. -/
def tableOf (t : CodeTable) (records : List (Byte × CodeEntry)) : CodeTable :=
  records.foldl (fun u p => SymbolTable.put u p.1 p.2) t

/-- A record that passes checks 4 and 6 of 43_table_serializer R84. -/
def goodRecord (p : Byte × CodeEntry) : Prop :=
  1 ≤ p.2.len.toNat ∧ p.2.len.toNat ≤ 32 ∧ bitsBelow p.2.bits p.2.len.toNat = 0

theorem recordBytes_length (s : Byte) (e : CodeEntry) : (recordBytes s e).length = 6 := rfl

theorem recordBytes_eq (s : Byte) (e : CodeEntry) :
    recordBytes s e = s :: BitVec.ofNat 8 e.len.toNat :: bytesBe32 e.bits := by
  rw [recordBytes]; congr 2; exact BitVec.eq_of_toNat_eq (by simp)

theorem flatMap_recordBytes_length (es : List (Byte × CodeEntry)) :
    (es.flatMap (fun p => recordBytes p.1 p.2)).length = 6 * es.length := by
  induction es with
  | nil => rfl
  | cons p rest ih => simp only [List.flatMap_cons, List.length_append, ih, recordBytes_length,
      List.length_cons]; omega

theorem serialize_length (t : CodeTable) : (serialize t).length = 4 + 6 * (CodeTable.entries t).length := by
  simp only [serialize, List.length_append, bytesBe32_length, flatMap_recordBytes_length]

theorem tableOf_at_of_not_mem {records : List (Byte × CodeEntry)} {s : Byte} (t : CodeTable)
    (h : s ∉ records.map (fun p => p.1)) :
    SymbolTable.at (tableOf t records) s = SymbolTable.at t s := by
  induction records generalizing t with
  | nil => rfl
  | cons p rest ih =>
    simp only [List.map_cons, List.mem_cons, not_or] at h
    exact (ih _ h.2).trans (SymbolTable.at_put_other _ _ h.1)

theorem tableOf_at_of_mem {records : List (Byte × CodeEntry)} {p : Byte × CodeEntry} (t : CodeTable)
    (hn : (records.map (fun p => p.1)).Nodup) (h : p ∈ records) :
    SymbolTable.at (tableOf t records) p.1 = p.2 := by
  induction records generalizing t with
  | nil => cases h
  | cons q rest ih =>
    simp only [List.map_cons, List.nodup_cons] at hn
    rcases List.mem_cons.mp h with rfl | h
    · exact (tableOf_at_of_not_mem _ hn.1).trans (SymbolTable.at_put_same _ _ _)
    · exact ih _ hn.2 h

/-- The present entries of the table of good records, over an empty table, are the records. -/
theorem mem_entries_tableOf {records : List (Byte × CodeEntry)} {t : CodeTable}
    (ht : ∀ s, SymbolTable.at t s = { len := 0#6, bits := 0#32 })
    (hn : (records.map (fun p => p.1)).Nodup) (hg : ∀ p ∈ records, goodRecord p) (p : Byte × CodeEntry) :
    p ∈ CodeTable.entries (tableOf t records) ↔ p ∈ records := by
  obtain ⟨s, e⟩ := p
  rw [CodeTable.mem_entries]
  constructor
  · rintro ⟨rfl, hp⟩
    by_cases hs : s ∈ records.map (fun p => p.1)
    · obtain ⟨q, hq, rfl⟩ := List.mem_map.mp hs
      rw [tableOf_at_of_mem t hn hq]; exact hq
    · rw [tableOf_at_of_not_mem t hs, ht] at hp
      simp [CodeEntry.present] at hp
  · intro h
    have := tableOf_at_of_mem t hn h
    exact ⟨this.symm, (CodeEntry.present_iff e).mpr (hg _ h).1⟩

/-- Over a table of good entries, writing its own present entries over an empty table gives it back. -/
theorem tableOf_entries {t u : CodeTable} (hu : ∀ s, SymbolTable.at u s = { len := 0#6, bits := 0#32 })
    (ht : ∀ s, (SymbolTable.at t s).present = false → SymbolTable.at t s = { len := 0#6, bits := 0#32 }) :
    tableOf u (CodeTable.entries t) = t := by
  have hn : ((CodeTable.entries t).map (fun p => p.1)).Nodup := by
    rw [CodeTable.entries_eq_map, List.map_map]
    refine (List.map_id _).symm ▸ (symbols_nodup.filter (fun s => (SymbolTable.at t s).present) : _)
  refine SymbolTable.ext_at fun s => ?_
  cases hp : (SymbolTable.at t s).present
  · rw [tableOf_at_of_not_mem, hu, ht s hp]
    intro hs
    obtain ⟨⟨s', e⟩, hq, rfl⟩ := List.mem_map.mp hs
    have := (CodeTable.mem_entries t s' e).mp hq
    rw [← this.1, this.2] at hp; cases hp
  · exact tableOf_at_of_mem u hn ((CodeTable.mem_entries t s _).mpr ⟨rfl, hp⟩)

/-- One record that passes its checks is entered (43_table_serializer R84). -/
theorem readRecord_good {p : Byte × CodeEntry} {t : CodeTable} (hg : goodRecord p)
    (ht : (SymbolTable.at t p.1).present = false) :
    readRecord p.1 (p.2.len.setWidth 8) p.2.bits t = .ok (SymbolTable.put t p.1 p.2) := by
  obtain ⟨h1, h2, h3⟩ := hg
  have hl : (p.2.len.setWidth 8).toNat = p.2.len.toNat := by
    rw [BitVec.toNat_setWidth]; exact Nat.mod_eq_of_lt (by omega)
  have hw : (p.2.len.setWidth 8).setWidth 6 = p.2.len := by
    apply BitVec.eq_of_toNat_eq
    rw [BitVec.toNat_setWidth, hl]; exact Nat.mod_eq_of_lt p.2.len.isLt
  rw [readRecord, hl, if_neg (by omega), if_neg (by simp [ht]), if_neg (fun h => h.2 h3), hw]

theorem readRecords_cons (n : Nat) (s len : Byte) (v : Word32) (rest : List Byte) (t : CodeTable) :
    readRecords (n + 1) (s :: len :: bytesBe32 v ++ rest) t =
      match readRecord s len v t with
      | .error r => .error r
      | .ok t' => readRecords n rest t' := by
  simp only [bytesBe32, List.cons_append, List.nil_append, readRecords, be32_bytesBe32]
  all_goals rfl

/-- The record loop over records that pass their checks, with more bytes and more records to come. -/
theorem readRecords_good {records : List (Byte × CodeEntry)} {t : CodeTable} (n : Nat) (rest : List Byte)
    (hn : (records.map (fun p => p.1)).Nodup) (hg : ∀ p ∈ records, goodRecord p)
    (ht : ∀ p ∈ records, (SymbolTable.at t p.1).present = false) :
    readRecords (records.length + n) (records.flatMap (fun p => recordBytes p.1 p.2) ++ rest) t =
      readRecords n rest (tableOf t records) := by
  induction records generalizing t with
  | nil => simp [tableOf]
  | cons p ps ih =>
    simp only [List.map_cons, List.nodup_cons] at hn
    rw [List.length_cons, show ps.length + 1 + n = (ps.length + n) + 1 by omega, List.flatMap_cons,
      List.append_assoc, recordBytes, readRecords_cons,
      readRecord_good (hg p List.mem_cons_self) (ht p List.mem_cons_self)]
    refine ih hn.2 (fun q hq => hg q (List.mem_cons_of_mem _ hq)) fun q hq => ?_
    rw [SymbolTable.at_put_other _ _ (fun h => hn.1 (by rw [← h]; exact List.mem_map_of_mem hq))]
    exact ht q (List.mem_cons_of_mem _ hq)

/-- The records fit their count field, for there are at most 256 symbols. -/
theorem length_le_of_nodup {records : List (Byte × CodeEntry)}
    (hn : (records.map (fun p => p.1)).Nodup) : records.length ≤ 256 := by
  have := List.Subperm.length_le (hn.subperm (l₂ := symbols) fun s _ => mem_symbols s)
  simpa [symbols_length] using this

/-- `deserialize` of legal records in any order, whatever bytes follow (43_table_serializer R84). -/
theorem deserialize_good {records : List (Byte × CodeEntry)} {t : CodeTable} (rest : List Byte)
    (ht : ∀ s, SymbolTable.at t s = { len := 0#6, bits := 0#32 })
    (hn : (records.map (fun p => p.1)).Nodup) (hg : ∀ p ∈ records, goodRecord p)
    (hf : ∀ p ∈ records, ∀ q ∈ records, p.1 ≠ q.1 → ¬ p.2.toBits <+: q.2.toBits) :
    deserialize (bytesBe32 (BitVec.ofNat 32 records.length) ++
        (records.flatMap (fun p => recordBytes p.1 p.2) ++ rest)) t =
      .ok (tableOf t records, 4 + 6 * records.length) := by
  have hle := length_le_of_nodup hn
  have hc : (BitVec.ofNat 32 records.length).toNat = records.length := by
    rw [BitVec.toNat_ofNat]; exact Nat.mod_eq_of_lt (by omega)
  have hp : prefixFree (CodeTable.entries (tableOf t records)) = true := by
    refine (prefixFree_iff fun p hp => ?_).mpr fun p hp q hq => ?_
    · exact (hg p ((mem_entries_tableOf ht hn hg p).mp hp)).2.1
    · exact hf p ((mem_entries_tableOf ht hn hg p).mp hp) q ((mem_entries_tableOf ht hn hg q).mp hq)
  have hr := readRecords_good 0 rest hn hg (t := t) (fun p _ => by simp [ht, CodeEntry.present])
  rw [Nat.add_zero] at hr
  rw [deserialize, takeBe32_bytesBe32]
  simp only [hc]
  rw [if_neg (by
      simp only [List.length_append, bytesBe32_length, flatMap_recordBytes_length]; omega),
    if_neg (by omega), hr]
  simp [readRecords, hp]

end Sys2Proof.Machine
end

