-- ==== Sys2Proof/Laws/Packer.lean ====
section
/-! SUPPORT. What the packing loop leaves, and what `unpack` reads. -/

namespace Sys2Proof.Machine

@[simp] theorem byteBits_length (n : Nat) (b : Byte) : (byteBits n b).length = n := by simp [byteBits]

theorem byteBits_getElem (n : Nat) (b : Byte) (t : Nat) (h : t < (byteBits n b).length) :
    (byteBits n b)[t] = b.getMsbD t := by simp [byteBits]

/-- Every bit of ACC below the NACC filled ones is 0. -/
def Working.accClean (w : Working) : Prop :=
  w.nacc.toNat < 8 ∧ ∀ t, w.nacc.toNat ≤ t → w.acc.getMsbD t = false

theorem Working.flushAcc_clean (w : Working) : w.flushAcc.accClean :=
  ⟨by simp [Working.flushAcc], fun t _ => by simp [Working.flushAcc]⟩

theorem Working.packBit_nacc {w : Working} (h : w.nacc.toNat < 8) (b : Bool) :
    (w.packBit b).nacc.toNat = w.nacc.toNat + 1 := by
  simp only [Working.packBit, BitVec.toNat_add, BitVec.toNat_ofNat]; omega

theorem Working.packBit_acc {w : Working} (h : w.nacc.toNat < 8) (b : Bool) (t : Nat) :
    (w.packBit b).acc.getMsbD t = (w.acc.getMsbD t || (decide (t = w.nacc.toNat) && b)) := by
  by_cases ht : t < 8
  · cases b
    · simp [Working.packBit]
    · simp only [Working.packBit, BitVec.getMsbD_or, if_true, Bool.and_true]
      congr 1
      rw [BitVec.getMsbD_eq_getLsbD, BitVec.getLsbD_shiftLeft]
      by_cases e : t = w.nacc.toNat
      · subst e
        simp [ht]; omega
      · have : ¬ (8 - 1 - t - (7 - w.nacc.toNat) = 0 ∧ ¬ 8 - 1 - t < 7 - w.nacc.toNat) := by omega
        simp [e, ht, BitVec.getLsbD_one]; omega
  · rw [BitVec.getMsbD_of_ge _ _ (by omega), BitVec.getMsbD_of_ge _ _ (by omega)]
    simp; omega

/-- One bit more in ACC. -/
theorem Working.packBit_byteBits {w : Working} (h : w.accClean) (b : Bool) :
    byteBits (w.nacc.toNat + 1) (w.packBit b).acc = byteBits w.nacc.toNat w.acc ++ [b] := by
  refine List.ext_getElem (by simp) fun t h1 h2 => ?_
  rw [byteBits_getElem, Working.packBit_acc h.1, List.getElem_append]
  split
  · rename_i ht
    rw [byteBits_length] at ht
    rw [byteBits_getElem]
    simp [Nat.ne_of_lt ht]
  · rename_i ht
    simp only [byteBits_length, List.length_append, List.length_cons, List.length_nil] at ht h1 h2
    have : t = w.nacc.toNat := by omega
    subst this
    simp [h.2 _ (Nat.le_refl _)]

theorem Working.packBit_clean {w : Working} (h : w.accClean) (b : Bool) (h8 : (w.packBit b).nacc ≠ 8#4) :
    (w.packBit b).accClean := by
  have hn := Working.packBit_nacc h.1 b
  have h8' : (w.packBit b).nacc.toNat ≠ 8 := fun e => h8 (BitVec.eq_of_toNat_eq e)
  have := h.1
  refine ⟨by omega, fun t ht => ?_⟩
  rw [Working.packBit_acc h.1, h.2 t (by omega)]
  have : t ≠ w.nacc.toNat := by omega
  simp [this]

/-- The packing loop: the full bytes and what is left in ACC spell the bits that were in ACC and the bits
packed, ACC stays clean, and nothing else of the working state changes (44_bit_packer_reader R91). -/
theorem packLoop_spec (bits : Bits) (w : Working) (h : w.accClean) :
    (packLoop bits w).1.flatMap (byteBits 8) ++
        byteBits (packLoop bits w).2.nacc.toNat (packLoop bits w).2.acc =
      byteBits w.nacc.toNat w.acc ++ bits ∧
    (packLoop bits w).2.accClean ∧
    8 * (packLoop bits w).1.length + (packLoop bits w).2.nacc.toNat = w.nacc.toNat + bits.length ∧
    (packLoop bits w).2 = { w with acc := (packLoop bits w).2.acc, nacc := (packLoop bits w).2.nacc } := by
  induction bits generalizing w with
  | nil => simp [packLoop, h]
  | cons b rest ih =>
    have hn := Working.packBit_nacc h.1 b
    have hb := Working.packBit_byteBits h b
    simp only [packLoop]
    split
    · rename_i h8
      have h8' : (w.packBit b).nacc.toNat = 8 := by rw [h8]; rfl
      have hf : (w.packBit b).flushAcc.nacc.toNat = 0 := rfl
      obtain ⟨i1, i2, i3, i4⟩ := ih (w.packBit b).flushAcc (Working.flushAcc_clean _)
      refine ⟨?_, i2, ?_, i4⟩
      · rw [hf] at i1
        rw [List.flatMap_cons, List.append_assoc, i1]
        have : byteBits 8 (w.packBit b).acc = byteBits w.nacc.toNat w.acc ++ [b] := by
          rw [← hb]; congr 1; omega
        rw [this]
        simp [byteBits]
      · rw [hf] at i3
        simp only [List.length_cons]; omega
    · rename_i h8
      obtain ⟨i1, i2, i3, i4⟩ := ih (w.packBit b) (Working.packBit_clean h b h8)
      refine ⟨?_, i2, ?_, i4⟩
      · rw [i1, hn, hb, List.append_assoc]; rfl
      · simp only [List.length_cons]; omega

/-- `pack` in terms of the loop from an empty ACC. -/
theorem pack_eq (bits : Bits) (w : Working) :
    w.pack bits =
      (if (packLoop bits w.flushAcc).2.nacc = 0#4 then
        ((packLoop bits w.flushAcc).1, if bits = [] then 0#8 else 8#8, (packLoop bits w.flushAcc).2)
      else ((packLoop bits w.flushAcc).1 ++ [(packLoop bits w.flushAcc).2.acc],
        (packLoop bits w.flushAcc).2.nacc.setWidth 8, (packLoop bits w.flushAcc).2)) := by
  simp only [Working.pack]
  by_cases h : (packLoop bits w.flushAcc).2.nacc = 0#4
  · by_cases hb : bits = [] <;> simp [h, hb]
  · simp [h]

theorem unpack_append_singleton (full : List Byte) (last usable : Byte) :
    unpack (full ++ [last]) usable = full.flatMap (byteBits 8) ++ byteBits usable.toNat last := by
  induction full with
  | nil => rfl
  | cons b rest ih =>
    cases rest with
    | nil => rfl
    | cons b' rest =>
      simp only [List.cons_append, unpack, List.flatMap_cons] at ih ⊢
      rw [ih]; simp

theorem flatMap_byteBits_length (l : List Byte) : (l.flatMap (byteBits 8)).length = 8 * l.length := by
  induction l with
  | nil => rfl
  | cons b rest ih => simp only [List.flatMap_cons, List.length_append, byteBits_length, ih,
      List.length_cons]; omega

/-- The number of bits `unpack` reads (44_bit_packer_reader R94). -/
theorem unpack_length (payload : List Byte) (usable : Byte) (h : payload ≠ []) :
    (unpack payload usable).length = 8 * (payload.length - 1) + usable.toNat := by
  rcases List.eq_nil_or_concat payload with rfl | ⟨full, last, rfl⟩
  · exact absurd rfl h
  · simp only [List.concat_eq_append, unpack_append_singleton, List.length_append,
      flatMap_byteBits_length, byteBits_length, List.length_cons, List.length_nil]
    omega

end Sys2Proof.Machine
end

