-- ==== Sys2Proof/Laws/Matcher.lean ====
section
/-! SUPPORT. What the symbol matcher does while it reads a code, and when it has read one
(45_codec_commands R109). -/

namespace Sys2Proof.Machine

/-- The entries of a table the parser accepted: lengths 1 to 32, zeros below, every symbol once, no code a
prefix of another symbol's. -/
structure MatchTable (es : List (Byte × CodeEntry)) : Prop where
  good : ∀ p ∈ es, goodRecord p
  once : ∀ p ∈ es, ∀ q ∈ es, p.1 = q.1 → p = q
  free : ∀ p ∈ es, ∀ q ∈ es, p.1 ≠ q.1 → ¬ p.2.toBits <+: q.2.toBits

/-- The matcher holds exactly the prefix `bits`: CUR_LEN is its length and CUR_BITS its left-aligned
value. -/
def Working.holdsPrefix (w : Working) (bits : Bits) : Prop :=
  w.curLen.toNat = bits.length ∧ bits.length ≤ 32 ∧
    ∀ j, w.curBits.getMsbD j = (bits[j]?).getD false

theorem Working.holdsPrefix_nil {w : Working} (h1 : w.curLen = 0#6) (h2 : w.curBits = 0#32) :
    w.holdsPrefix [] := ⟨by simp [h1], by simp, fun j => by simp [h2]⟩

theorem getMsbD_bitAt (b : Bool) {i : Nat} (hi : i < 32) (j : Nat) :
    (bitAt b (31 - i)).getMsbD j = (decide (j = i) && b) := by
  by_cases hj : j < 32
  · cases b
    · simp [bitAt]
    · rw [bitAt, if_pos rfl, BitVec.getMsbD_eq_getLsbD, BitVec.getLsbD_shiftLeft]
      by_cases e : j = i
      · subst e
        simp [hj]; omega
      · simp [e, hj, BitVec.getLsbD_one]; omega
  · rw [BitVec.getMsbD_of_ge _ _ (by omega)]
    simp; omega

/-- One bit more. -/
theorem Working.holdsPrefix_matchBit {w : Working} {bits : Bits} (h : w.holdsPrefix bits)
    (hl : bits.length < 32) (b : Bool) : (w.matchBit b).holdsPrefix (bits ++ [b]) := by
  obtain ⟨h1, h2, h3⟩ := h
  refine ⟨?_, by simp; omega, fun j => ?_⟩
  · simp only [Working.matchBit, BitVec.toNat_add, BitVec.toNat_ofNat, List.length_append,
      List.length_cons, List.length_nil, h1]
    omega
  · simp only [Working.matchBit, BitVec.getMsbD_or, h1, h3, getMsbD_bitAt b hl]
    rw [List.getElem?_append]
    split
    · rename_i hj
      simp [Nat.ne_of_lt hj]
    · rename_i hj
      by_cases e : j = bits.length
      · subst e; simp
      · have : 1 ≤ j - bits.length := by omega
        simp [e, List.getElem?_eq_none (show bits.length ≤ j by omega),
          List.getElem?_eq_none (show [b].length ≤ j - bits.length by simpa using this)]

theorem CodeEntry.toBits_getElem? (e : CodeEntry) (j : Nat) :
    (e.toBits[j]?).getD false = (decide (j < e.len.toNat) && e.bits.getMsbD j) := by
  by_cases h : j < e.len.toNat
  · rw [List.getElem?_eq_getElem (by simpa using h), CodeEntry.toBits_getElem]
    simp [h]
  · rw [List.getElem?_eq_none (by simpa using h)]
    simp [h]

/-- An entry equals the prefix exactly when its code is those bits. -/
theorem exact_iff {w : Working} {bits : Bits} (h : w.holdsPrefix bits) {p : Byte × CodeEntry}
    (hp : goodRecord p) : (p.2.len = w.curLen ∧ p.2.bits = w.curBits) ↔ p.2.toBits = bits := by
  obtain ⟨h1, h2, h3⟩ := h
  obtain ⟨-, g2, g3⟩ := hp
  rw [bitsBelow_eq_zero_iff g2] at g3
  constructor
  · rintro ⟨e1, e2⟩
    refine List.ext_getElem (by rw [CodeEntry.toBits_length, e1, h1]) fun j hj hj' => ?_
    have := h3 j
    rw [← e2, List.getElem?_eq_getElem hj'] at this
    rw [CodeEntry.toBits_getElem, this]; rfl
  · intro e
    refine ⟨BitVec.eq_of_toNat_eq ?_, BitVec.eq_of_getMsbD_eq fun j _ => ?_⟩
    · rw [h1, ← e, CodeEntry.toBits_length]
    · rw [h3, ← e, CodeEntry.toBits_getElem?]
      by_cases hj : j < p.2.len.toNat
      · simp [hj]
      · simp [hj, g3 j (by omega)]

/-- An entry extends the prefix exactly when the bits are a proper prefix of its code. -/
theorem extends_iff {w : Working} {bits : Bits} (h : w.holdsPrefix bits) (p : Byte × CodeEntry) :
    (w.curLen.toNat < p.2.len.toNat ∧ topBits p.2.bits w.curLen.toNat = topBits w.curBits w.curLen.toNat) ↔
      bits <+: p.2.toBits ∧ bits.length < p.2.len.toNat := by
  obtain ⟨h1, h2, h3⟩ := h
  rw [h1, topBits_eq_iff h2, List.prefix_iff_getElem]
  simp only [CodeEntry.toBits_length, CodeEntry.toBits_getElem]
  constructor
  · rintro ⟨e1, e2⟩
    refine ⟨⟨Nat.le_of_lt e1, fun j hj => ?_⟩, e1⟩
    have := e2 j hj
    rw [h3, List.getElem?_eq_getElem hj] at this
    exact this.symm
  · rintro ⟨⟨_, e2⟩, e1⟩
    refine ⟨e1, fun j hj => ?_⟩
    rw [h3, List.getElem?_eq_getElem hj]
    exact (e2 j hj).symm

theorem exactMatch_eq_none {es : List (Byte × CodeEntry)} (hes : ∀ p ∈ es, goodRecord p) {w : Working}
    {bits : Bits} (h : w.holdsPrefix bits) :
    exactMatch es w = none ↔ ∀ p ∈ es, p.2.toBits ≠ bits := by
  simp only [exactMatch, Option.map_eq_none_iff, List.find?_eq_none, Bool.and_eq_true, beq_iff_eq]
  exact forall₂_congr fun p hp => not_congr (exact_iff h (hes p hp))

theorem exactMatch_eq_some {es : List (Byte × CodeEntry)} (hes : MatchTable es) {w : Working}
    {p : Byte × CodeEntry} (hp : p ∈ es) (h : w.holdsPrefix p.2.toBits) :
    exactMatch es w = some p.1 := by
  cases hm : exactMatch es w with
  | none => exact absurd rfl ((exactMatch_eq_none hes.good h).mp hm p hp)
  | some s =>
    obtain ⟨q, hq, rfl⟩ := Option.map_eq_some_iff.mp hm
    have hqm := List.mem_of_find?_eq_some hq
    have hqp := List.find?_some hq
    simp only [Bool.and_eq_true, beq_iff_eq] at hqp
    have := (exact_iff h (hes.good q hqm)).mp hqp
    by_cases e : q.1 = p.1
    · rw [e]
    · exact absurd (this ▸ List.prefix_rfl) (hes.free q hqm p hp e)

theorem extendable_iff (es : List (Byte × CodeEntry)) {w : Working} {bits : Bits}
    (h : w.holdsPrefix bits) :
    extendable es w = true ↔ ∃ p ∈ es, bits <+: p.2.toBits ∧ bits.length < p.2.len.toNat := by
  simp only [extendable, List.any_eq_true, Bool.and_eq_true, decide_eq_true_eq, beq_iff_eq]
  exact exists_congr fun p => and_congr_right fun _ => extends_iff h p

@[simp] theorem Working.matchBit_emit (w : Working) (b : Bool) : (w.matchBit b).emit = w.emit := rfl

/-- Reading a proper prefix of some code emits nothing and goes on. `bits` has been read already. -/
theorem matchLoop_prefix {es : List (Byte × CodeEntry)} (hes : MatchTable es) {count : Word32}
    {p : Byte × CodeEntry} (hp : p ∈ es) (more rest : Bits) {w : Working} {bits : Bits}
    (h : w.holdsPrefix bits) (hw : w.emit.toNat < count.toNat) (hpre : bits ++ more <+: p.2.toBits)
    (hlen : (bits ++ more).length < p.2.len.toNat) :
    ∃ w', matchLoop es count (more ++ rest) w = matchLoop es count rest w' ∧
      w'.holdsPrefix (bits ++ more) ∧ w'.emit = w.emit := by
  induction more generalizing w bits with
  | nil => exact ⟨w, rfl, by simpa using h, rfl⟩
  | cons b more ih =>
    have hp32 := (hes.good p hp).2.1
    have e : bits ++ b :: more = (bits ++ [b]) ++ more := by simp
    rw [e] at hpre hlen
    have hl1 : (bits ++ [b]).length < p.2.len.toNat := by
      rw [List.length_append] at hlen; omega
    have hpre1 : bits ++ [b] <+: p.2.toBits := (List.prefix_append _ _).trans hpre
    have hw1 := Working.holdsPrefix_matchBit h (by rw [List.length_append] at hl1; omega) b
    obtain ⟨w', e1, e2, e3⟩ := ih hw1 (by simpa using hw) hpre hlen
    have hno : exactMatch es (w.matchBit b) = none := by
      refine (exactMatch_eq_none hes.good hw1).mpr fun q hq hqb => ?_
      by_cases hqp : q.1 = p.1
      · have := hes.once q hq p hp hqp
        subst this
        rw [← hqb, CodeEntry.toBits_length] at hl1
        exact Nat.lt_irrefl _ hl1
      · exact hes.free q hq p hp hqp (hqb ▸ hpre1)
    have hext : extendable es (w.matchBit b) = true :=
      (extendable_iff es hw1).mpr ⟨p, hp, hpre1, hl1⟩
    refine ⟨w', ?_, by rw [e]; exact e2, by simpa using e3⟩
    rw [List.cons_append, matchLoop, if_pos hw, hno]
    simp only [hext, if_true]
    exact e1

/-- Reading a whole code emits its symbol and starts again from the empty prefix. -/
theorem matchLoop_code {es : List (Byte × CodeEntry)} (hes : MatchTable es) {count : Word32}
    {p : Byte × CodeEntry} (hp : p ∈ es) (rest : Bits) {w : Working} (h : w.holdsPrefix [])
    (hw : w.emit.toNat < count.toNat) :
    ∃ w', w'.holdsPrefix [] ∧ w'.emit.toNat = w.emit.toNat + 1 ∧
      matchLoop es count (p.2.toBits ++ rest) w =
        match matchLoop es count rest w' with
        | .error r => .error r
        | .ok (out, w'') => .ok (p.1 :: out, w'') := by
  have hg := hes.good p hp
  have hl := CodeEntry.toBits_length p.2
  have hne : p.2.toBits ≠ [] := fun e => by rw [e] at hl; simp at hl; have := hg.1; omega
  have hsplit : p.2.toBits = p.2.toBits.dropLast ++ [p.2.toBits.getLast hne] :=
    (List.dropLast_append_getLast hne).symm
  have hdl : p.2.toBits.dropLast.length + 1 = p.2.len.toNat := by
    rw [List.length_dropLast, hl]; have := hg.1; omega
  obtain ⟨v, e1, e2, e3⟩ := matchLoop_prefix hes hp p.2.toBits.dropLast
    ([p.2.toBits.getLast hne] ++ rest) h hw (by simpa using List.dropLast_prefix _) (by simp only [List.nil_append]; omega)
  have hv := Working.holdsPrefix_matchBit e2
    (by simp only [List.nil_append]; have := hg.2.1; omega) (p.2.toBits.getLast hne)
  rw [List.nil_append, ← hsplit] at hv
  refine ⟨(v.matchBit (p.2.toBits.getLast hne)).emitted, ?_, ?_, ?_⟩
  · exact Working.holdsPrefix_nil rfl rfl
  · have := count.isLt
    simp only [Working.emitted, Working.matchBit_emit, e3, BitVec.toNat_add, BitVec.toNat_ofNat]
    omega
  · conv_lhs => rw [hsplit, List.append_assoc]
    rw [e1, List.singleton_append, matchLoop, if_pos (by rw [e3]; exact hw),
      exactMatch_eq_some hes hp hv]
    all_goals rfl

/-- Reading a list of codes emits their symbols. -/
theorem matchLoop_codes {es : List (Byte × CodeEntry)} (hes : MatchTable es) {count : Word32}
    (chosen : List (Byte × CodeEntry)) (hc : ∀ p ∈ chosen, p ∈ es) (rest : Bits) {w : Working}
    (h : w.holdsPrefix []) (hw : w.emit.toNat + chosen.length ≤ count.toNat) :
    ∃ w', w'.holdsPrefix [] ∧ w'.emit.toNat = w.emit.toNat + chosen.length ∧
      matchLoop es count (chosen.flatMap (fun p => p.2.toBits) ++ rest) w =
        match matchLoop es count rest w' with
        | .error r => .error r
        | .ok (out, w'') => .ok (chosen.map (fun p => p.1) ++ out, w'') := by
  induction chosen generalizing w with
  | nil =>
    refine ⟨w, h, rfl, ?_⟩
    simp only [List.flatMap_nil, List.nil_append, List.map_nil]
    cases matchLoop es count rest w <;> rfl
  | cons p ps ih =>
    simp only [List.length_cons] at hw
    have hlt : w.emit.toNat < count.toNat := by omega
    obtain ⟨v, v1, v2, v3⟩ := matchLoop_code hes (hc p List.mem_cons_self)
      (ps.flatMap (fun p => p.2.toBits) ++ rest) h hlt
    obtain ⟨u, u1, u2, u3⟩ := ih (fun q hq => hc q (List.mem_cons_of_mem _ hq)) v1
      (show v.emit.toNat + ps.length ≤ count.toNat by omega)
    refine ⟨u, u1, by simp only [List.length_cons]; omega, ?_⟩
    rw [List.flatMap_cons, List.append_assoc, v3, u3]
    cases matchLoop es count rest u <;> rfl

/-- The matcher stops at once when the count is reached, whatever bits are left. -/
theorem matchLoop_done (es : List (Byte × CodeEntry)) {count : Word32} (bits : Bits) {w : Working}
    (h : count.toNat ≤ w.emit.toNat) : matchLoop es count bits w = .ok ([], w) := by
  cases bits <;> simp [matchLoop, Nat.not_lt.mpr h]

/-- A match that does not fault emits exactly as many symbols as were missing. -/
theorem matchLoop_length {es : List (Byte × CodeEntry)} {count : Word32} {bits : Bits} {w w' : Working}
    {out : List Byte} (h : matchLoop es count bits w = .ok (out, w'))
    (hw : w.emit.toNat ≤ count.toNat) : w.emit.toNat + out.length = count.toNat := by
  induction bits generalizing w out with
  | nil =>
    simp only [matchLoop] at h
    split at h
    · cases h
    · cases h; simp; omega
  | cons b rest ih =>
    rw [matchLoop] at h
    split at h
    · rename_i hlt
      split at h
      · split at h
        · cases h
        · rename_i out' w'' hm
          cases h
          have hc := count.isLt
          have he : (w.matchBit b).emitted.emit.toNat = w.emit.toNat + 1 := by
            simp only [Working.emitted, Working.matchBit_emit, BitVec.toNat_add, BitVec.toNat_ofNat]
            omega
          have := ih hm (by omega)
          simp only [List.length_cons]; omega
      · split at h
        · have := ih h (by simpa using hw)
          simpa using this
        · cases h
    · cases h; simp; omega

end Sys2Proof.Machine
end

