-- ==== Sys2Proof/Laws/Codec.lean ====
section
/-! SUPPORT. The container parser on well-formed fields, the working state of a command start, and DECODE as
its parts. -/

namespace Sys2Proof.Machine

/-- The table a command start leaves holds no code (10_state R24). -/
@[simp] theorem start_code_at (w : Working) (s : Byte) :
    SymbolTable.at w.start.code s = { len := 0#6, bits := 0#32 } := SymbolTable.at_replicate _ s

@[simp] theorem start_freq_at (w : Working) (s : Byte) : SymbolTable.at w.start.freq s = 0#32 :=
  SymbolTable.at_replicate _ s

/-- The fields after the table, when they are legal (45_codec_commands R107, steps d to i). -/
theorem parseTail_good (count : Word32) (table : CodeTable) (entries : Nat) (usable : Byte)
    (payload : List Byte) (hl : payload.length < 2 ^ 32) (hu : usable.toNat ≤ 8)
    (h0 : usable.toNat = 0 ↔ payload = []) :
    parseTail count table entries (usable :: bytesBe32 (BitVec.ofNat 32 payload.length) ++ payload) =
      .ok { count := count, table := table, entries := entries, usable := usable, payload := payload } := by
  have hp : (BitVec.ofNat 32 payload.length).toNat = payload.length := by
    rw [BitVec.toNat_ofNat]; exact Nat.mod_eq_of_lt hl
  have hlen : payload = [] ↔ payload.length = 0 := List.length_eq_zero_iff.symm
  rw [hlen] at h0
  simp only [List.cons_append, parseTail, takeBe32_bytesBe32, hp]
  rw [if_neg (Nat.lt_irrefl _), if_neg (Nat.lt_irrefl _), if_neg (by omega)]

/-- The parser on a count and legal records, whatever follows: it goes on with the fields after the
table. -/
theorem parseContainer_records {records : List (Byte × CodeEntry)} {t : CodeTable} (count : Word32)
    (tail : List Byte) (ht : ∀ s, SymbolTable.at t s = { len := 0#6, bits := 0#32 })
    (hn : (records.map (fun p => p.1)).Nodup) (hg : ∀ p ∈ records, goodRecord p)
    (hf : ∀ p ∈ records, ∀ q ∈ records, p.1 ≠ q.1 → ¬ p.2.toBits <+: q.2.toBits) :
    parseContainer (bytesBe32 count ++ (bytesBe32 (BitVec.ofNat 32 records.length) ++
        (records.flatMap (fun p => recordBytes p.1 p.2) ++ tail))) t =
      parseTail count (tableOf t records) records.length tail := by
  rw [parseContainer, takeBe32_bytesBe32]
  simp only
  rw [deserialize_good tail ht hn hg hf]
  simp only
  congr 1
  · omega
  · rw [← List.append_assoc, List.drop_left']
    simp only [List.length_append, bytesBe32_length, flatMap_recordBytes_length]

/-- The parsed table is one the matcher can run on. -/
theorem matchTable_tableOf {records : List (Byte × CodeEntry)} {t : CodeTable}
    (ht : ∀ s, SymbolTable.at t s = { len := 0#6, bits := 0#32 })
    (hn : (records.map (fun p => p.1)).Nodup) (hg : ∀ p ∈ records, goodRecord p)
    (hf : ∀ p ∈ records, ∀ q ∈ records, p.1 ≠ q.1 → ¬ p.2.toBits <+: q.2.toBits) :
    MatchTable (CodeTable.entries (tableOf t records)) where
  good p hp := hg p ((mem_entries_tableOf ht hn hg p).mp hp)
  once p hp q hq h := by
    have hp' := (CodeTable.mem_entries _ p.1 p.2).mp hp
    have hq' := (CodeTable.mem_entries _ q.1 q.2).mp hq
    exact Prod.ext h (by rw [hp'.1, hq'.1, h])
  free p hp q hq h :=
    hf p ((mem_entries_tableOf ht hn hg p).mp hp) q ((mem_entries_tableOf ht hn hg q).mp hq) h

/-- DECODE once the Container has been parsed (45_codec_commands R106). -/
theorem decodeInput_parsed {outCap : Nat} {input : List Byte} {w : Working} {p : Parsed}
    (h : parseContainer input w.code = .ok p) (h0 : p.entries ≠ 0) (hc : p.count.toNat ≤ outCap) :
    decodeInput outCap input w =
      match matchLoop (CodeTable.entries p.table) p.count (unpack p.payload p.usable)
          { w with code := p.table, curLen := 0#6, curBits := 0#32, emit := 0#32 } with
      | .error r => .error r
      | .ok (out, _) => .ok out := by
  rw [decodeInput, h]
  simp only
  rw [if_neg h0, if_neg (Nat.not_lt.mpr hc)]
  rfl

/-- What `deserialize` consumes when it does not fault: the count field and its records. -/
theorem deserialize_consumed {bytes : List Byte} {t table : CodeTable} {consumed : Nat}
    (h : deserialize bytes t = .ok (table, consumed)) :
    ∃ c rest, takeBe32 bytes = some (c, rest) ∧ consumed = 4 + 6 * c.toNat := by
  unfold deserialize at h
  split at h
  · cases h
  · rename_i c rest hc
    refine ⟨c, rest, hc, ?_⟩
    repeat' split at h
    all_goals cases h
    rfl

/-- The fields after the table leave the count, the table and its number of entries alone. -/
theorem parseTail_fields {count : Word32} {table : CodeTable} {entries : Nat} {bytes : List Byte} {p : Parsed}
    (h : parseTail count table entries bytes = .ok p) : p.count = count ∧ p.entries = entries := by
  unfold parseTail at h
  repeat' split at h
  all_goals cases h
  exact ⟨rfl, rfl⟩

/-- The two count fields a parse that does not fault has read (45_codec_commands R107). -/
theorem parseContainer_fields {input : List Byte} {t : CodeTable} {p : Parsed}
    (h : parseContainer input t = .ok p) :
    ∃ c rest rest', takeBe32 input = some (p.count, rest) ∧ takeBe32 rest = some (c, rest') ∧
      p.entries = c.toNat := by
  unfold parseContainer at h
  split at h
  · cases h
  rename_i count rest hcount
  split at h
  · cases h
  rename_i table consumed hd
  obtain ⟨c, rest', hc, rfl⟩ := deserialize_consumed hd
  obtain ⟨rfl, hentries⟩ := parseTail_fields h
  exact ⟨c, rest, rest', hcount, hc, by omega⟩

/-- A DECODE that does not fault gives nothing when the table is empty, and otherwise exactly as many bytes
as the count, which fits OUT (45_codec_commands R108, R110). -/
theorem decodeInput_length {outCap : Nat} {input : List Byte} {w : Working} {out : List Byte}
    (h : decodeInput outCap input w = .ok out) :
    ∃ count c rest rest', takeBe32 input = some (count, rest) ∧ takeBe32 rest = some (c, rest') ∧
      (c.toNat = 0 → out = []) ∧
      (c.toNat ≠ 0 → out.length = count.toNat ∧ count.toNat ≤ outCap) := by
  cases hp : parseContainer input w.code with
  | error r => rw [decodeInput, hp] at h; cases h
  | ok p =>
    obtain ⟨c, rest, rest', hcount, hc, he⟩ := parseContainer_fields hp
    refine ⟨p.count, c, rest, rest', hcount, hc, ?_⟩
    rw [← he]
    by_cases h0 : p.entries = 0
    · rw [decodeInput, hp] at h
      simp only [if_pos h0] at h
      cases h
      exact ⟨fun _ => rfl, fun hne => absurd h0 hne⟩
    refine ⟨fun h0' => absurd h0' h0, fun _ => ?_⟩
    by_cases hcap : outCap < p.count.toNat
    · rw [decodeInput, hp] at h
      simp only [if_neg h0, if_pos hcap] at h
      cases h
    rw [decodeInput_parsed hp h0 (Nat.not_lt.mp hcap)] at h
    split at h
    · cases h
    · rename_i out' w' hm
      cases h
      have hl := matchLoop_length hm (Nat.zero_le _)
      exact ⟨by simpa using hl, Nat.not_lt.mp hcap⟩

end Sys2Proof.Machine
end

