-- ==== Sys2Proof/Laws/Counter.lean ====
section
/-! SUPPORT. The frequency counter: what the pass over the input leaves in FREQ, and the present symbols. -/

namespace Sys2Proof.Machine

theorem FreqTable.bump_at (f : FreqTable) (s x : Byte) :
    SymbolTable.at (FreqTable.bump f s) x =
      if x = s then SymbolTable.at f x + 1#32 else SymbolTable.at f x := by
  rw [FreqTable.bump, SymbolTable.at_put]
  split
  · next h => rw [h]
  · rfl

/-- The counting pass adds the number of occurrences, from whatever FREQ held. -/
theorem FreqTable.foldl_bump_at (input : List Byte) (f : FreqTable) (x : Byte) :
    SymbolTable.at (input.foldl FreqTable.bump f) x =
      SymbolTable.at f x + BitVec.ofNat 32 (input.count x) := by
  induction input generalizing f with
  | nil => simp
  | cons s rest ih =>
    rw [List.foldl_cons, ih, FreqTable.bump_at, List.count_cons]
    by_cases h : x = s
    · subst h
      simp only [if_true, beq_self_eq_true]
      rw [BitVec.ofNat_add, BitVec.add_assoc, BitVec.add_comm 1#32]
    · rw [if_neg h, if_neg (by simpa using Ne.symm h), Nat.add_zero]

/-- FREQ after `count`, from an all-zero table. -/
theorem Working.count_freq_at {w : Working} (h : ∀ x, SymbolTable.at w.freq x = 0#32) (input : List Byte)
    (x : Byte) : SymbolTable.at (w.count input).freq x = BitVec.ofNat 32 (input.count x) := by
  show SymbolTable.at (input.foldl FreqTable.bump w.freq) x = _
  rw [FreqTable.foldl_bump_at, h, BitVec.zero_add]

/-- K counts the present symbols. -/
theorem Working.count_k (w : Working) (input : List Byte) :
    (w.count input).k = BitVec.ofNat 9 (FreqTable.present (w.count input).freq).length := rfl

/-- `count` writes FREQ and K alone. -/
theorem Working.count_frame (w : Working) (input : List Byte) :
    w.count input = { w with freq := (w.count input).freq, k := (w.count input).k } := rfl

/-- Inputs with equal counts give equal working states. -/
theorem Working.count_congr (w : Working) {input input' : List Byte}
    (h : ∀ x, input.count x = input'.count x) : w.count input = w.count input' := by
  have hf : input.foldl FreqTable.bump w.freq = input'.foldl FreqTable.bump w.freq :=
    SymbolTable.ext_at fun x => by rw [FreqTable.foldl_bump_at, FreqTable.foldl_bump_at, h]
  simp only [Working.count, hf]

end Sys2Proof.Machine
end

