-- ==== Sys2Proof/Laws/PerInstr.lean ====
section
/-! SUPPORT. Statements made per instruction: that every command has a one-byte command word which the
decoder gives back (30_encoding R46, R49). -/

/-- The instruction is well formed, its command word is one byte, and the decoder reads it from that byte,
also under the numbering of the opcode table. -/
def Sys2Proof.Laws.CommandWord.Statement (i : Sys2Proof.Instr) : Prop :=
  i.wf = true ∧ ∃ op : Sys2Proof.Byte, Sys2Proof.encode i = [op] ∧
    Sys2Proof.decode [op] = .ok (i, []) ∧ Sys2Proof.decodeTableWord 8 op.toNat = some i

theorem Sys2Proof.Laws.CommandWord.encode : Sys2Proof.Laws.CommandWord.Statement .encode :=
  ⟨rfl, 0x01#8, rfl, rfl, rfl⟩

theorem Sys2Proof.Laws.CommandWord.decode : Sys2Proof.Laws.CommandWord.Statement .decode :=
  ⟨rfl, 0x02#8, rfl, rfl, rfl⟩
end

