-- ==== Sys2Proof/Laws/Tree.lean ====
section
/-! SUPPORT. The priority queue and the parts of `build`, each said once. -/

namespace Sys2Proof.Machine

/-- The order of the queue, in numbers. -/
theorem keyBefore_iff (nodes : List Node) (i j : ArenaIndex) :
    keyBefore nodes i j = true ↔
      (weightAt nodes i).toNat < (weightAt nodes j).toNat ∨
        ((weightAt nodes i).toNat = (weightAt nodes j).toNat ∧ i.toNat < j.toNat) := by
  simp [keyBefore, BitVec.toNat_inj]

/-- Two different members have different keys, so one comes first. -/
theorem keyBefore_total (nodes : List Node) {i j : ArenaIndex} (h : i ≠ j) :
    keyBefore nodes i j = true ∨ keyBefore nodes j i = true := by
  rw [keyBefore_iff, keyBefore_iff]
  have : i.toNat ≠ j.toNat := fun hh => h (BitVec.eq_of_toNat_eq hh)
  omega

theorem keyBefore_trans {nodes : List Node} {i j k : ArenaIndex} (h1 : keyBefore nodes i j = true)
    (h2 : keyBefore nodes j k = true) : keyBefore nodes i k = true := by
  rw [keyBefore_iff] at *
  omega

/-- The minimum is a member, and comes before every other member. -/
theorem pqMin_least (nodes : List Node) (m : ArenaIndex) (rest : List ArenaIndex) :
    pqMin nodes m rest ∈ m :: rest ∧
      ∀ i ∈ m :: rest, i ≠ pqMin nodes m rest → keyBefore nodes (pqMin nodes m rest) i = true := by
  induction rest generalizing m with
  | nil => simp [pqMin]
  | cons j rest ih =>
    rw [pqMin]
    obtain ⟨h1, h2⟩ := ih (if keyBefore nodes j m then j else m)
    refine ⟨?_, fun i hi hne => ?_⟩
    · rcases List.mem_cons.mp h1 with h | h
      · rw [h]; split <;> simp
      · exact List.mem_cons_of_mem _ (List.mem_cons_of_mem _ h)
    · by_cases hk : keyBefore nodes j m = true
      · simp only [hk, if_true] at h2 hne ⊢
        rcases List.mem_cons.mp hi with rfl | hi
        · by_cases hj : j = pqMin nodes j rest
          · rw [← hj]; exact hk
          · exact keyBefore_trans (h2 j (by simp) hj) hk
        · exact h2 i hi hne
      · simp only [hk, Bool.false_eq_true, if_false] at h2 hne ⊢
        rcases List.mem_cons.mp hi with rfl | hi
        · exact h2 i (by simp) hne
        · rcases List.mem_cons.mp hi with rfl | hi
          · by_cases hmi : i = m
            · exact h2 i (by simp [hmi]) hne
            have hmk : keyBefore nodes m i = true := (keyBefore_total nodes hmi).resolve_left hk
            by_cases hm : m = pqMin nodes m rest
            · rw [← hm]; exact hmk
            · exact keyBefore_trans (h2 m (by simp) hm) hmk
          · exact h2 i (List.mem_cons_of_mem _ hi) hne

/-- Everything PQ_INSERT does. -/
theorem mem_pqInsert (i j : ArenaIndex) (pq : List ArenaIndex) : j ∈ pqInsert i pq ↔ j ∈ pq ∨ j = i := by
  unfold pqInsert
  split <;> rename_i h
  · refine ⟨.inl, ?_⟩
    rintro (h' | rfl) <;> assumption
  · simp

theorem pqInsert_nodup {i : ArenaIndex} {pq : List ArenaIndex} (h : pq.Nodup) : (pqInsert i pq).Nodup := by
  unfold pqInsert
  split <;> rename_i hi
  · exact h
  · rw [List.nodup_append]
    refine ⟨h, by simp, fun a ha b hb => ?_⟩
    simp only [List.mem_singleton] at hb
    subst hb
    rintro rfl
    exact hi ha

/-- The arena entries phase 1 appends, in order, and what it leaves alone. -/
theorem foldl_addLeaf_node (ps : List (Byte × Word32)) (w : Working) :
    (ps.foldl Working.addLeaf w).node = w.node ++ ps.map (fun p => Node.leaf p.1 p.2) ∧
      ps.foldl Working.addLeaf w =
        { w with node := (ps.foldl Working.addLeaf w).node, pq := (ps.foldl Working.addLeaf w).pq } := by
  induction ps generalizing w with
  | nil => simp
  | cons p ps ih =>
    rw [List.foldl_cons]
    obtain ⟨h1, h2⟩ := ih (w.addLeaf p)
    refine ⟨?_, ?_⟩
    · rw [h1]; simp [Working.addLeaf, Working.append]
    · exact h2

end Sys2Proof.Machine
end

