-- ==== Sys2Proof/Tests/Slice0.lean ====
section
/-! SUPPORT. The model's own tests: expected results from 95_test_vectors and 30_encoding, and for every
statement with hypotheses a concrete state and operands that meet them together. -/

namespace Sys2Proof.Tests

open Sys2Proof Sys2Proof.Machine

/-! ### Small states -/

/-- The capacities of the programs of 95_test_vectors, Part 3. -/
def small : Config := { inCap := 64, outCap := 64, regBase := 0, inBase := 0, outBase := 0 }

/-- `op` latched, BUSY = 1, the bytes in IN, and a script. -/
def running (c : Config) (op : Byte) (bytes : List Byte) (script : List HostAction) : State :=
  { State.resetOf c with
    cmd := op
    status := 0x01#8
    inBuf := Memory.ofBytes 0 bytes
    inLen := BitVec.ofNat 64 bytes.length
    script := script }

/-- Idle after reset, with a script. -/
def idle (script : List HostAction) : State := { State.resetOf small with script := script }

/-- What the host can see of a command's end. -/
structure Seen where
  status : Nat
  errcode : Nat
  errinfo : Nat
  outLen : Nat
  out : List Nat
  deriving DecidableEq, Repr

/-- What the host can see of a state. -/
def seen : Host.Outcome State Fault Refusal → Option Seen
  | .next t => some ⟨t.status.toNat, t.errcode.toNat, t.errinfo.toNat, t.outLen.toNat,
      t.outBuf.map (fun c => c.2.toNat)⟩
  | _ => none

/-- A state after a step, for reading one field of it. -/
def stateOf : Host.Outcome State Fault Refusal → State
  | .next t => t
  | _ => State.reset

theorem running_input (c : Config) (op : Byte) (bytes : List Byte) (script : List HostAction)
    (h : bytes.length < 2 ^ 64) : (running c op bytes script).input = bytes := by
  have hl : (BitVec.ofNat 64 bytes.length).toNat = bytes.length := by
    rw [BitVec.toNat_ofNat, Nat.mod_eq_of_lt h]
  apply List.ext_getElem
  · simp [State.input, running, hl]
  · intro i h1 h2
    simp [State.input, running, State.inRead, Memory.read_ofBytes, List.getElem?_eq_getElem h2]

theorem running_inv (op : Byte) (bytes : List Byte) (script : List HostAction) (h : bytes.length ≤ 64) :
    (running small op bytes script).Inv where
  cfgWf := (by decide : small.wf = true)
  inWf := Memory.ofBytes_wf 0 bytes
  outWf := List.Pairwise.nil
  inBound x hx := by
    have := List.mem_map_of_mem (f := fun c : Host.Cell => c.1) hx
    rw [running, Memory.ofBytes_offsets] at this
    simp only [List.mem_range'_1, running, State.resetOf, small] at *
    omega
  statusLegal := .inr (.inl rfl)
  noResult _ := ⟨rfl, rfl⟩
  outListed h := by cases h
  outFits := Nat.zero_le _
  noError _ := ⟨rfl, rfl⟩
  error h := by cases h

/-! ### Well-formedness -/

/-- 00_scope R5: each bound on its own. -/
theorem test_wf_refuses_each_bound :
    small.wf = true ∧ { small with inCap := 12 }.wf = false ∧ { small with outCap := 12 }.wf = false ∧
      { small with inCap := 2 ^ 64 }.wf = false ∧ { small with outCap := 2 ^ 64 }.wf = false ∧
      { small with inCap := 13, outCap := 13 }.wf = true ∧ Config.largest.wf = true := by decide

theorem test_wf_every_instruction : Instr.encode.wf = true ∧ Instr.decode.wf = true := by decide

/-! ### Decoding: words written from 30_encoding R49, R50 -/

theorem test_decode_ENCODE_word : decode [0b00000001#8, 0xAA#8] = .ok (.encode, [0xAA#8]) := by decide

theorem test_decode_DECODE_word : decode [0b00000010#8] = .ok (.decode, []) := by decide

theorem test_decode_refuses_by_name :
    decode [0x00#8] = .error (.illegalCommand 0x00#8) ∧ decode [0x80#8] = .error (.illegalCommand 0x80#8) ∧
      decode [0xFF#8] = .error (.illegalCommand 0xFF#8) ∧ decode [] = .error .noWord := by decide

theorem test_table_words : decodeTableWord 8 1 = some .encode ∧ decodeTableWord 8 2 = some .decode ∧
    decodeTableWord 8 3 = none ∧ decodeTableWord 16 1 = none := by decide

/-- A step from the placed word runs it as the first command after reset (V1, V70 of 95_test_vectors). -/
theorem test_placed_words_run_first :
    seen (step (State.reset.withFetchWord 8 1)) = some ⟨2, 0, 0, 13, List.replicate 13 0⟩ ∧
      seen (step (State.reset.withFetchWord 8 2)) = some ⟨6, 1, 1, 0, []⟩ ∧
      seen (step (State.reset.withFetchWord 8 3)) = some ⟨6, 5, 0, 0, []⟩ := by decide +kernel

/-! ### The two commands -/

/-- V10: `aabbc`. -/
theorem test_encode_V10 :
    seen (exec .encode (running small 0x01#8 [0x61, 0x61, 0x62, 0x62, 0x63] [])) =
      some ⟨2, 0, 0, 32, [0x00, 0x00, 0x00, 0x05, 0x00, 0x00, 0x00, 0x03, 0x61, 0x02, 0xC0, 0x00, 0x00,
        0x00, 0x62, 0x01, 0x00, 0x00, 0x00, 0x00, 0x63, 0x02, 0x80, 0x00, 0x00, 0x00, 0x08, 0x00, 0x00,
        0x00, 0x01, 0xF2]⟩ := by decide +kernel

/-- V103: one byte of OUT too few for V15. -/
theorem test_encode_V103 :
    seen (exec .encode (running { small with outCap := 19 } 0x01#8 [0x61] [])) = some ⟨6, 4, 0, 0, []⟩ := by
  decide +kernel

/-- V67: bits beyond the count are ignored. -/
theorem test_decode_V67 :
    seen (exec .decode (running small 0x02#8 [0x00, 0x00, 0x00, 0x02, 0x00, 0x00, 0x00, 0x02, 0x61, 0x01,
        0x00, 0x00, 0x00, 0x00, 0x62, 0x01, 0x80, 0x00, 0x00, 0x00, 0x08, 0x00, 0x00, 0x00, 0x02, 0x40,
        0xFF] [])) = some ⟨2, 0, 0, 2, [0x61, 0x62]⟩ := by decide +kernel

/-- V93: the bits end inside the code `110`. -/
theorem test_decode_V93 :
    seen (exec .decode (running small 0x02#8 [0x00, 0x00, 0x00, 0x02, 0x00, 0x00, 0x00, 0x02, 0x61, 0x01,
        0x00, 0x00, 0x00, 0x00, 0x62, 0x03, 0xC0, 0x00, 0x00, 0x00, 0x03, 0x00, 0x00, 0x00, 0x01, 0x60] [])) =
      some ⟨6, 1, 12, 0, []⟩ := by decide +kernel

/-! ### Units -/

/-- V24: the arena of `abracadabra`. -/
theorem test_build_V24 :
    (treeOf [0x61, 0x62, 0x72, 0x61, 0x63, 0x61, 0x64, 0x61, 0x62, 0x72, 0x61]).node =
      [.leaf 0x61 5, .leaf 0x62 2, .leaf 0x63 1, .leaf 0x64 1, .leaf 0x72 2, .internal 2 2 3,
        .internal 4 1 4, .internal 6 5 6, .internal 11 0 7] := by decide +kernel

/-- V43 and V46. -/
theorem test_pack_V43_unpack_V46 :
    (Working.init.pack (List.replicate 9 true)).1 = [0xFF#8, 0x80#8] ∧
      (Working.init.pack (List.replicate 9 true)).2.1 = 1#8 ∧
      unpack [0xB7#8] 5#8 = [true, false, true, true, false] := by decide

/-- The table with the two deepest codes of V18 and V19: byte value i occurs F(i+1) times, for `n`
values. -/
def fibTable (n : Nat) : FreqTable :=
  Vector.ofFn (fun i : Fin 256 => if i.val < n then BitVec.ofNat 32 (Nat.fib (i.val + 1)) else 0#32)

/-- The working state `count` leaves for V18 (`n` = 33) and V19 (`n` = 34). -/
def fibWorking (n : Nat) : Working := { Working.init with freq := fibTable n, k := BitVec.ofNat 9 n }

/-- V18: length 32 is legal; the codes of symbols 00 and 01. -/
theorem test_codes_V18 :
    ((fibWorking 33).build.codes.toOption.map (fun w => (SymbolTable.at w.code 0#8, SymbolTable.at w.code 1#8))) =
      some ({ len := 32#6, bits := 0xFFFFFFFE#32 }, { len := 32#6, bits := 0xFFFFFFFF#32 }) := by
  decide +kernel

/-- V19: one symbol more is a fault. -/
theorem test_codes_V19 :
    (match (fibWorking 34).build.codes with
      | .error r => decide (r = .unrepresentableCodeLength)
      | .ok _ => false) = true := by decide +kernel

/-! ### The hypotheses of the statements can be met -/

/-- 30_encoding R49, R50: words that decode, and one that encodes nothing. -/
theorem test_hyp_DecodeAndEncodeAgreeOnEveryCommandWord :
    decode [0x02#8, 0x07#8] = .ok (.decode, [0x07#8]) ∧ decode [0x01#8] = .ok (.encode, []) ∧
      (∀ i, encode i ≠ [0x03#8]) ∧ ∀ i, encode i ≠ [0xFF#8] := by
  refine ⟨rfl, rfl, fun i => ?_, fun i => ?_⟩ <;> cases i <;> decide

theorem test_hyp_StepRunsTheDecodedCommand :
    (running small 0x01#8 [] []).busy = true ∧ decode [(running small 0x01#8 [] []).cmd] = .ok (.encode, []) ∧
      (running small 0x02#8 [] [.poll]).busy = true ∧
      decode [(running small 0x02#8 [] [.poll]).cmd] = .ok (.decode, []) ∧
      (running small 0x02#8 [] [.poll]).script = [.poll] ∧
      (running small 0x02#8 [] [.engineTurn]).script = [.engineTurn] ∧
      (running small 0x01#8 [] []).script = [] := by
  refine ⟨?_, ?_, ?_, ?_, rfl, rfl, rfl⟩ <;> decide

theorem test_hyp_IdleEngineDoesNothing : (idle []).busy = false ∧ (idle []).script = [] ∧
    (idle [.engineTurn]).busy = false ∧ (idle [.engineTurn]).script = [.engineTurn] :=
  ⟨rfl, rfl, rfl, rfl⟩

theorem test_hyp_IllegalCommandDoesNothingButFault :
    ∀ op ∈ [0x00#8, 0x03#8, 0xFF#8], ∀ script ∈ [[], [.poll, .readReg 2], [.engineTurn, .readReg 2]],
      (running small op [] script).busy = true ∧ (running small op [] script).script = script ∧
        (running small op [] script).cmd ≠ 0x01#8 ∧ (running small op [] script).cmd ≠ 0x02#8 := by decide

theorem test_hyp_ResetEventPutsTheBlockAtItsResetValues :
    (running small 0x01#8 [0x61] [.reset, .poll]).script = [.reset, .poll] := rfl

theorem test_hyp_RegisterFileReadsAndIgnoresAsStated :
    (∀ r ∈ [0, 1, 2, 3, 4, 5, 6], (idle [.readReg r]).script = [.readReg r]) ∧
      (∀ r ∈ [1, 2, 3, 5, 6], (idle [.writeReg r 9#64]).script = [.writeReg r 9#64]) ∧
      (idle [.writeReg 4 9#64]).busy = false ∧ (idle [.writeReg 4 9#64]).script = [.writeReg 4 9#64] :=
  ⟨fun _ _ => rfl, fun _ _ => rfl, rfl, rfl⟩

theorem test_hyp_CmdWriteStartsACommand : ∀ c : BitVec 8,
    (idle [.writeReg 0 (c.setWidth 64), .poll]).busy = false ∧
      (idle [.writeReg 0 (c.setWidth 64), .poll]).script = [.writeReg 0 (c.setWidth 64), .poll] :=
  fun _ => ⟨by simp [State.busy, idle, State.resetOf], rfl⟩

theorem test_hyp_InHoldsTheByteLastWritten : ∀ a ∈ [0, 63], a < (idle [.writeIn a 7#8]).cfg.inCap ∧
    (idle [.writeIn a 7#8]).busy = false ∧ (idle [.writeIn a 7#8]).script = [.writeIn a 7#8] ∧
    a < (idle [.readIn a]).cfg.inCap ∧ (idle [.readIn a]).script = [.readIn a] := by decide

/-- Each access with BUSY = 0 and with BUSY = 1. -/
theorem test_hyp_AccessesOutsideTheBuffersAreRefused :
    ∀ x ∈ [HostAction.writeIn 64 7#8, .readIn 64, .readOut 64, .writeOut 0 7#8],
      small.inCap ≤ 64 ∧ small.outCap ≤ 64 ∧
        (idle [x]).cfg = small ∧ (idle [x]).busy = false ∧ (idle [x]).script = [x] ∧
        (running small 0x01#8 [] [x]).cfg = small ∧ (running small 0x01#8 [] [x]).busy = true ∧
        (running small 0x01#8 [] [x]).script = [x] := by decide

theorem test_hyp_HazardousAccessesWhileBusyAreRefused :
    ∀ x ∈ [HostAction.writeReg 0 1#64, .writeReg 4 1#64, .writeIn 0 7#8, .readOut 0, .readReg 0, .readReg 1,
      .readReg 2, .readReg 3, .readReg 4, .readReg 5, .readIn 0, .readIn 63],
      (running small 0x01#8 [0x61] [x]).Inv ∧ (running small 0x01#8 [0x61] [x]).busy = true ∧
        (running small 0x01#8 [0x61] [x]).script = [x] :=
  fun x _ => ⟨running_inv _ _ _ (by decide), by simp [State.busy, running], rfl⟩

/-- A state that finished with the byte 61 as its result. -/
theorem test_hyp_OutReadsReturnTheResult :
    ((running small 0x02#8 [] [.readOut 0]).complete [0x61#8]).finishedWith [0x61#8] ∧
      0 < ((running small 0x02#8 [] [.readOut 0]).complete [0x61#8]).cfg.outCap ∧
      [0x61#8][0]? = some 0x61#8 ∧
      ((running small 0x02#8 [] [.readOut 0]).complete [0x61#8]).script = [.readOut 0] :=
  ⟨complete_finishedWith _ _ (by decide), by decide, rfl, rfl⟩

theorem test_hyp_ReadsAreIdempotent : ∀ x ∈ [HostAction.readReg 5, .readIn 63, .readOut 63],
    ((∃ r, x = .readReg r) ∨ (∃ a, x = .readIn a) ∨ (∃ a, x = .readOut a)) ∧ x.allowed (idle [x, x]) ∧
      (idle [x, x]).script = x :: x :: [] := by
  intro x hx
  simp only [List.mem_cons, List.not_mem_nil, or_false] at hx
  rcases hx with rfl | rfl | rfl <;>
    simp [HostAction.allowed, idle, State.resetOf, small, State.busy]

/-- Both sides of the equivalence occur: an allowed action and one without meaning. -/
theorem test_hyp_StepStopsExactlyOnAnAccessWithoutMeaning :
    HostAction.poll.allowed (idle [.poll]) ∧ ¬ (HostAction.readReg 6).allowed (idle [.readReg 6]) :=
  ⟨trivial, by simp [HostAction.allowed]⟩

theorem test_hyp_PollingHostSeesTheCommandFinish :
    (running small 0x01#8 [] [.poll, .readReg 1]).busy = true ∧
      (running small 0x01#8 [] [.poll, .readReg 1]).script = [.poll, .readReg 1] := ⟨rfl, rfl⟩

theorem test_hyp_ResetStateMeetsTheInvariant :
    small.wf = true ∧ { small with inCap := 13, outCap := 13 }.wf = true := by decide

theorem test_hyp_EveryStepKeepsTheInvariant : (running small 0x03#8 [] []).Inv ∧
    ∃ t, step (running small 0x03#8 [] []) = .next t := ⟨running_inv _ _ _ (by decide), _, rfl⟩

/-- Each clause: a step that changes CMD, IN_LEN, IN. -/
theorem test_hyp_OnlyTheHostChangesTheInputSide :
    (∃ t, step (idle [.writeReg 0 1#64]) = .next t ∧ t.cmd ≠ (idle [.writeReg 0 1#64]).cmd) ∧
      (∃ t, step (idle [.writeReg 4 1#64]) = .next t ∧ t.inLen ≠ (idle [.writeReg 4 1#64]).inLen) ∧
      ∃ b : Byte, ∃ t, step (idle [.writeIn 63 b]) = .next t ∧ t.inRead 63 ≠ (idle [.writeIn 63 b]).inRead 63 := by
  refine ⟨⟨_, rfl, by decide⟩, ⟨_, rfl, by decide⟩, Config.freeInByte 0 63 + 1#8, _, rfl, ?_⟩
  intro h
  have : Config.freeInByte 0 63 + 1#8 = Config.freeInByte 0 63 := h
  bv_omega

theorem test_hyp_BusyRisesAndFallsOnlyAsStated :
    (∃ t, step (idle [.writeReg 0 1#64]) = .next t ∧ (idle [.writeReg 0 1#64]).busy = false ∧ t.busy = true) ∧
      ∃ t, step (running small 0x03#8 [] []) = .next t ∧ (running small 0x03#8 [] []).busy = true ∧
        t.busy = false :=
  ⟨⟨_, rfl, rfl, rfl⟩, _, rfl, rfl, rfl⟩

/-- Two states that agree on the command's inputs and differ in the working state and the codes. -/
theorem test_hyp_ResultDependsOnTheCommandInputsAlone :
    ∃ s u : State, s ≠ u ∧ s.work ≠ u.work ∧ s.inLen = u.inLen ∧ s.cfg.inCap = u.cfg.inCap ∧
      s.cfg.outCap = u.cfg.outCap ∧ ∀ a, a < s.inLen.toNat → s.inRead a = u.inRead a :=
  ⟨running small 0x01#8 [0x61] [], { running small 0x01#8 [0x61] [] with
      work := { Working.init with root := 5#9 }, errcode := 3#8 }, fun h => by
        have := congrArg State.errcode h
        revert this; decide, fun h => by
        have := congrArg Working.root h
        revert this; decide, rfl, rfl, rfl, fun _ _ => rfl⟩

theorem test_hyp_CommandEndsWithItsWholeResultOrNone : (running small 0x01#8 [] []).cfg.wf = true := by decide

theorem test_hyp_CountCountsEverySymbol : (∀ x, SymbolTable.at Working.init.freq x = 0#32) ∧
    ([] : List Byte).length ≤ 2 ^ 32 - 1 ∧ [0xFF#8, 0xFF#8, 0x00#8].length ≤ 2 ^ 32 - 1 :=
  ⟨fun x => SymbolTable.at_replicate _ x, by decide, by decide⟩

theorem test_hyp_ExtractMinTakesTheLeastKey : ([2#9, 0#9] : List ArenaIndex).Nodup ∧
    ([2#9, 0#9] : List ArenaIndex) ≠ [] ∧ ([1#9] : List ArenaIndex).Nodup ∧ ([1#9] : List ArenaIndex) ≠ [] := by
  decide

/-- Two leaves of weight 1 (V5), before the merge. -/
theorem test_hyp_MergeJoinsTheTwoLightestNodes :
    ∃ w : Working, w.pq.Nodup ∧ 2 ≤ w.pq.length ∧ (∀ i ∈ w.pq, i.toNat < w.nnodes) ∧ w.nnodes < 511 :=
  ⟨{ Working.init with node := [.leaf 0x61 1, .leaf 0x62 1], pq := [0#9, 1#9] }, by decide⟩

/-- One symbol (V15), two (V6), and V24: leaves, internal entries and a non-root entry. -/
theorem test_hyp_BuildMakesAStrictBinaryTree :
    [0x61#8] ≠ [] ∧ [0x61#8].length ≤ 2 ^ 32 - 1 ∧ [0x61#8, 0x61#8, 0x62#8].length ≤ 2 ^ 32 - 1 ∧
      (distinctSymbols [0x61#8, 0x61#8, 0x62#8])[1]? = some 0x62#8 ∧
      (distinctSymbols [0x61#8, 0x61#8, 0x62#8]).length ≤ 2 ∧ 2 < (treeOf [0x61#8, 0x61#8, 0x62#8]).nnodes ∧
      1 < (treeOf [0x61#8, 0x61#8, 0x62#8]).root.toNat := by decide +kernel

theorem test_hyp_WeightsAddUpWithoutOverflow :
    [0x61#8, 0x61#8, 0x62#8] ≠ [] ∧ [0x61#8, 0x61#8, 0x62#8].length ≤ 2 ^ 32 - 1 ∧
      (treeOf [0x61#8, 0x61#8, 0x62#8]).node[2]? = some (.internal 3 1 0) ∧
      (treeOf [0x61#8, 0x61#8, 0x62#8]).node[0]? = some (.leaf 0x61 2) := by decide +kernel

theorem exists_codes {w : Working} (h : w.codes.isOk = true) : ∃ w', w.codes = .ok w' := by
  cases hc : w.codes with
  | ok w' => exact ⟨w', rfl⟩
  | error r => rw [hc] at h; cases h

/-- `codes` succeeds on one symbol (V15) and on two (V6); the input of four statements. -/
theorem test_hyp_codes_succeed :
    (∃ w, (treeOf [0x61#8]).codes = .ok w) ∧ (∃ w, (treeOf [0x61#8, 0x61#8, 0x62#8]).codes = .ok w) ∧
      [0x61#8] ≠ [] ∧ [0x61#8, 0x61#8, 0x62#8] ≠ [] ∧ [0x61#8, 0x61#8, 0x62#8].length ≤ 2 ^ 32 - 1 :=
  ⟨exists_codes (by decide +kernel), exists_codes (by decide +kernel), by decide, by decide, by decide⟩

theorem test_hyp_CodesAreRootToLeafPaths : 2 ≤ (distinctSymbols [0x61#8, 0x61#8, 0x62#8]).length ∧
    0x62#8 ∈ [0x61#8, 0x61#8, 0x62#8] ∧ distinctSymbols [0x61#8] = [0x61#8] ∧ 0x00#8 ∉ [0x61#8] := by
  decide +kernel

theorem test_hyp_CodeTableIsPrefixFreeAndComplete :
    2 ≤ (distinctSymbols [0x61#8, 0x61#8, 0x62#8]).length ∧ (distinctSymbols [0x61#8]).length = 1 ∧
      0x61#8 ∈ [0x61#8] := by decide +kernel

theorem test_hyp_BitstreamIsNoLongerThanFixedWidth :
    2 ≤ (distinctSymbols [0x61#8, 0x61#8, 0x62#8]).length ∧ (distinctSymbols [0x61#8]).length = 1 := by
  decide +kernel

/-- A byte value `i < n` occurs F(i+1) times: V18 for `n` = 33, V19 for `n` = 34. -/
def fibInput (n : Nat) : List Byte :=
  (List.range n).flatMap (fun i => List.replicate (Nat.fib (i + 1)) (BitVec.ofNat 8 i))

theorem fibInput_length : (fibInput 34).length = 14930351 := by
  rw [fibInput, List.length_flatMap]
  simp only [List.length_replicate]
  decide +kernel

theorem fibInput_count (x : Byte) :
    BitVec.ofNat 32 ((fibInput 34).count x) = SymbolTable.at (fibTable 34) x := by
  have h : ∀ x : Byte, ((List.range 34).map (fun i =>
      if BitVec.ofNat 8 i == x then Nat.fib (i + 1) else 0)).sum =
      if x.toNat < 34 then Nat.fib (x.toNat + 1) else 0 := by decide +kernel
  rw [fibInput, List.count_flatMap]
  simp only [Function.comp_def, List.count_replicate]
  rw [h, SymbolTable.at, fibTable, Vector.getElem_ofFn]
  split <;> rfl

/-- `count` of the input of V19. -/
theorem fibInput_working : Working.init.count (fibInput 34) = fibWorking 34 := by
  have hf : (Working.init.count (fibInput 34)).freq = fibTable 34 :=
    SymbolTable.ext_at fun x => by
      rw [Working.count_freq_at (fun x => SymbolTable.at_replicate _ x), fibInput_count]
  have hk : (Working.init.count (fibInput 34)).k = BitVec.ofNat 9 34 := by
    rw [Working.count_k, hf]; decide +kernel
  rw [Working.count_frame, hf, hk]; rfl

/-- `codes` faults on the input of V19. -/
theorem test_hyp_CodesFaultsExactlyOnATooDeepLeaf : fibInput 34 ≠ [] ∧ (fibInput 34).length ≤ 2 ^ 32 - 1 ∧
    (treeOf (fibInput 34)).codes = .error .unrepresentableCodeLength := by
  refine ⟨fun h => ?_, by rw [fibInput_length]; decide, ?_⟩
  · have := fibInput_length; rw [h] at this; cases this
  · rw [treeOf, fibInput_working]
    have := test_codes_V19
    split at this
    · next r h => rw [h, of_decide_eq_true this]
    · cases this

/-- The codes 0 and 1 of V5, as records. -/
def record0 : Byte × CodeEntry := (0x61#8, { len := 1#6, bits := 0#32 })
def record1 : Byte × CodeEntry := (0x62#8, { len := 1#6, bits := 0x80000000#32 })

theorem legal_two : legalRecords [record1, record0] := by
  unfold legalRecords record0 record1; decide

theorem legal_one : legalRecords [record0] := by
  unfold legalRecords record0; decide

/-- The empty table, and the table of V5. -/
def tableV5 : CodeTable := SymbolTable.put (SymbolTable.put Working.init.code 0x61#8 record0.2) 0x62#8 record1.2

theorem test_hyp_DeserializeInvertsSerialize : CodeTable.good Working.init.code ∧ CodeTable.good tableV5 := by
  have h0 : ∀ x, SymbolTable.at Working.init.code x = { len := 0#6, bits := 0#32 } :=
    fun x => SymbolTable.at_replicate _ x
  have h5 : ∀ x, SymbolTable.at tableV5 x =
      if x = 0x62#8 then record1.2 else if x = 0x61#8 then record0.2 else { len := 0#6, bits := 0#32 } := by
    intro x; rw [tableV5, SymbolTable.at_put, SymbolTable.at_put, h0]
  refine ⟨⟨fun x => ?_, fun x y _ h => ?_⟩, fun x => ?_, fun x y hxy h1 h2 => ?_⟩
  · rw [h0]; exact .inl ⟨rfl, rfl⟩
  · rw [h0] at h; cases h
  · rw [h5]
    split
    · exact .inr (by decide)
    · split
      · exact .inr (by decide)
      · exact .inl ⟨rfl, rfl⟩
  · rw [h5] at h1 h2
    rw [h5, h5]
    by_cases a : x = 0x62#8 <;> by_cases b : x = 0x61#8 <;> by_cases c : y = 0x62#8 <;>
      by_cases d : y = 0x61#8 <;> simp_all [CodeEntry.present, record0, record1, CodeEntry.toBits]

theorem test_hyp_ContainerFieldsStandAtTheirOffsets : 2 < 2 ^ 32 ∧ [0x40#8].length < 2 ^ 32 ∧
    (CodeTable.entries tableV5)[1]? = some (0x62#8, record1.2) := by decide +kernel

/-- A padded last byte and a full one. -/
theorem test_hyp_PackAndUnpackAreInverse : ∀ usable ∈ [1#8, 8#8], 1 ≤ usable.toNat ∧ usable.toNat ≤ 8 := by
  decide

theorem test_hyp_PackHasItsClosedForm : (Working.init.pack [true]).1[0]? = some 0x80#8 ∧
    (Working.init.pack [true]).1 ≠ [] ∧ 7 < 8 := by decide

/-- The two operand faults of ENCODE at their boundaries: IN_LEN = IN_CAP + 1 and IN_LEN = 2^32. -/
theorem test_hyp_EncodeChecksItsOperandsInOrder :
    (idle []).cfg.inCap < { idle [] with inLen := 65#64 }.inLen.toNat ∧
      { State.reset with inLen := 0x100000000#64 }.inLen.toNat ≤ State.reset.cfg.inCap ∧
      2 ^ 32 - 1 < { State.reset with inLen := 0x100000000#64 }.inLen.toNat := by decide

theorem test_hyp_EncodeOfTheEmptyInputGivesThirteenZeros : (running small 0x01#8 [] []).inLen = 0#64 := rfl

/-- The input 61 in a block whose OUT holds 64 bytes and in one whose OUT holds 19 (V103). -/
theorem test_hyp_EncodeCompletesWithTheContainer :
    0 < (running small 0x01#8 [0x61] []).inLen.toNat ∧
      (running small 0x01#8 [0x61] []).inLen.toNat ≤ (running small 0x01#8 [0x61] []).cfg.inCap ∧
      (running small 0x01#8 [0x61] []).inLen.toNat ≤ 2 ^ 32 - 1 ∧
      (∃ w payload usable w', (treeOf (running small 0x01#8 [0x61] []).input).codes = .ok w ∧
        w.pack (bitstream w.code (running small 0x01#8 [0x61] []).input) = (payload, usable, w') ∧
        13 + 6 * (distinctSymbols (running small 0x01#8 [0x61] []).input).length + payload.length ≤ 20 ∧
        13 + 6 * (distinctSymbols (running small 0x01#8 [0x61] []).input).length + payload.length > 19) ∧
      small.wf = true := by
  refine ⟨by decide, by decide, by decide, ?_, by decide⟩
  rw [running_input _ _ _ _ (by decide)]
  have h : (match (treeOf [0x61#8]).codes with
      | .ok w => decide ((w.pack (bitstream w.code [0x61#8])).1.length = 1)
      | .error _ => false) = true := by decide +kernel
  split at h
  · next w hw =>
    refine ⟨w, (w.pack (bitstream w.code [0x61#8])).1, (w.pack (bitstream w.code [0x61#8])).2.1,
      (w.pack (bitstream w.code [0x61#8])).2.2, hw, rfl, ?_⟩
    rw [of_decide_eq_true h, show (distinctSymbols [0x61]).length = 1 by decide +kernel]
    decide
  · cases h

/-- The input of V19 in the largest block: the clause about a too deep leaf. -/
theorem test_hyp_EncodeCompletesWithTheContainer_deep :
    0 < (running Config.largest 0x01#8 (fibInput 34) []).inLen.toNat ∧
      (running Config.largest 0x01#8 (fibInput 34) []).inLen.toNat ≤ Config.largest.inCap ∧
      (running Config.largest 0x01#8 (fibInput 34) []).inLen.toNat ≤ 2 ^ 32 - 1 ∧
      (treeOf (running Config.largest 0x01#8 (fibInput 34) []).input).codes =
        .error .unrepresentableCodeLength := by
  have hl : (running Config.largest 0x01#8 (fibInput 34) []).inLen = 14930351#64 := by
    show BitVec.ofNat 64 (fibInput 34).length = _
    rw [fibInput_length]
  rw [hl, running_input _ _ _ _ (by rw [fibInput_length]; decide)]
  exact ⟨by decide, by decide, by decide, test_hyp_CodesFaultsExactlyOnATooDeepLeaf.2.2⟩

theorem test_hyp_EncodeOfOneRepeatedSymbolCompletes :
    (running small 0x01#8 [0x61, 0x61, 0x61] []).input = List.replicate 3 0x61#8 ∧ small.wf = true ∧
      1 ≤ 3 ∧ 3 ≤ (running small 0x01#8 [0x61, 0x61, 0x61] []).cfg.inCap ∧
      19 + (3 + 7) / 8 ≤ (running small 0x01#8 [0x61, 0x61, 0x61] []).cfg.outCap :=
  ⟨running_input _ _ _ _ (by decide), by decide, by decide, by decide, by decide⟩

/-- A DECODE whose input is the given bytes. -/
def reading (bytes : List Byte) : State := running small 0x02#8 bytes []

theorem reading_input {bytes : List Byte} (h : bytes.length ≤ 64) :
    (reading bytes).inLen.toNat ≤ (reading bytes).cfg.inCap ∧ (reading bytes).input = bytes := by
  refine ⟨?_, running_input _ _ _ _ (by omega)⟩
  show (BitVec.ofNat 64 bytes.length).toNat ≤ 64
  rw [BitVec.toNat_ofNat, Nat.mod_eq_of_lt (by omega)]; exact h

/-- Each clause: IN_LEN above IN_CAP; 7 bytes (V72); the count of V74; a count of 257 that the length
admits. -/
theorem test_hyp_DecodeChecksLengthsAndCountFirst :
    small.inCap < { reading [] with inLen := 65#64 }.inLen.toNat ∧
      (reading (List.replicate 7 0x00#8)).inLen.toNat < 8 ∧
      (reading [0, 0, 0, 1, 0xFF, 0xFF, 0xFF, 0xFF]).inLen.toNat - 8 <
        6 * (be32 ((reading [0, 0, 0, 1, 0xFF, 0xFF, 0xFF, 0xFF]).inRead 4)
          ((reading [0, 0, 0, 1, 0xFF, 0xFF, 0xFF, 0xFF]).inRead 5)
          ((reading [0, 0, 0, 1, 0xFF, 0xFF, 0xFF, 0xFF]).inRead 6)
          ((reading [0, 0, 0, 1, 0xFF, 0xFF, 0xFF, 0xFF]).inRead 7)).toNat ∧
      ∃ s : State, s.inLen.toNat ≤ s.cfg.inCap ∧ 8 ≤ s.inLen.toNat ∧
        6 * (be32 (s.inRead 4) (s.inRead 5) (s.inRead 6) (s.inRead 7)).toNat ≤ s.inLen.toNat - 8 ∧
        256 < (be32 (s.inRead 4) (s.inRead 5) (s.inRead 6) (s.inRead 7)).toNat :=
  ⟨by decide, by decide, by decide,
    { reading [0, 0, 0, 0, 0, 0, 1, 1] with
      cfg := Config.largest
      inLen := 1550#64 }, by decide⟩

/-- Each cause, after a good record: V77's length, V78's repeated symbol, V79's dirty padding. -/
theorem test_hyp_FirstBadRecordDecidesTheSubCause :
    ∀ r ∈ [(SubCause.badCodeLen, 0x63#8, 33#8, 0#32), (.badCodeLen, 0x61#8, 0#8, 0#32),
      (.dupSymbol, 0x61#8, 1#8, 0x80000000#32), (.dirtyPad, 0x62#8, 1#8, 0x40000000#32)],
      (reading (bytesBe32 1#32 ++ bytesBe32 2#32 ++
        [record0].flatMap (fun p => p.1 :: BitVec.ofNat 8 p.2.len.toNat :: bytesBe32 p.2.bits) ++
        r.2.1 :: r.2.2.1 :: bytesBe32 r.2.2.2 ++ [])).input =
        bytesBe32 1#32 ++ bytesBe32 (BitVec.ofNat 32 2) ++
        [record0].flatMap (fun p => p.1 :: BitVec.ofNat 8 p.2.len.toNat :: bytesBe32 p.2.bits) ++
        r.2.1 :: r.2.2.1 :: bytesBe32 r.2.2.2 ++ [] ∧
      ((r.1 = .badCodeLen ∧ (r.2.2.1.toNat = 0 ∨ 32 < r.2.2.1.toNat)) ∨
        (r.1 = .dupSymbol ∧ 1 ≤ r.2.2.1.toNat ∧ r.2.2.1.toNat ≤ 32 ∧
          r.2.1 ∈ [record0].map (fun p => p.1)) ∨
        (r.1 = .dirtyPad ∧ 1 ≤ r.2.2.1.toNat ∧ r.2.2.1.toNat ≤ 32 ∧
          r.2.1 ∉ [record0].map (fun p => p.1) ∧ bitsBelow r.2.2.2 r.2.2.1.toNat ≠ 0)) := by
  intro r hr
  refine ⟨running_input _ _ _ _ (by simp [record0, bytesBe32]), ?_⟩
  revert r; decide

/-- V80, with equal codes. -/
theorem test_hyp_TableThatIsNotPrefixFreeFaults :
    ∃ records : List (Byte × CodeEntry), ∃ p q, (records.map (fun p => p.1)).Nodup ∧
      (∀ p ∈ records, 1 ≤ p.2.len.toNat ∧ p.2.len.toNat ≤ 32 ∧ bitsBelow p.2.bits p.2.len.toNat = 0) ∧
      p ∈ records ∧ q ∈ records ∧ p.1 ≠ q.1 ∧ p.2.toBits <+: q.2.toBits ∧
      (reading (bytesBe32 1#32 ++ bytesBe32 (BitVec.ofNat 32 records.length) ++
        records.flatMap (fun p => p.1 :: BitVec.ofNat 8 p.2.len.toNat :: bytesBe32 p.2.bits) ++ [])).input =
        bytesBe32 1#32 ++ bytesBe32 (BitVec.ofNat 32 records.length) ++
        records.flatMap (fun p => p.1 :: BitVec.ofNat 8 p.2.len.toNat :: bytesBe32 p.2.bits) ++ [] :=
  ⟨[record0, (0x62#8, record0.2)], record0, (0x62#8, record0.2), by decide, by decide, by decide, by decide,
    by decide, by decide, running_input _ _ _ _ (by decide)⟩

/-- Each cause: V82, V83, V84, V85, and V86 and V87, the two other ways to a bad usable count. -/
theorem test_hyp_DecodeChecksTheFieldsAfterTheTableInOrder :
    legalRecords [record0] ∧
      (∀ tail : List Byte, tail.length ≤ 7 →
        (reading (bytesBe32 1#32 ++ bytesBe32 (BitVec.ofNat 32 [record0].length) ++
          [record0].flatMap (fun p => p.1 :: BitVec.ofNat 8 p.2.len.toNat :: bytesBe32 p.2.bits) ++
          tail)).input = bytesBe32 1#32 ++ bytesBe32 (BitVec.ofNat 32 [record0].length) ++
          [record0].flatMap (fun p => p.1 :: BitVec.ofNat 8 p.2.len.toNat :: bytesBe32 p.2.bits) ++ tail) ∧
      [0x01#8, 0, 0, 0].length < 5 ∧ [0x00#8].length < (2#32).toNat ∧
      (1#32).toNat < [0x00#8, 0x00#8].length ∧ ¬ legalPayload 9#8 [0x00#8] ∧ ¬ legalPayload 0#8 [0x00#8] ∧
      ¬ legalPayload 1#8 [] := by
  refine ⟨legal_one, fun tail ht => running_input _ _ _ _ ?_, by decide, by decide, by decide, ?_, ?_, ?_⟩
  · simp only [List.length_append, bytesBe32_length, record0, List.flatMap_cons, List.flatMap_nil,
      List.length_cons, List.length_nil]
    omega
  all_goals unfold legalPayload; decide

/-- V65: with a payload, and without. -/
theorem test_hyp_DecodeOfAnEmptyTableIsEmpty :
    legalPayload 3#8 [0xE0#8] ∧ legalPayload 0#8 [] ∧
      (reading (containerOf 5 [] 3#8 [0xE0#8])).input = containerOf 5 [] 3#8 [0xE0#8] ∧
      (reading (containerOf 5 [] 0#8 [])).input = containerOf 5 [] 0#8 [] := by
  refine ⟨by unfold legalPayload; decide, by unfold legalPayload; decide, running_input _ _ _ _ (by decide),
    running_input _ _ _ _ (by decide)⟩

/-- V104's Container, and a count one above OUT_CAP. -/
theorem test_hyp_DecodeOfATooLongResultOverflows : ∀ osc ∈ [65, 2 ^ 32 - 1],
    legalRecords [record0] ∧ [record0] ≠ [] ∧ legalPayload 1#8 [0x00#8] ∧ osc < 2 ^ 32 ∧ small.outCap < osc ∧
      (reading (containerOf osc [record0] 1#8 [0x00#8])).input = containerOf osc [record0] 1#8 [0x00#8] := by
  intro osc h
  refine ⟨legal_one, by decide, by unfold legalPayload; decide, ?_, ?_, running_input _ _ _ _ ?_⟩
  · revert osc; decide
  · revert osc; decide
  · simp [containerOf, bytesBe32, record0]

/-- V67: records in either order, with usable bits left over; and V66, no symbol at all. -/
theorem test_hyp_DecodeCompletesOnEveryLegalContainer :
    small.wf = true ∧ legalRecords [record1, record0] ∧ legalPayload 8#8 [0x40#8, 0xFF#8] ∧
      (∀ p ∈ [record0, record1], p ∈ [record1, record0]) ∧
      unpack [0x40#8, 0xFF#8] 8#8 = spelled [record0, record1] ++ (unpack [0x40#8, 0xFF#8] 8#8).drop 2 ∧
      (reading (containerOf 2 [record1, record0] 8#8 [0x40#8, 0xFF#8])).input =
        containerOf 2 [record1, record0] 8#8 [0x40#8, 0xFF#8] ∧
      legalRecords [record0] ∧ legalPayload 5#8 [0x00#8] ∧
      unpack [0x00#8] 5#8 = spelled [] ++ unpack [0x00#8] 5#8 ∧
      (reading (containerOf 0 [record0] 5#8 [0x00#8])).input = containerOf 0 [record0] 5#8 [0x00#8] := by
  refine ⟨by decide, legal_two, by unfold legalPayload; decide, by decide, by decide,
    running_input _ _ _ _ (by decide), legal_one, by unfold legalPayload; decide, rfl,
    running_input _ _ _ _ (by decide)⟩

/-- Out of bits (V92), and a bit that starts no code (V89). -/
theorem test_hyp_MatcherFaultsAsStated :
    legalRecords [record1, record0] ∧ legalPayload 2#8 [0x40#8] ∧
      [record0, record1].length < 3 ∧ unpack [0x40#8] 2#8 = spelled [record0, record1] ++ [] ∧
      (∃ p ∈ [record1, record0], ([] : Bits) <+: p.2.toBits ∧ ([] : Bits).length < p.2.len.toNat) ∧
      (reading (containerOf 3 [record1, record0] 2#8 [0x40#8])).input =
        containerOf 3 [record1, record0] 2#8 [0x40#8] ∧
      legalRecords [record0] ∧ [record0].length < 2 ∧
      (∃ p ∈ [record0], ([] : Bits) <+: p.2.toBits ∧ ([] : Bits).length < p.2.len.toNat) ∧
      unpack [0x40#8] 2#8 = spelled [record0] ++ [] ++ true :: [] ∧
      (∀ p ∈ [record0], ¬ ([] ++ [true]) <+: p.2.toBits) ∧
      (reading (containerOf 2 [record0] 2#8 [0x40#8])).input = containerOf 2 [record0] 2#8 [0x40#8] := by
  refine ⟨legal_two, by unfold legalPayload; decide, by decide, by decide, by decide,
    running_input _ _ _ _ (by decide), legal_one, by decide, by decide, by decide, by decide,
    running_input _ _ _ _ (by decide)⟩

/-- Both clauses: V61's single-symbol Container, and V65's empty table with a count of 5. -/
theorem test_hyp_DecodeResultHasTheCountedLength :
    (∃ s t : State, exec .decode s = .next t ∧ t.status = 0x02#8 ∧ s.cfg.wf = true ∧
      be32 (s.inRead 4) (s.inRead 5) (s.inRead 6) (s.inRead 7) ≠ 0#32) ∧
    ∃ s t : State, exec .decode s = .next t ∧ t.status = 0x02#8 ∧ s.cfg.wf = true ∧
      be32 (s.inRead 4) (s.inRead 5) (s.inRead 6) (s.inRead 7) = 0#32 :=
  ⟨⟨reading (containerOf 5 [record0] 5#8 [0x00#8]), _, rfl, by decide +kernel, by decide, by decide⟩,
    reading (containerOf 5 [] 0#8 []), _, rfl, by decide +kernel, by decide, by decide⟩

/-- V2 and V61 in two blocks of the same size. -/
theorem test_hyp_DecodeInvertsEncode :
    ∃ s t u : State, ∃ container : List Byte, s.cfg.wf = true ∧ u.cfg.wf = true ∧ s.input = [0x61#8] ∧
      exec .encode s = .next t ∧ t.finishedWith container ∧ u.input = container ∧
      u.inLen.toNat ≤ u.cfg.inCap ∧ s.inLen.toNat ≤ u.cfg.outCap := by
  have hc : containerOf 1 [record0] 1#8 [0x00#8] = containerOf 1 [record0] 1#8 [0x00#8] := rfl
  refine ⟨running small 0x01#8 [0x61] [], (running small 0x01#8 [0x61] []).complete
      (containerOf 1 [record0] 1#8 [0x00#8]), reading (containerOf 1 [record0] 1#8 [0x00#8]),
    containerOf 1 [record0] 1#8 [0x00#8], by decide, by decide, running_input _ _ _ _ (by decide), ?_,
    complete_finishedWith _ _ (by decide), running_input _ _ _ _ (by decide), by decide, by decide⟩
  have h : (match encodeInput 64 [0x61#8] Working.init with
      | .ok b => decide (b = containerOf 1 [record0] 1#8 [0x00#8])
      | .error _ => false) = true := by decide +kernel
  have h' : encodeResult (running small 0x01#8 [0x61] []) = .ok (containerOf 1 [record0] 1#8 [0x00#8]) := by
    rw [encodeResult, if_neg (by decide), if_neg (by decide), running_input _ _ _ _ (by decide)]
    show encodeInput 64 [0x61#8] Working.init = _
    split at h
    · next b hb => rw [hb, of_decide_eq_true h]
    · cases h
  rw [exec_encode, h']; rfl

end Sys2Proof.Tests
end

section
/-! The flags of STATUS after a reset and after a write to CMD (10_state R13). -/

namespace Sys2Proof.Machine

@[simp] theorem State.resetOf_busy (c : Config) : (State.resetOf c).busy = false := by
  simp [State.busy, State.resetOf]

@[simp] theorem State.latchCommand_busy (c : BitVec 8) (s : State) : (s.latchCommand c).busy = true := by
  simp [State.busy, statusBusy]

@[simp] theorem State.resetOf_done (c : Config) : (State.resetOf c).done = false := by
  simp [State.done, State.resetOf]

@[simp] theorem State.latchCommand_done (c : BitVec 8) (s : State) : (s.latchCommand c).done = false := by
  simp [State.done, statusBusy]

@[simp] theorem State.resetEvent_busy (s : State) : s.resetEvent.busy = false := by
  simp [State.busy]

end Sys2Proof.Machine
end

section
/-! The invariant of a run: which updates of the state keep it, and that every step does. -/

namespace Sys2Proof.Machine

theorem Config.wf_iff (c : Config) :
    c.wf = true ↔ 13 ≤ c.inCap ∧ c.inCap < 2 ^ 64 ∧ 13 ≤ c.outCap ∧ c.outCap < 2 ^ 64 := by
  simp only [Config.wf, Bool.and_eq_true, decide_eq_true_eq, and_assoc]

/-- A state that lists no result meets the invariant once its input side does and its codes fit its
STATUS. -/
theorem State.Inv.of_no_result {t : State} (hcfg : t.cfg.wf = true) (hin : t.inBuf.wf)
    (hbound : ∀ c ∈ t.inBuf, c.1 < t.cfg.inCap) (hlen : t.outLen = 0#64) (hbuf : t.outBuf = [])
    (hcodes : ((t.status = statusIdle ∨ t.status = statusBusy) ∧ t.errcode = 0#8 ∧ t.errinfo = 0#8) ∨
      (t.status = statusFaulted ∧ ∃ r : FaultReport, t.errcode = r.errcode ∧ t.errinfo = r.errinfo)) :
    t.Inv where
  cfgWf := hcfg
  inWf := hin
  outWf := hbuf ▸ List.Pairwise.nil
  inBound := hbound
  statusLegal := by
    rcases hcodes with ⟨h | h, -⟩ | ⟨h, -⟩ <;> simp [h]
  noResult _ := ⟨hlen, hbuf⟩
  outListed _ := by simp [hlen, hbuf]
  outFits := by simp [hlen]
  noError hne := by
    rcases hcodes with ⟨-, h⟩ | ⟨h, -⟩
    · exact h
    · exact absurd h hne
  error hf := by
    rcases hcodes with ⟨h | h, -⟩ | ⟨-, h⟩
    · exact absurd (h.symm.trans hf) (by decide)
    · exact absurd (h.symm.trans hf) (by decide)
    · exact h

/-- The invariant does not speak of IN_LEN, the script or the replies. -/
theorem State.Inv.hostSide {s : State} (h : s.Inv) (n : Word64) (script : List HostAction)
    (replies : List Reply) : { s with inLen := n, script := script, replies := replies }.Inv :=
  ⟨h.cfgWf, h.inWf, h.outWf, h.inBound, h.statusLegal, h.noResult, h.outListed, h.outFits, h.noError,
    h.error⟩

theorem State.Inv.setScript {s : State} (h : s.Inv) (script : List HostAction) :
    (s.setScript script).Inv := h.hostSide s.inLen script s.replies

theorem State.Inv.reply {s : State} (h : s.Inv) (r : Reply) : (s.reply r).Inv :=
  h.hostSide s.inLen s.script (s.replies ++ [r])

theorem State.Inv.setInLen {s : State} (h : s.Inv) (v : Word64) : (s.setInLen v).Inv :=
  h.hostSide v s.script s.replies

/-- A byte written below IN_CAP keeps IN canonical and within its capacity. -/
theorem State.Inv.writeIn {s : State} (h : s.Inv) {a : Nat} (b : Byte) (ha : a < s.cfg.inCap) :
    (s.writeIn a b).Inv :=
  { h with
    inWf := Memory.write_wf h.inWf a b
    inBound := fun c hc => by
      rcases Memory.mem_write hc with rfl | hc
      · exact ha
      · exact h.inBound c hc }

theorem State.Inv.latchCommand {s : State} (h : s.Inv) (c : BitVec 8) : (s.latchCommand c).Inv :=
  .of_no_result h.cfgWf h.inWf h.inBound rfl rfl (.inl ⟨.inr rfl, rfl, rfl⟩)

theorem State.Inv.resetOf {c : Config} (h : c.wf = true) : (State.resetOf c).Inv :=
  .of_no_result h .nil (fun _ hc => nomatch hc) rfl rfl (.inl ⟨.inl rfl, rfl, rfl⟩)

theorem State.Inv.resetEvent {s : State} (h : s.Inv) : s.resetEvent.Inv :=
  .of_no_result h.cfgWf .nil (fun _ hc => nomatch hc) rfl rfl (.inl ⟨.inl rfl, rfl, rfl⟩)

theorem State.Inv.raiseFault {s : State} (h : s.Inv) (r : FaultReport) : (s.raiseFault r).Inv :=
  .of_no_result h.cfgWf h.inWf h.inBound rfl rfl (.inr ⟨rfl, r, rfl, rfl⟩)

/-- Completion keeps the invariant when the result fits OUT: its length then fits OUT_LEN too. -/
theorem State.Inv.complete {s : State} (h : s.Inv) {out : List Byte} (hout : out.length ≤ s.cfg.outCap) :
    (s.complete out).Inv := by
  obtain ⟨-, -, -, hcap⟩ := (Config.wf_iff s.cfg).mp h.cfgWf
  have hlen : (s.complete out).outLen.toNat = out.length := by
    rw [State.complete_outLen, BitVec.toNat_ofNat, Nat.mod_eq_of_lt (by omega)]
  exact {
    cfgWf := h.cfgWf
    inWf := h.inWf
    outWf := Memory.ofBytes_wf 0 out
    inBound := h.inBound
    statusLegal := .inr (.inr (.inl rfl))
    noResult := fun hne => absurd rfl hne
    outListed := fun _ => by
      rw [hlen, State.complete_outBuf, Memory.ofBytes_offsets, List.range_eq_range']
    outFits := hlen.trans_le hout
    noError := fun _ => ⟨rfl, rfl⟩
    error := fun hf => absurd hf (by decide : statusDone ≠ statusFaulted) }

/-- The Container of a command start fits OUT, or ENCODE faults (45_codec_commands R102). -/
theorem encodeInput_fits {outCap : Nat} {input out : List Byte} {w : Working} (hcap : 13 ≤ outCap)
    (h : encodeInput outCap input w = .ok out) : out.length ≤ outCap := by
  unfold encodeInput at h
  split at h
  · cases h; simpa using hcap
  split at h
  · cases h
  split at h
  · cases h
  next hfits => cases h; exact Nat.not_lt.mp hfits

/-- The bytes DECODE gives back fit OUT (45_codec_commands R110). -/
theorem decodeInput_fits {outCap : Nat} {input out : List Byte} {w : Working}
    (h : decodeInput outCap input w = .ok out) : out.length ≤ outCap := by
  obtain ⟨count, c, -, -, -, -, hempty, hfull⟩ := decodeInput_length h
  by_cases hc : c.toNat = 0
  · simp [hempty hc]
  · obtain ⟨hlen, hle⟩ := hfull hc
    exact hlen.trans_le hle

/-- The result of a command fits OUT (20_memory R32). -/
theorem resultOf_fits {i : Instr} {s : State} {out : List Byte} (hcfg : s.cfg.wf = true)
    (h : resultOf i s = .ok out) : out.length ≤ s.cfg.outCap := by
  obtain ⟨-, -, hcap, -⟩ := (Config.wf_iff s.cfg).mp hcfg
  cases i with
  | encode =>
    simp only [resultOf, encodeResult] at h
    split at h
    · cases h
    split at h
    · cases h
    exact encodeInput_fits hcap h
  | decode =>
    simp only [resultOf, decodeResult] at h
    split at h
    · cases h
    exact decodeInput_fits h

theorem State.Inv.finish_resultOf {s : State} (h : s.Inv) (i : Instr) :
    (s.finish (resultOf i s)).Inv := by
  cases hr : resultOf i s with
  | ok out => exact h.complete (resultOf_fits h.cfgWf hr)
  | error r => exact h.raiseFault r

/-- An ENGINE turn at the head of the script gives the ENGINE the move, and is over. -/
theorem step_engineTurn {s : State} {rest : List HostAction} (h : s.script = .engineTurn :: rest) :
    step s = engineStep (s.setScript rest) := step_cons h (by simp)

/-- A move of the ENGINE keeps the invariant. -/
theorem State.Inv.engineStep {s t : State} (h : s.Inv) (hstep : engineStep s = .next t) : t.Inv := by
  rw [engineStep_eq] at hstep
  split at hstep
  · cases hf : s.fetch with
    | ok i =>
      rw [hf] at hstep
      cases hstep
      exact h.finish_resultOf i
    | error e =>
      rw [hf] at hstep
      cases hstep
      exact h.raiseFault .illegalCommand
  · cases hstep
    exact h

/-- Settles O18: the ENGINE's results fit OUT, and each of the host's updates keeps the invariant. -/
theorem everyStepKeepsTheInvariant : Obligations.EveryStepKeepsTheInvariant := by
  intro s t h hstep
  rcases step_cases hstep with ⟨-, hb, hs, -⟩ | ⟨-, -, rfl⟩ | ⟨a, rest, u, hs, rfl, hact⟩
  · rcases hs with hs | ⟨rest, hs⟩
    · exact h.engineStep (step_nil hs ▸ hstep)
    · exact h.engineStep (step_poll_busy hs hb ▸ hstep)
  · exact h
  have hu : (s.setScript rest).Inv := h.setScript rest
  rcases hact with ⟨-, rfl, -, -⟩ | ⟨-, -, rfl⟩ | ⟨-, -, rfl⟩ | ⟨-, rfl⟩ | ⟨v, -, -, -, rfl⟩ |
    ⟨v, -, -, rfl⟩ | ⟨-, -, -, -, rfl⟩ | ⟨x, b, -, -, hx, rfl⟩ | ⟨r, -, -, rfl⟩
  · exact hu.engineStep (step_engineTurn hs ▸ hstep)
  · exact hu
  · exact hu
  · exact hu.resetEvent
  · exact hu.latchCommand _
  · exact hu.setInLen v
  · exact hu
  · exact hu.writeIn b hx
  · exact hu.reply r

/-- Settles O17: every configuration within the bounds, of which the largest is one. -/
theorem resetStateMeetsTheInvariant : Obligations.ResetStateMeetsTheInvariant :=
  ⟨.resetOf (by decide), fun _ hc => .resetOf hc⟩

end Sys2Proof.Machine
end

section
/-! What a step may change of the input side and of BUSY, and by which action. -/

namespace Sys2Proof.Machine

theorem State.inRead_writeIn_other (s : State) {a x : Nat} (b : Byte) (h : x ≠ a) :
    (s.writeIn a b).inRead x = s.inRead x := by
  simp only [State.inRead, State.writeIn_inBuf, State.writeIn_inEpoch, Memory.read_write_other _ _ h]

/-- The parts of the input side that a host write can change are as before. -/
def State.sameInputs (s t : State) : Prop :=
  t.cmd = s.cmd ∧ t.inLen = s.inLen ∧ ∀ a, t.inRead a = s.inRead a

theorem State.sameInputs_finish (s : State) (x : Except FaultReport (List Byte)) :
    s.sameInputs (s.finish x) := by
  obtain ⟨-, hcmd, hlen, -, -, -, -, hin⟩ := finish_sameInputSide s x
  exact ⟨hcmd, hlen, hin⟩

@[simp] theorem finish_cfg (s : State) (x : Except FaultReport (List Byte)) : (s.finish x).cfg = s.cfg :=
  (finish_sameInputSide s x).1

/-- What a step does to CMD, IN_LEN and IN: nothing, unless the script's head is a reset or the write that
names the one it changes (10_state R10). -/
theorem step_inputs {s t : State} (h : step s = .next t) :
    s.sameInputs t ∨ ∃ rest, s.script = .reset :: rest ∨
      (∃ v, s.script = .writeReg 0 v :: rest ∧ t.inLen = s.inLen ∧ ∀ x, t.inRead x = s.inRead x) ∨
      (∃ v, s.script = .writeReg 4 v :: rest ∧ t.cmd = s.cmd ∧ ∀ x, t.inRead x = s.inRead x) ∨
      ∃ a b, s.script = .writeIn a b :: rest ∧ t.cmd = s.cmd ∧ t.inLen = s.inLen ∧
        ∀ x, x ≠ a → t.inRead x = s.inRead x := by
  rcases step_cases h with ⟨x, -, -, rfl⟩ | ⟨-, -, rfl⟩ | ⟨a, rest, u, hs, rfl, hact⟩
  · exact .inl (s.sameInputs_finish x)
  · exact .inl ⟨rfl, rfl, fun _ => rfl⟩
  rcases hact with ⟨x, -, -, rfl⟩ | ⟨-, -, rfl⟩ | ⟨-, -, rfl⟩ | ⟨rfl, -⟩ | ⟨v, rfl, -, -, rfl⟩ |
    ⟨v, rfl, -, rfl⟩ | ⟨-, -, -, -, rfl⟩ | ⟨x, b, rfl, -, -, rfl⟩ | ⟨r, -, -, rfl⟩
  · exact .inl ((s.setScript rest).sameInputs_finish x)
  · exact .inl ⟨rfl, rfl, fun _ => rfl⟩
  · exact .inl ⟨rfl, rfl, fun _ => rfl⟩
  · exact .inr ⟨rest, .inl hs⟩
  · exact .inr ⟨rest, .inr (.inl ⟨v, hs, rfl, fun _ => rfl⟩)⟩
  · exact .inr ⟨rest, .inr (.inr (.inl ⟨v, hs, rfl, fun _ => rfl⟩))⟩
  · exact .inl ⟨rfl, rfl, fun _ => rfl⟩
  · exact .inr ⟨rest, .inr (.inr (.inr ⟨x, b, hs, rfl, rfl,
      fun y hy => State.inRead_writeIn_other (s.setScript rest) b hy⟩))⟩
  · exact .inl ⟨rfl, rfl, fun _ => rfl⟩

/-- No step changes the parameters (70_reset_and_hazards R131). -/
theorem step_cfg {s t : State} (h : step s = .next t) : t.cfg = s.cfg := by
  rcases step_cases h with ⟨x, -, -, rfl⟩ | ⟨-, -, rfl⟩ | ⟨a, rest, u, -, rfl, hact⟩
  · exact finish_cfg s x
  · rfl
  rcases hact with ⟨x, -, -, rfl⟩ | ⟨-, -, rfl⟩ | ⟨-, -, rfl⟩ | ⟨-, rfl⟩ | ⟨v, -, -, -, rfl⟩ |
    ⟨v, -, -, rfl⟩ | ⟨-, -, -, -, rfl⟩ | ⟨x, b, -, -, -, rfl⟩ | ⟨r, -, -, rfl⟩
  · exact finish_cfg _ x
  all_goals rfl

/-- Settles O19: each change that a clause speaks of leaves one head of the script that can have made it. -/
theorem onlyTheHostChangesTheInputSide : Obligations.OnlyTheHostChangesTheInputSide := by
  intro s t h
  refine ⟨step_cfg h, ?_⟩
  rcases step_inputs h with ⟨hcmd, hlen, hin⟩ | ⟨rest, hs | ⟨v, hs, hlen, hin⟩ | ⟨v, hs, hcmd, hin⟩ |
    ⟨a, b, hs, hcmd, hlen, hin⟩⟩
  · exact ⟨fun hne => absurd hcmd hne, fun hne => absurd hlen hne, fun a hne => absurd (hin a) hne⟩
  · exact ⟨fun _ => ⟨rest, .inl hs⟩, fun _ => ⟨rest, .inl hs⟩, fun _ _ => ⟨rest, .inl hs⟩⟩
  · exact ⟨fun _ => ⟨rest, .inr ⟨v, hs⟩⟩, fun hne => absurd hlen hne, fun a hne => absurd (hin a) hne⟩
  · exact ⟨fun hne => absurd hcmd hne, fun _ => ⟨rest, .inr ⟨v, hs⟩⟩, fun a hne => absurd (hin a) hne⟩
  · refine ⟨fun hne => absurd hcmd hne, fun hne => absurd hlen hne, fun x hne => ?_⟩
    have hx : x = a := not_imp_comm.mp (hin x) hne
    exact ⟨rest, .inr ⟨b, hx ▸ hs⟩⟩

/-- What a step does to BUSY: nothing, unless the ENGINE ends a command, the host resets, or a write to CMD
starts one (10_state R13). -/
theorem step_busy {s t : State} (h : step s = .next t) :
    t.busy = s.busy ∨
      (t.busy = false ∧ ((∃ rest, s.script = .reset :: rest) ∨
        (t.done = true ∧
          (s.script = [] ∨ ∃ rest, s.script = .poll :: rest ∨ s.script = .engineTurn :: rest)))) ∨
      (s.busy = false ∧ ∃ v rest, s.script = .writeReg 0 v :: rest) := by
  rcases step_cases h with ⟨x, -, hs, rfl⟩ | ⟨-, -, rfl⟩ | ⟨a, rest, u, hs, rfl, hact⟩
  · exact .inr (.inl ⟨finish_busy s x, .inr ⟨finish_done s x,
      hs.imp_right fun ⟨rest, hpoll⟩ => ⟨rest, .inl hpoll⟩⟩⟩)
  · exact .inl rfl
  rcases hact with ⟨x, rfl, -, rfl⟩ | ⟨-, -, rfl⟩ | ⟨-, -, rfl⟩ | ⟨rfl, rfl⟩ | ⟨v, rfl, hidle, -, -⟩ |
    ⟨v, -, -, rfl⟩ | ⟨-, -, -, -, rfl⟩ | ⟨x, b, -, -, -, rfl⟩ | ⟨r, -, -, rfl⟩
  · exact .inr (.inl ⟨finish_busy _ x, .inr ⟨finish_done _ x, .inr ⟨rest, .inr hs⟩⟩⟩)
  · exact .inl rfl
  · exact .inl rfl
  · exact .inr (.inl ⟨State.resetEvent_busy _, .inl ⟨rest, hs⟩⟩)
  · exact .inr (.inr ⟨hidle, v, rest, hs⟩)
  all_goals exact .inl rfl

/-- Settles O20: a rise leaves the write to CMD as its cause, a fall the reset or the end of a command. -/
theorem busyRisesAndFallsOnlyAsStated : Obligations.BusyRisesAndFallsOnlyAsStated := by
  intro s t h
  rcases step_busy h with hsame | ⟨hfall, hcause⟩ | ⟨hidle, hwrite⟩
  · exact ⟨fun hs ht => by simp [hs, ht] at hsame, fun hs ht => by simp [hs, ht] at hsame⟩
  · exact ⟨fun _ ht => by simp [ht] at hfall, fun _ _ => hcause⟩
  · exact ⟨fun _ _ => hwrite, fun hs => by simp [hs] at hidle⟩

end Sys2Proof.Machine
end

section
/-! The result of a command depends on its inputs alone (10_state R24). ROOT is the one value of the
working state that a command start keeps: ENCODE assigns it before it reads it, DECODE never reads it. -/

namespace Sys2Proof.Machine

/-! ### The queue when `build` ends -/

theorem pqInsert_ne_nil (i : ArenaIndex) (pq : List ArenaIndex) : pqInsert i pq ≠ [] :=
  List.ne_nil_of_mem ((mem_pqInsert i i pq).mpr (.inr rfl))

theorem pqInsert_length_le (i : ArenaIndex) (pq : List ArenaIndex) :
    (pqInsert i pq).length ≤ pq.length + 1 := by
  unfold pqInsert
  split <;> simp

/-- An extraction from a queue that is not empty takes one member out. -/
theorem pqExtractMin_length {nodes : List Node} {pq : List ArenaIndex} (h : pq ≠ []) :
    ∃ m rest, pqExtractMin nodes pq = some (m, rest) ∧ rest.length + 1 = pq.length := by
  cases pq with
  | nil => exact absurd rfl h
  | cons i rest =>
    refine ⟨_, _, rfl, ?_⟩
    rw [List.length_erase_of_mem (pqMin_least nodes i rest).1]
    simp

/-- A pass of the merge loop is one entry appended, to a queue that has lost two members. -/
theorem Working.mergeOnce_eq_append {w : Working} (h : 2 ≤ w.pq.length) :
    ∃ pq n, pq.length + 2 = w.pq.length ∧ w.mergeOnce = { w with pq := pq }.append n := by
  obtain ⟨a, pqA, hA, hlenA⟩ := pqExtractMin_length (nodes := w.node) (pq := w.pq)
    (List.ne_nil_of_length_pos (by omega))
  obtain ⟨b, pqB, hB, hlenB⟩ := pqExtractMin_length (nodes := w.node) (pq := pqA)
    (List.ne_nil_of_length_pos (by omega))
  refine ⟨pqB, .internal (weightAt w.node a + weightAt w.node b) a b, by omega, ?_⟩
  simp only [Working.mergeOnce, hA, hB]

theorem Working.append_pq_ne_nil (n : Node) (w : Working) : (w.append n).pq ≠ [] :=
  pqInsert_ne_nil _ _

/-- The merge loop leaves one member in a queue that had one or more. -/
theorem Working.mergeLoop_pq_length {n : Nat} {w : Working} (h : w.pq ≠ []) (hn : w.pq.length ≤ n + 1) :
    (Working.mergeLoop n w).pq.length = 1 := by
  have hpos := List.length_pos_of_ne_nil h
  induction n generalizing w with
  | zero => exact Nat.le_antisymm hn hpos
  | succ n ih =>
    rw [Working.mergeLoop]
    split
    · next h2 =>
      obtain ⟨pq, m, hlen, hmerge⟩ := Working.mergeOnce_eq_append h2
      have hne : w.mergeOnce.pq ≠ [] := hmerge ▸ Working.append_pq_ne_nil m _
      have hle : w.mergeOnce.pq.length ≤ pq.length + 1 := hmerge ▸ pqInsert_length_le _ _
      exact ih hne (by omega) (List.length_pos_of_ne_nil hne)
    · omega

theorem foldl_addLeaf_pq_ne_nil {ps : List (Byte × Word32)} {w : Working} (h : ps ≠ [] ∨ w.pq ≠ []) :
    (ps.foldl Working.addLeaf w).pq ≠ [] := by
  induction ps generalizing w with
  | nil => exact h.resolve_left (· rfl)
  | cons p ps ih => exact ih (.inr (Working.append_pq_ne_nil _ w))

/-! ### ROOT is not read before it is assigned -/

/-- The same working state with another ROOT. -/
def Working.withRoot (r : ArenaIndex) (w : Working) : Working := { w with root := r }

theorem Working.start_eq_withRoot (w : Working) : w.start = Working.init.withRoot w.root := rfl

theorem Working.count_withRoot (r : ArenaIndex) (w : Working) (input : List Byte) :
    (w.withRoot r).count input = (w.count input).withRoot r := rfl

theorem foldl_addLeaf_withRoot (r : ArenaIndex) (ps : List (Byte × Word32)) (w : Working) :
    ps.foldl Working.addLeaf (w.withRoot r) = (ps.foldl Working.addLeaf w).withRoot r := by
  induction ps generalizing w with
  | nil => rfl
  | cons p ps ih => exact ih (w.addLeaf p)

theorem Working.mergeOnce_withRoot (r : ArenaIndex) (w : Working) :
    (w.withRoot r).mergeOnce = w.mergeOnce.withRoot r := by
  unfold Working.mergeOnce Working.withRoot
  cases pqExtractMin w.node w.pq with
  | none => rfl
  | some first =>
    obtain ⟨a, pqA⟩ := first
    cases hB : pqExtractMin w.node pqA with
    | none => simp only [hB]
    | some second => simp only [hB]; rfl

theorem Working.mergeLoop_withRoot (r : ArenaIndex) (n : Nat) (w : Working) :
    Working.mergeLoop n (w.withRoot r) = (Working.mergeLoop n w).withRoot r := by
  induction n generalizing w with
  | zero => rfl
  | succ n ih =>
    rw [Working.mergeLoop, Working.mergeLoop, Working.mergeOnce_withRoot, ih]
    exact (apply_ite (Working.withRoot r) _ _ _).symm

/-- With one member in the queue, ROOT is assigned, so its old value is lost. -/
theorem Working.assignRoot_withRoot (r : ArenaIndex) {w : Working} (h : w.pq.length = 1) :
    (w.withRoot r).assignRoot = w.assignRoot := by
  obtain ⟨m, hm⟩ := List.length_eq_one_iff.mp h
  simp [Working.assignRoot, Working.withRoot, hm]

/-- `build` on a present symbol or more does not depend on the ROOT it starts with (41_tree_builder R69). -/
theorem Working.build_withRoot (r : ArenaIndex) {w : Working} (h : FreqTable.present w.freq ≠ []) :
    (w.withRoot r).build = w.build := by
  have hleaves : (w.withRoot r).buildLeaves = w.buildLeaves.withRoot r :=
    foldl_addLeaf_withRoot r (FreqTable.present w.freq) w
  have hne : w.buildLeaves.pq ≠ [] := foldl_addLeaf_pq_ne_nil (.inl h)
  have hone : (Working.mergeLoop w.buildLeaves.pq.length w.buildLeaves).pq.length = 1 :=
    Working.mergeLoop_pq_length hne (Nat.le_succ _)
  calc (w.withRoot r).build
      = ((Working.mergeLoop w.buildLeaves.pq.length w.buildLeaves).withRoot r).assignRoot := by
        simp only [Working.build, hleaves]
        exact congrArg Working.assignRoot (Working.mergeLoop_withRoot r _ _)
    _ = w.build := Working.assignRoot_withRoot r hone

theorem encodeInput_withRoot (outCap : Nat) (input : List Byte) (w : Working) (r : ArenaIndex) :
    encodeInput outCap input (w.withRoot r) = encodeInput outCap input w := by
  by_cases hk : (w.count input).k = 0#9
  · have hk' : ((w.withRoot r).count input).k = 0#9 := hk
    rw [encodeInput, encodeInput, if_pos hk, if_pos hk']
  · have hpresent : FreqTable.present (w.count input).freq ≠ [] := fun h => hk (by
      rw [Working.count_k, h]; rfl)
    simp only [encodeInput, Working.count_withRoot, Working.build_withRoot r hpresent]
    rfl

/-- What the matcher emits, and whether it faults, does not depend on ROOT. -/
theorem matchLoop_withRoot (es : List (Byte × CodeEntry)) (count : Word32) (bits : Bits) (w : Working)
    (r : ArenaIndex) :
    matchLoop es count bits (w.withRoot r) =
      (matchLoop es count bits w).map (fun p => (p.1, p.2.withRoot r)) := by
  induction bits generalizing w with
  | nil =>
    have hemit : (w.withRoot r).emit = w.emit := rfl
    simp only [matchLoop, hemit]
    split <;> rfl
  | cons b rest ih =>
    have hbit : (w.withRoot r).matchBit b = (w.matchBit b).withRoot r := rfl
    have hexact : exactMatch es ((w.matchBit b).withRoot r) = exactMatch es (w.matchBit b) := rfl
    have hext : extendable es ((w.matchBit b).withRoot r) = extendable es (w.matchBit b) := rfl
    have hemitted : ((w.matchBit b).withRoot r).emitted = (w.matchBit b).emitted.withRoot r := rfl
    have hemit : (w.withRoot r).emit = w.emit := rfl
    simp only [matchLoop, hbit, hexact, hext, hemitted, hemit, ih]
    split
    · split
      · cases matchLoop es count rest (w.matchBit b).emitted <;> rfl
      · split <;> rfl
    · rfl

/-- What `match` emits, and whether it faults, does not depend on ROOT. -/
theorem Working.matchSymbols_withRoot (bits : Bits) (count : Word32) (w : Working) (r : ArenaIndex) :
    (w.withRoot r).matchSymbols bits count =
      (w.matchSymbols bits count).map (fun p => (p.1, p.2.withRoot r)) :=
  matchLoop_withRoot _ count bits { w with curLen := 0#6, curBits := 0#32, emit := 0#32 } r

theorem decodeInput_withRoot (outCap : Nat) (input : List Byte) (w : Working) (r : ArenaIndex) :
    decodeInput outCap input (w.withRoot r) = decodeInput outCap input w := by
  have hcode : (w.withRoot r).code = w.code := rfl
  rw [decodeInput, decodeInput, hcode]
  cases parseContainer input w.code with
  | error f => rfl
  | ok p =>
    have hmatch := Working.matchSymbols_withRoot (unpack p.payload p.usable) p.count
      { w with code := p.table } r
    have htable : { w.withRoot r with code := p.table } = { w with code := p.table }.withRoot r := rfl
    simp only [htable, hmatch]
    cases { w with code := p.table }.matchSymbols (unpack p.payload p.usable) p.count <;> rfl

/-! ### The result of a command -/

theorem encodeInput_start (outCap : Nat) (input : List Byte) (w : Working) :
    encodeInput outCap input w.start = encodeInput outCap input Working.init :=
  encodeInput_withRoot outCap input Working.init w.root

theorem decodeInput_start (outCap : Nat) (input : List Byte) (w : Working) :
    decodeInput outCap input w.start = decodeInput outCap input Working.init :=
  decodeInput_withRoot outCap input Working.init w.root

/-- The input of a command is IN_LEN and the bytes below it (10_state R16). -/
theorem State.input_congr {s u : State} (hlen : s.inLen = u.inLen)
    (hin : ∀ a, a < s.inLen.toNat → s.inRead a = u.inRead a) : s.input = u.input := by
  rw [State.input, State.input, ← hlen]
  exact List.map_congr_left fun a ha => hin a (List.mem_range.mp ha)

/-- Two states that agree on IN_LEN, the capacities and the input give a command the same result or
fault. -/
theorem resultOf_congr (i : Instr) {s u : State} (hlen : s.inLen = u.inLen)
    (hinCap : s.cfg.inCap = u.cfg.inCap) (houtCap : s.cfg.outCap = u.cfg.outCap)
    (hinput : s.input = u.input) : resultOf i s = resultOf i u := by
  cases i with
  | encode => simp only [resultOf, encodeResult, encodeInput_start, hlen, hinCap, houtCap, hinput]
  | decode => simp only [resultOf, decodeResult, decodeInput_start, hlen, hinCap, houtCap, hinput]

/-- Ending a command sets every register of the result, and every byte of OUT it defines, from the result
or the fault alone. -/
theorem finish_congr (s u : State) (x : Except FaultReport (List Byte)) :
    (s.finish x).status = (u.finish x).status ∧ (s.finish x).errcode = (u.finish x).errcode ∧
      (s.finish x).errinfo = (u.finish x).errinfo ∧ (s.finish x).outLen = (u.finish x).outLen ∧
      (∀ a, (s.finish x).outDefined a = (u.finish x).outDefined a) ∧
      ∀ a, (s.finish x).outDefined a = true → (s.finish x).outRead a = (u.finish x).outRead a := by
  cases x with
  | ok out =>
    refine ⟨rfl, rfl, rfl, rfl, fun _ => rfl, fun a ha => Option.some.inj ?_⟩
    exact (complete_outRead s out a ha).trans (complete_outRead u out a ha).symm
  | error r =>
    refine ⟨rfl, rfl, rfl, rfl, fun _ => rfl, fun a ha => ?_⟩
    obtain ⟨-, -, -, -, -, hundef⟩ := raiseFault_faultedWith s r
    exact absurd ((hundef a (Nat.zero_le a)).symm.trans ha) (by decide)

/-- Settles O21: equal inputs give an equal result or fault, and the end of a command shows nothing else. -/
theorem resultDependsOnTheCommandInputsAlone : Obligations.ResultDependsOnTheCommandInputsAlone := by
  intro i s u hlen hinCap houtCap hin
  have hresult := resultOf_congr i hlen hinCap houtCap (State.input_congr hlen hin)
  exact ⟨_, _, exec_eq i s, exec_eq i u, hresult ▸ finish_congr s u (resultOf i s)⟩

/-- Settles O25: a command start is the initial working state but for ROOT, and an initial table holds its
initial entry at every symbol. -/
theorem commandStartInitialisesTheWorkingState : Obligations.CommandStartInitialisesTheWorkingState :=
  fun w x => ⟨start_freq_at w x, start_code_at w x, rfl, rfl, rfl, rfl, rfl, rfl, rfl, rfl, rfl⟩

end Sys2Proof.Machine
end

section
/-! The host's accesses and the idle ENGINE: one step each. -/

namespace Sys2Proof.Machine

/-- No byte of OUT is defined unless DONE = 1 (10_state R26). -/
theorem State.outDefined_of_not_done {s : State} (h : s.done = false) (a : Nat) :
    s.outDefined a = false := by
  simp [State.outDefined, h]

/-- Settles O4: the ENGINE's move with BUSY = 0 is no change. -/
theorem idleEngineDoesNothing : Obligations.IdleEngineDoesNothing := by
  refine fun s rest hidle => ⟨fun hs => ?_, fun hs => ?_⟩
  · rw [step_nil hs, engineStep_idle hidle]
  · exact (step_engineTurn hs).trans (engineStep_idle hidle)

/-- Settles O6: each register by its reset value, and OUT by DONE = 0. -/
theorem resetStateHoldsTheStatedValues : Obligations.ResetStateHoldsTheStatedValues :=
  fun _ a => ⟨rfl, rfl, rfl, rfl, rfl, rfl, rfl, State.outDefined_of_not_done (State.resetOf_done _) a,
    State.resetOf_busy _⟩

/-- A read of an existing register replies its value and changes nothing else (10_state R11). -/
theorem step_readReg {s : State} {rest : List HostAction} {n : Nat} {r : HostReg}
    (hr : HostReg.ofNumber n = some r) (hs : s.script = .readReg n :: rest) :
    step s = .next (s.afterRead rest (.reg n (s.readReg r))) := by
  rw [step_cons hs (by simp)]
  simp [hostAct, hostReadReg, hr, State.afterRead]

/-- A write of a register is `hostWriteReg` without the script's head. -/
theorem step_writeReg {s : State} {rest : List HostAction} {n : Nat} {v : Word64}
    (hs : s.script = .writeReg n v :: rest) : step s = hostWriteReg n v (s.setScript rest) :=
  step_cons hs (by simp)

theorem HostReg.ofNumber_eq_none {n : Nat} (h : 6 ≤ n) : HostReg.ofNumber n = none := by
  obtain ⟨k, rfl⟩ := Nat.exists_eq_add_of_le' h
  rfl

/-- The read-only registers ignore a write (10_state R11). -/
theorem hostWriteReg_readOnly {n : Nat} (h : n = 1 ∨ n = 2 ∨ n = 3 ∨ n = 5) (v : Word64) (s : State) :
    hostWriteReg n v s = .next s := by
  rcases h with rfl | rfl | rfl | rfl <;> rfl

theorem hostWriteReg_inLen {s : State} (h : s.busy = false) (v : Word64) :
    hostWriteReg 4 v s = .next (s.setInLen v) := by
  simp [hostWriteReg, HostReg.ofNumber, h]

theorem hostWriteReg_cmd {s : State} (h : s.busy = false) (c : BitVec 8) :
    hostWriteReg 0 (c.setWidth 64) s = .next (s.latchCommand c) := by
  have hc : ¬ 256 ≤ (c.setWidth 64).toNat := by
    have := c.isLt
    simp only [BitVec.toNat_setWidth]
    omega
  have hwidth : (c.setWidth 64).setWidth 8 = c := by simp
  simp only [hostWriteReg, HostReg.ofNumber, h, Bool.false_eq_true, if_false, if_neg hc, hwidth]

/-- Settles O8: register by register. -/
theorem registerFileReadsAndIgnoresAsStated : Obligations.RegisterFileReadsAndIgnoresAsStated := by
  refine fun s rest => ⟨step_readReg (r := .cmd) rfl, step_readReg (r := .status) rfl,
    step_readReg (r := .errcode) rfl, step_readReg (r := .errinfo) rfl, step_readReg (r := .inLen) rfl,
    step_readReg (r := .outLen) rfl, fun r v hr hs => ?_, fun v hidle hs => ?_, fun r v hr hs => ?_,
    fun r hr hs => ?_⟩
  · rw [step_writeReg hs, hostWriteReg_readOnly hr]
  · exact (step_writeReg hs).trans (hostWriteReg_inLen (s := s.setScript rest) hidle v)
  · rw [step_writeReg hs, hostWriteReg, HostReg.ofNumber_eq_none hr]
  · rw [step_cons hs (by simp), hostAct, hostReadReg, HostReg.ofNumber_eq_none hr]

/-- Settles O9: the next state is `latchCommand`, whose fields are read off. -/
theorem cmdWriteStartsACommand : Obligations.CmdWriteStartsACommand := by
  intro s rest c hidle hs
  have hnext : step s = .next ((s.setScript rest).latchCommand c) :=
    (step_writeReg hs).trans (hostWriteReg_cmd (s := s.setScript rest) hidle c)
  exact ⟨_, hnext, rfl, rfl, rfl, rfl, rfl, State.outDefined_of_not_done (State.latchCommand_done _ _),
    State.latchCommand_busy _ _, rfl, rfl, fun _ => rfl, rfl, rfl⟩

/-- A read of OUT with BUSY = 0 below OUT_CAP replies what `outRead` gives (20_memory R42). -/
theorem step_readOut {s : State} {rest : List HostAction} {a : Nat} (hidle : s.busy = false)
    (ha : a < s.cfg.outCap) (hs : s.script = .readOut a :: rest) :
    step s = .next (s.afterRead rest (.outByte a (s.outRead a))) := by
  rw [step_cons hs (by simp)]
  simp [hostAct, hostReadOut, hidle, Nat.not_le.mpr ha, State.afterRead]

/-- Settles O13: a finished block is idle, and OUT reads as the result. -/
theorem outReadsReturnTheResult : Obligations.OutReadsReturnTheResult := by
  rintro s rest bytes a b ⟨hstatus, -, -, -, hread, -⟩ ha hb hs
  have hidle : s.busy = false := by rw [State.busy, hstatus]; rfl
  obtain ⟨hlt, -⟩ := List.getElem?_eq_some_iff.mp hb
  have hout : s.outRead a = b := Option.some.inj ((hread a hlt).2.trans hb)
  rw [step_readOut hidle ha hs, hout]

end Sys2Proof.Machine
end

section
/-! The memory interface: the host's accesses to IN and OUT, which accesses have a meaning, and the byte
order of a 32-bit field (20_memory). -/

namespace Sys2Proof.Machine

/-! ### One step of an access to IN or OUT -/

/-- A host write to IN is allowed with BUSY = 0 below IN_CAP (20_memory R42; 70_reset_and_hazards R133). -/
theorem step_writeIn {s : State} {rest : List HostAction} {a : Nat} {b : Byte}
    (hs : s.script = .writeIn a b :: rest) :
    step s = if s.busy then .refused .writeInWhileBusy
      else if s.cfg.inCap ≤ a then .refused .inOffsetOutOfRange
      else .next ((s.setScript rest).writeIn a b) :=
  step_cons hs (by simp)

/-- A host read of IN is allowed below IN_CAP, whether BUSY is 0 or 1 (20_memory R42). -/
theorem step_readIn {s : State} {rest : List HostAction} {a : Nat} (hs : s.script = .readIn a :: rest) :
    step s = if s.cfg.inCap ≤ a then .refused .inOffsetOutOfRange
      else .next (s.afterRead rest (.inByte a (s.inRead a))) :=
  step_cons hs (by simp)

theorem step_readIn_of_lt {s : State} {rest : List HostAction} {a : Nat} (ha : a < s.cfg.inCap)
    (hs : s.script = .readIn a :: rest) :
    step s = .next (s.afterRead rest (.inByte a (s.inRead a))) := by
  rw [step_readIn hs, if_neg (Nat.not_le.mpr ha)]

theorem State.inRead_writeIn_same (s : State) (a : Nat) (b : Byte) : (s.writeIn a b).inRead a = b := by
  simp [State.inRead, Memory.read_write_same]

/-- Settles O10: the next state of a write is `writeIn`, which a read of IN sees at its own offset alone. -/
theorem inHoldsTheByteLastWritten : Obligations.InHoldsTheByteLastWritten := by
  refine fun s rest a b ha => ⟨fun hidle hs => ?_, step_readIn_of_lt ha⟩
  have hnext : step s = .next ((s.setScript rest).writeIn a b) := by
    rw [step_writeIn hs, hidle, if_neg Bool.false_ne_true, if_neg (Nat.not_le.mpr ha)]
  exact ⟨_, hnext, State.inRead_writeIn_same _ a b,
    fun x hx => State.inRead_writeIn_other (s.setScript rest) b hx, rfl⟩

/-- Settles O11: with the offset out of range, each access is refused in both branches of BUSY. -/
theorem accessesOutsideTheBuffersAreRefused : Obligations.AccessesOutsideTheBuffersAreRefused := by
  refine fun s rest a b => ⟨fun ha hs => ?_, fun ha hs => ?_, fun ha hs => ?_, fun hs => ?_⟩
  · rw [step_writeIn hs, if_pos ha, apply_ite Host.Outcome.refused]
  · rw [step_readIn hs, if_pos ha]
  · have hout : (s.setScript rest).cfg.outCap ≤ a := ha
    rw [step_cons hs (by simp), hostAct, hostReadOut, if_pos hout, apply_ite Host.Outcome.refused,
      State.setScript_busy]
  · exact step_cons hs (by simp)

/-! ### Reads -/

theorem HostReg.exists_ofNumber {n : Nat} (h : n < 6) : ∃ r, HostReg.ofNumber n = some r := by
  match n, h with
  | 0, _ | 1, _ | 2, _ | 3, _ | 4, _ | 5, _ => exact ⟨_, rfl⟩

/-- After a read the state differs in script and replies only, so a second read replies from the same
values. -/
theorem State.afterRead_afterRead (s : State) (script rest : List HostAction) (r r' : Reply) :
    (s.afterRead script r).afterRead rest r' = (s.afterRead rest r).reply r' := rfl

@[simp] theorem State.afterRead_readReg (s : State) (script : List HostAction) (r : Reply) (x : HostReg) :
    (s.afterRead script r).readReg x = s.readReg x := by
  simp [State.afterRead]

/-- Settles O14: each of the three reads, done once from `s` and once from the state after it. -/
theorem readsAreIdempotent : Obligations.ReadsAreIdempotent := by
  intro s rest x hread hallowed hs
  rcases hread with ⟨n, rfl⟩ | ⟨a, rfl⟩ | ⟨a, rfl⟩
  · obtain ⟨reg, hreg⟩ := HostReg.exists_ofNumber hallowed
    refine ⟨_, _, step_readReg hreg hs, rfl, ?_⟩
    rw [step_readReg hreg rfl, State.afterRead_readReg, State.afterRead_afterRead]
  · exact ⟨_, _, step_readIn_of_lt hallowed hs, rfl, step_readIn_of_lt hallowed rfl⟩
  · obtain ⟨hidle, ha⟩ := hallowed
    have hidle := Bool.eq_false_iff.mpr hidle
    exact ⟨_, _, step_readOut hidle ha hs, rfl, step_readOut hidle ha rfl⟩

/-! ### Which accesses have a meaning -/

/-- An access that is refused under a condition has a next state exactly when the condition fails and the
rest of it has one. -/
theorem exists_next_of_refused_if {c : Prop} [Decidable c] (r : Refusal)
    (o : Host.Outcome State Fault Refusal) :
    (∃ t, (if c then .refused r else o) = .next t) ↔ ¬ c ∧ ∃ t, o = .next t := by
  by_cases hc : c <;> simp [hc]

theorem hostReadReg_next_iff (n : Nat) (s : State) : (∃ t, hostReadReg n s = .next t) ↔ n < 6 := by
  rcases Nat.lt_or_ge n 6 with h | h
  · obtain ⟨reg, hreg⟩ := HostReg.exists_ofNumber h
    simp [hostReadReg, hreg, h]
  · simp [hostReadReg, HostReg.ofNumber_eq_none h, Nat.not_lt.mpr h]

/-- A write of a register has a next state exactly when the spec gives it a meaning: CMD and IN_LEN with
BUSY = 0, the read-only registers always (10_state R11, R14; 70_reset_and_hazards R133). -/
theorem hostWriteReg_next_iff (n : Nat) (v : Word64) (s : State) :
    (∃ t, hostWriteReg n v s = .next t) ↔ (HostAction.writeReg n v).allowed s := by
  match n with
  | 0 | 4 => simp [hostWriteReg, HostReg.ofNumber, HostAction.allowed, exists_next_of_refused_if]
  | 1 | 2 | 3 | 5 => simp [hostWriteReg, HostReg.ofNumber, HostAction.allowed]
  | k + 6 => simp [hostWriteReg, HostReg.ofNumber, HostAction.allowed]

theorem exists_engineStep_next (s : State) : ∃ t, engineStep s = .next t := by
  rcases engineStep_next s with ⟨-, x, hx⟩ | ⟨-, hx⟩
  · exact ⟨_, hx⟩
  · exact ⟨_, hx⟩

/-- An action of the host has a next state exactly when the spec gives it a meaning. -/
theorem hostAct_next_iff (a : HostAction) (s : State) :
    (∃ t, hostAct a s = .next t) ↔ a.allowed s := by
  cases a with
  | writeReg n v => exact hostWriteReg_next_iff n v s
  | readReg n => exact hostReadReg_next_iff n s
  | writeIn x b => simp [hostAct, hostWriteIn, HostAction.allowed, exists_next_of_refused_if]
  | readIn x => simp [hostAct, hostReadIn, HostAction.allowed, exists_next_of_refused_if]
  | writeOut x b => simp [hostAct, HostAction.allowed]
  | readOut x => simp [hostAct, hostReadOut, HostAction.allowed, exists_next_of_refused_if]
  | poll => simp [hostAct, HostAction.allowed]
  | engineTurn => simp [hostAct, HostAction.allowed, exists_engineStep_next]
  | reset => simp [hostAct, HostAction.allowed]

/-- Whether an action has a meaning does not depend on what the host does after it. -/
theorem HostAction.allowed_setScript (a : HostAction) (s : State) (rest : List HostAction) :
    a.allowed (s.setScript rest) ↔ a.allowed s := by
  cases a <;> rfl

/-- Settles O15: the ENGINE's move always has a next state, and a host action has one exactly when it is
allowed. -/
theorem stepStopsExactlyOnAnAccessWithoutMeaning :
    Obligations.StepStopsExactlyOnAnAccessWithoutMeaning := by
  intro s
  cases hs : s.script with
  | nil => simp [step_nil hs, exists_engineStep_next]
  | cons a rest =>
    have hhead : (∃ t, step s = .next t) ↔ a.allowed s := by
      by_cases hpoll : a = .poll ∧ s.busy = true
      · obtain ⟨rfl, hbusy⟩ := hpoll
        rw [step_poll_busy hs hbusy]
        exact iff_of_true (exists_engineStep_next s) trivial
      · rw [step_cons hs hpoll, hostAct_next_iff, HostAction.allowed_setScript]
    rw [hhead]
    refine ⟨fun ha b l hcons => ?_, fun h => h a rest rfl⟩
    cases hcons
    exact ha

/-! ### The byte order of a 32-bit field -/

/-- Settles O39: byte `i` of the field is the value shifted right by `24 - 8 * i` bits, modulo 256. -/
theorem wordFieldsAreBigEndian : Obligations.WordFieldsAreBigEndian :=
  fun v rest => ⟨by simp [bytesBe32, Nat.shiftRight_eq_div_pow], takeBe32_bytesBe32 v rest⟩

end Sys2Proof.Machine
end

section
/-! The encoding: the command words (30_encoding R46, R49, R50) and the layout of an assembled Container
(30_encoding R51, R52, R56). -/

namespace Sys2Proof

/-! ### Command words -/

/-- What the decoder says of a byte: it is the word of an instruction, or of none and refused by name. -/
theorem decode_cons (op : Byte) (rest : List Byte) :
    (∃ i, encode i = [op] ∧ decode (op :: rest) = .ok (i, rest)) ∨
      (∀ i, encode i ≠ [op]) ∧ decode (op :: rest) = .error (.illegalCommand op) := by
  by_cases h1 : op = 0x01#8
  · exact .inl ⟨.encode, by rw [h1, encode], by rw [decode, if_pos h1]⟩
  by_cases h2 : op = 0x02#8
  · exact .inl ⟨.decode, by rw [h2, encode], by rw [decode, if_neg h1, if_pos h2]⟩
  refine .inr ⟨fun i hi => ?_, by rw [decode, if_neg h1, if_neg h2]⟩
  cases i with
  | encode => exact h1 (List.singleton_inj.mp hi).symm
  | decode => exact h2 (List.singleton_inj.mp hi).symm

theorem decode_encode_append (i : Instr) (rest : List Byte) : decode (encode i ++ rest) = .ok (i, rest) := by
  cases i <;> rfl

theorem decode_cons_eq_ok {op : Byte} {rest rest' : List Byte} {i : Instr}
    (h : decode (op :: rest) = .ok (i, rest')) : encode i = [op] ∧ rest' = rest := by
  rcases decode_cons op rest with ⟨j, hj, hok⟩ | ⟨-, herr⟩
  · cases hok.symm.trans h
    exact ⟨hj, rfl⟩
  · cases herr.symm.trans h

theorem decode_cons_of_no_word {op : Byte} (h : ∀ i, encode i ≠ [op]) (rest : List Byte) :
    decode (op :: rest) = .error (.illegalCommand op) := by
  rcases decode_cons op rest with ⟨i, hi, -⟩ | ⟨-, herr⟩
  · exact absurd hi (h i)
  · exact herr

open Machine

/-- The bytes that encode no operation are the symbols without the two command words (30_encoding R50). -/
theorem filter_no_word_eq_erase :
    symbols.filter (fun op => decide (∀ i ∈ [Instr.encode, Instr.decode], encode i ≠ [op])) =
      (symbols.erase 0x02#8).erase 0x01#8 := by
  rw [(symbols_nodup.erase 0x02#8).erase_eq_filter, symbols_nodup.erase_eq_filter, List.filter_filter]
  refine List.filter_congr fun op _ => ?_
  rw [Bool.eq_iff_iff]
  simp [encode, @eq_comm _ op]

/-- Settles O2: by `decode_cons`, and by taking the two words out of the 256 bytes. -/
theorem decodeAndEncodeAgreeOnEveryCommandWord : Obligations.DecodeAndEncodeAgreeOnEveryCommandWord := by
  refine ⟨decode_encode_append, fun _ _ _ _ => decode_cons_eq_ok,
    fun _ rest h => decode_cons_of_no_word h rest, ?_⟩
  have hmem : 0x01#8 ∈ symbols.erase 0x02#8 := (List.mem_erase_of_ne (by decide)).mpr (mem_symbols _)
  rw [filter_no_word_eq_erase, List.length_erase_of_mem hmem, List.length_erase_of_mem (mem_symbols _),
    symbols_length]

/-- Settles O1: each word by evaluating the decoder. -/
theorem commandWordsDecodeAsTheOpcodeMapSays : Obligations.CommandWordsDecodeAsTheOpcodeMapSays :=
  ⟨rfl, rfl, rfl, rfl, rfl, rfl, rfl, rfl⟩

end Sys2Proof

namespace Sys2Proof.Machine

/-! ### The layout of a Container -/

/-- The records are six bytes each: dropping `i` of them drops `6 * i` bytes (30_encoding R52). -/
theorem drop_flatMap_recordBytes (es : List (Byte × CodeEntry)) (tail : List Byte) {i : Nat}
    (h : i ≤ es.length) :
    (es.flatMap (fun p => recordBytes p.1 p.2) ++ tail).drop (6 * i) =
      (es.drop i).flatMap (fun p => recordBytes p.1 p.2) ++ tail := by
  have hlen : ((es.take i).flatMap (fun p => recordBytes p.1 p.2)).length = 6 * i := by
    rw [flatMap_recordBytes_length, List.length_take_of_le h]
  conv_lhs => rw [← List.take_append_drop i es, List.flatMap_append, List.append_assoc]
  exact List.drop_left' hlen

/-- The fields of a Container from the usable bits on (30_encoding R51). -/
def fieldsAfterTable (usable : Byte) (payload : List Byte) : List Byte :=
  usable :: (bytesBe32 (BitVec.ofNat 32 payload.length) ++ payload)

section
variable (n : Nat) (t : CodeTable) (usable : Byte) (payload : List Byte)

/-- The fields of a Container, one after the other (30_encoding R51). -/
theorem containerBytes_serialize :
    containerBytes n (serialize t) usable payload =
      bytesBe32 (BitVec.ofNat 32 n) ++ (bytesBe32 (BitVec.ofNat 32 (CodeTable.entries t).length) ++
        ((CodeTable.entries t).flatMap (fun p => recordBytes p.1 p.2) ++
          fieldsAfterTable usable payload)) := by
  simp [containerBytes, serialize, fieldsAfterTable]

theorem containerBytes_drop_four :
    (containerBytes n (serialize t) usable payload).drop 4 =
      bytesBe32 (BitVec.ofNat 32 (CodeTable.entries t).length) ++
        ((CodeTable.entries t).flatMap (fun p => recordBytes p.1 p.2) ++
          fieldsAfterTable usable payload) := by
  rw [containerBytes_serialize]
  exact List.drop_left' (bytesBe32_length _)

theorem containerBytes_drop_eight :
    (containerBytes n (serialize t) usable payload).drop 8 =
      (CodeTable.entries t).flatMap (fun p => recordBytes p.1 p.2) ++
        fieldsAfterTable usable payload := by
  rw [show 8 = 4 + 4 from rfl, ← List.drop_drop, containerBytes_drop_four,
    List.drop_left' (bytesBe32_length _)]

/-- Record `i` begins at offset 8 + 6 i, and the field after the last record where a next one would. -/
theorem containerBytes_drop_record {i : Nat} (h : i ≤ (CodeTable.entries t).length) :
    (containerBytes n (serialize t) usable payload).drop (8 + 6 * i) =
      ((CodeTable.entries t).drop i).flatMap (fun p => recordBytes p.1 p.2) ++
        fieldsAfterTable usable payload := by
  rw [← List.drop_drop, containerBytes_drop_eight, drop_flatMap_recordBytes _ _ h]

theorem containerBytes_drop_table :
    (containerBytes n (serialize t) usable payload).drop (8 + 6 * (CodeTable.entries t).length) =
      fieldsAfterTable usable payload := by
  rw [containerBytes_drop_record n t usable payload le_rfl, List.drop_length, List.flatMap_nil,
    List.nil_append]

theorem containerBytes_drop_usable :
    (containerBytes n (serialize t) usable payload).drop (9 + 6 * (CodeTable.entries t).length) =
      bytesBe32 (BitVec.ofNat 32 payload.length) ++ payload := by
  rw [show 9 + 6 * (CodeTable.entries t).length = 8 + 6 * (CodeTable.entries t).length + 1 by omega,
    ← List.drop_drop, containerBytes_drop_table, fieldsAfterTable, List.drop_one, List.tail_cons]

theorem containerBytes_drop_payloadLength :
    (containerBytes n (serialize t) usable payload).drop (13 + 6 * (CodeTable.entries t).length) =
      payload := by
  rw [show 13 + 6 * (CodeTable.entries t).length = 9 + 6 * (CodeTable.entries t).length + 4 by omega,
    ← List.drop_drop, containerBytes_drop_usable, List.drop_left' (bytesBe32_length _)]

/-- The size of a Container (30_encoding R56). -/
theorem containerBytes_length :
    (containerBytes n (serialize t) usable payload).length =
      13 + 6 * (CodeTable.entries t).length + payload.length := by
  simp only [containerBytes, List.length_append, bytesBe32_length, serialize_length, List.length_singleton]
  omega

theorem containerBytes_record {i : Nat} {x : Byte} {e : CodeEntry}
    (h : (CodeTable.entries t)[i]? = some (x, e)) :
    ((containerBytes n (serialize t) usable payload).drop (8 + 6 * i)).take 6 = recordBytes x e := by
  obtain ⟨hi, hget⟩ := List.getElem?_eq_some_iff.mp h
  rw [containerBytes_drop_record n t usable payload hi.le, List.drop_eq_getElem_cons hi, hget,
    List.flatMap_cons, List.append_assoc]
  exact List.take_left' (recordBytes_length x e)

end

/-- Settles O35: each field is the head of what stands from its offset on. -/
theorem containerFieldsStandAtTheirOffsets : Obligations.ContainerFieldsStandAtTheirOffsets := by
  intro n t usable payload _ _
  refine ⟨containerBytes_length n t usable payload, ?_, ?_, fun i x e h => ?_, ?_, ?_,
    containerBytes_drop_payloadLength n t usable payload⟩
  · rw [containerBytes_drop_four, containerBytes_serialize, takeBe32_bytesBe32]
  · rw [containerBytes_drop_eight, containerBytes_drop_four, takeBe32_bytesBe32]
  · exact (containerBytes_record n t usable payload h).trans (recordBytes_eq x e)
  · rw [← List.head?_drop, containerBytes_drop_table, fieldsAfterTable, List.head?_cons]
  · rw [containerBytes_drop_usable, takeBe32_bytesBe32]

end Sys2Proof.Machine
end

section
/-! The frequency counter: after `count` from an all-zero FREQ, the counts, their sum and the number of
distinct symbols (40_frequency_counter R60, R61, R62). -/

namespace Sys2Proof.Machine

/-! ### The distinct symbols of an input -/

theorem mem_distinctSymbols {input : List Byte} {x : Byte} : x ∈ distinctSymbols input ↔ x ∈ input := by
  simp [distinctSymbols, mem_symbols]

theorem distinctSymbols_length_le (input : List Byte) : (distinctSymbols input).length ≤ 256 :=
  (List.length_filter_le _ _).trans_eq symbols_length

theorem distinctSymbols_eq_nil_iff {input : List Byte} : distinctSymbols input = [] ↔ input = [] := by
  simp only [List.eq_nil_iff_forall_not_mem, mem_distinctSymbols]

/-- The occurrences of the members of a repeat-free list that covers the input add up to its length. -/
theorem sum_map_count_of_subset {input l : List Byte} (hnodup : l.Nodup) (hsub : input ⊆ l) :
    (l.map input.count).sum = input.length := by
  rw [← List.sum_toFinset _ hnodup]
  simpa using Multiset.sum_count_eq_card (s := l.toFinset) (m := (input : Multiset Byte))
    fun _ hx => List.mem_toFinset.mpr (hsub hx)

/-! ### FREQ and K after `count` -/

section
variable {w : Working} (hzero : ∀ x, SymbolTable.at w.freq x = 0#32)
variable {input : List Byte} (hlen : input.length ≤ 2 ^ 32 - 1)
include hzero hlen

/-- No count overflows its 32 bits, for it is at most the length. -/
theorem Working.count_freq_toNat (x : Byte) :
    (SymbolTable.at (w.count input).freq x).toNat = input.count x := by
  have hcount : input.count x ≤ input.length := List.count_le_length
  rw [Working.count_freq_at hzero, BitVec.toNat_ofNat, Nat.mod_eq_of_lt (by omega)]

theorem Working.count_freq_eq_zero_iff (x : Byte) :
    SymbolTable.at (w.count input).freq x = 0#32 ↔ x ∉ input := by
  rw [← BitVec.toNat_inj, Working.count_freq_toNat hzero hlen, BitVec.toNat_zero, List.count_eq_zero]

/-- The present symbols are the distinct symbols, each with its count (40_frequency_counter R62). -/
theorem Working.count_present :
    FreqTable.present (w.count input).freq =
      (distinctSymbols input).map (fun x => (x, SymbolTable.at (w.count input).freq x)) := by
  have hfilter : symbols.filter (fun x => SymbolTable.at (w.count input).freq x != 0#32) =
      distinctSymbols input :=
    List.filter_congr fun x _ => by
      rw [Bool.eq_iff_iff, bne_iff_ne, ne_eq, Working.count_freq_eq_zero_iff hzero hlen, not_not,
        List.contains_iff_mem]
  rw [FreqTable.present_eq_map, hfilter]

/-- K holds the number of distinct symbols: at most 256, it fits 9 bits. -/
theorem Working.count_k_toNat : (w.count input).k.toNat = (distinctSymbols input).length := by
  have hle := distinctSymbols_length_le input
  rw [Working.count_k, Working.count_present hzero hlen, List.length_map, BitVec.toNat_ofNat,
    Nat.mod_eq_of_lt (by omega)]

theorem Working.count_k_eq_zero_iff : (w.count input).k = 0#9 ↔ input = [] := by
  rw [← BitVec.toNat_inj, Working.count_k_toNat hzero hlen, BitVec.toNat_zero, List.length_eq_zero_iff,
    distinctSymbols_eq_nil_iff]

end

/-- Settles O24: each entry is its symbol's number of occurrences, and the sum and K follow from that. -/
theorem countCountsEverySymbol : Obligations.CountCountsEverySymbol := by
  intro input w hlen hzero
  have hfreq := Working.count_freq_toNat hzero hlen
  refine ⟨hfreq, ?_, Working.count_k_toNat hzero hlen, Working.count_k_eq_zero_iff hzero hlen,
    Working.count_frame w input⟩
  simp only [hfreq]
  exact sum_map_count_of_subset symbols_nodup fun x _ => mem_symbols x

end Sys2Proof.Machine
end

section
/-! The tree builder: what an extraction and one pass of the merge loop do (41_tree_builder R65, R67, R69). -/

namespace Sys2Proof.Machine

/-! ### Extraction and merge -/

/-- What PQ_EXTRACT_MIN does, as a rearrangement of the queue (41_tree_builder R67). -/
theorem pqExtractMin_spec (nodes : List Node) {pq : List ArenaIndex} (h : pq ≠ []) :
    ∃ m rest, pqExtractMin nodes pq = some (m, rest) ∧ pq.Perm (m :: rest) ∧
      ∀ i ∈ pq, i ≠ m → keyBefore nodes m i = true := by
  cases pq with
  | nil => exact absurd rfl h
  | cons i rest =>
    obtain ⟨hmem, hleast⟩ := pqMin_least nodes i rest
    exact ⟨_, _, rfl, List.perm_cons_erase hmem, hleast⟩

/-- Settles O26: in a queue without repeats, what is left are the members other than the minimum. -/
theorem extractMinTakesTheLeastKey : Obligations.ExtractMinTakesTheLeastKey := by
  intro nodes pq hnodup hne
  obtain ⟨m, rest, hextract, hperm, hleast⟩ := pqExtractMin_spec nodes hne
  obtain ⟨hm, hrest⟩ := List.nodup_cons.mp (hperm.nodup hnodup)
  have hmem : ∀ i, i ∈ rest ↔ i ∈ pq ∧ i ≠ m := fun i => by
    rw [hperm.mem_iff, List.mem_cons]
    refine ⟨fun hi => ⟨.inr hi, ?_⟩, fun ⟨hi, hne⟩ => hi.resolve_left hne⟩
    rintro rfl
    exact hm hi
  refine ⟨m, rest, hextract, hperm.mem_iff.mpr List.mem_cons_self, hrest, hmem, fun i hi => ?_⟩
  obtain ⟨hipq, him⟩ := (hmem i).mp hi
  exact (keyBefore_iff nodes m i).mp (hleast i hipq him)

/-- Every member of the queue is the index of an entry in use. -/
def Working.QueueValid (w : Working) : Prop := ∀ i ∈ w.pq, i.toNat < w.nnodes

/-- An index below the arena's capacity is not cut to fewer bits. -/
theorem toNat_ofNat_arenaIndex {n : Nat} (h : n < 512) : (BitVec.ofNat 9 n).toNat = n := by
  rw [BitVec.toNat_ofNat, Nat.mod_eq_of_lt h]

/-- With room in the arena the index of a new entry is new to the queue. -/
theorem Working.append_eq {w : Working} (hvalid : w.QueueValid) (hroom : w.nnodes < 512) (n : Node) :
    w.append n = { w with node := w.node ++ [n], pq := w.pq ++ [BitVec.ofNat 9 w.nnodes] } := by
  have hnew : BitVec.ofNat 9 w.nnodes ∉ w.pq := fun hmem =>
    absurd (hvalid _ hmem) (by rw [toNat_ofNat_arenaIndex hroom]; omega)
  rw [Working.append, pqInsert, if_neg hnew]

/-- Which members a merge pass takes out, and the entry it appends (41_tree_builder R69). -/
theorem Working.mergeOnce_spec {w : Working} (h2 : 2 ≤ w.pq.length) (hvalid : w.QueueValid)
    (hroom : w.nnodes < 512) :
    ∃ a b rest, w.pq.Perm (a :: b :: rest) ∧ (∀ i ∈ w.pq, i ≠ a → keyBefore w.node a i = true) ∧
      (∀ i ∈ w.pq, i ≠ a → i ≠ b → keyBefore w.node b i = true) ∧
      w.mergeOnce = { w with
        node := w.node ++ [.internal (weightAt w.node a + weightAt w.node b) a b]
        pq := rest ++ [BitVec.ofNat 9 w.nnodes] } := by
  obtain ⟨a, pqA, hA, hpermA, hleastA⟩ := pqExtractMin_spec w.node (pq := w.pq)
    (List.ne_nil_of_length_pos (by omega))
  have hlen : w.pq.length = pqA.length + 1 := hpermA.length_eq
  obtain ⟨b, rest, hB, hpermB, hleastB⟩ := pqExtractMin_spec w.node (pq := pqA)
    (List.ne_nil_of_length_pos (by omega))
  have hperm : w.pq.Perm (a :: b :: rest) := hpermA.trans (hpermB.cons a)
  have hrest : Working.QueueValid { w with pq := rest } := fun i hi =>
    hvalid i (hperm.mem_iff.mpr (List.mem_cons_of_mem _ (List.mem_cons_of_mem _ hi)))
  refine ⟨a, b, rest, hperm, hleastA, fun i hi hia => ?_, ?_⟩
  · exact hleastB i ((List.mem_cons.mp (hpermA.mem_iff.mp hi)).resolve_left hia)
  · simp only [Working.mergeOnce, hA, hB]
    exact Working.append_eq hrest hroom _

/-- Settles O27: the two members taken out differ since the queue has no repeats, and the new index is not
in it since its members are valid. -/
theorem mergeJoinsTheTwoLightestNodes : Obligations.MergeJoinsTheTwoLightestNodes := by
  intro w hnodup h2 hvalid hroom
  have hnew : (BitVec.ofNat 9 w.nnodes).toNat = w.nnodes := toNat_ofNat_arenaIndex (by omega)
  obtain ⟨a, b, rest, hperm, hleastA, hleastB, hmerge⟩ := Working.mergeOnce_spec h2 hvalid (by omega)
  obtain ⟨hab, ha, hb, hrest⟩ : a ≠ b ∧ a ∉ rest ∧ b ∉ rest ∧ rest.Nodup := by
    simpa [and_assoc] using hperm.nodup hnodup
  have hmem : ∀ i, i ∈ rest ↔ i ∈ w.pq ∧ i ≠ a ∧ i ≠ b := fun i => by
    rw [hperm.mem_iff, List.mem_cons, List.mem_cons]
    refine ⟨fun hi => ⟨.inr (.inr hi), ?_, ?_⟩, fun ⟨hi, hia, hib⟩ =>
      (hi.resolve_left hia).resolve_left hib⟩
    · rintro rfl; exact ha hi
    · rintro rfl; exact hb hi
  refine ⟨a, b, hperm.mem_iff.mpr (by simp), hperm.mem_iff.mpr (by simp), hab, hleastA, hleastB, ?_⟩
  rw [hmerge]
  refine ⟨rfl, fun i => ?_, ?_, ?_, rfl⟩
  · rw [← hmem, List.mem_append, List.mem_singleton, ← BitVec.toNat_inj, hnew]
  · refine List.nodup_append.mpr ⟨hrest, List.nodup_singleton _, fun i hi j hj hij => ?_⟩
    have hlt : i.toNat < w.nnodes := hvalid i ((hmem i).mp hi).1
    rw [hij, List.mem_singleton.mp hj, hnew] at hlt
    exact lt_irrefl _ hlt
  · rw [hperm.length_eq]
    simp

end Sys2Proof.Machine
end

section
/-! The arena and its weights after `build` (41_tree_builder R68 to R73): two invariants of the merge loop. -/

namespace Sys2Proof.Machine

/-! ### The shape of the arena while `build` runs -/

/-- The indices of an entry's children, the left one first; a leaf has none (10_state R18). -/
def Node.children : Node → List Nat
  | .leaf _ _ => []
  | .internal _ l r => [l.toNat, r.toNat]

@[simp] theorem Node.children_leaf (s : Byte) (c : Word32) : (Node.leaf s c).children = [] := rfl

@[simp] theorem Node.children_internal (c : Word32) (l r : ArenaIndex) :
    (Node.internal c l r).children = [l.toNat, r.toNat] := rfl

theorem Node.mem_children {n : Node} {j : Nat} :
    j ∈ n.children ↔ ∃ c l r, n = .internal c l r ∧ (l.toNat = j ∨ r.toNat = j) := by
  cases n with
  | leaf s c => simp
  | internal c l r => simp [eq_comm]

/-- When lists joined together hold no value twice, a value of theirs stands in exactly one of them. -/
theorem existsUnique_getElem?_of_mem_flatMap {α β : Type} {l : List α} {f : α → List β}
    (hnodup : (l.flatMap f).Nodup) {x : β} (hx : x ∈ l.flatMap f) :
    ∃! p : Nat, ∃ n, l[p]? = some n ∧ x ∈ f n := by
  obtain ⟨n, hn, hxn⟩ := List.mem_flatMap.mp hx
  obtain ⟨p, hp⟩ := List.getElem?_of_mem hn
  refine ⟨p, ⟨n, hp, hxn⟩, ?_⟩
  rintro q ⟨m, hq, hxm⟩
  have hdisjoint := List.pairwise_iff_getElem.mp (List.nodup_flatMap.mp hnodup).2
  obtain ⟨hpl, rfl⟩ := List.getElem?_eq_some_iff.mp hp
  obtain ⟨hql, rfl⟩ := List.getElem?_eq_some_iff.mp hq
  rcases Nat.lt_trichotomy q p with hlt | heq | hlt
  · exact absurd hxn (hdisjoint q p hql hpl hlt hxm)
  · exact heq
  · exact absurd hxm (hdisjoint p q hpl hql hlt hxn)

/-- The arena between two passes of `build`: the leaves first, internal entries with smaller children after
them, and every index in use once either a child or in the queue (41_tree_builder R69, R73). -/
structure Working.Forest (leaves : List (Byte × Word32)) (w : Working) : Prop where
  /-- The arena begins with the leaves, in their order. -/
  leavesFirst : leaves.map (fun p => Node.leaf p.1 p.2) <+: w.node
  /-- Every later entry is internal, with children before it. -/
  internal : ∀ j, leaves.length ≤ j → j < w.nnodes →
    ∃ c l r, w.node[j]? = some (.internal c l r) ∧ l.toNat < j ∧ r.toNat < j
  /-- The children and the queue together list every index in use once. -/
  links : (w.node.flatMap Node.children ++ w.pq.map BitVec.toNat).Perm (List.range w.nnodes)
  /-- The newest entry is in the queue. -/
  newest : ∃ i ∈ w.pq, i.toNat + 1 = w.nnodes
  /-- Each pass adds one entry and takes one member from the queue. -/
  size : w.nnodes + w.pq.length = 2 * leaves.length

section
variable {leaves : List (Byte × Word32)} {w : Working} (h : w.Forest leaves)
include h

theorem Working.Forest.queueValid : w.QueueValid := fun _ hi =>
  List.mem_range.mp (h.links.mem_iff.mp (List.mem_append_right _ (List.mem_map_of_mem hi)))

theorem Working.Forest.child_lt {n : Node} (hn : n ∈ w.node) {j : Nat} (hj : j ∈ n.children) :
    j < w.nnodes :=
  List.mem_range.mp (h.links.mem_iff.mp (List.mem_append_left _ (List.mem_flatMap.mpr ⟨n, hn, hj⟩)))

/-- Entry `j` below the number of leaves is leaf `j`. -/
theorem Working.Forest.node_getElem?_leaf {j : Nat} {p : Byte × Word32} (hj : leaves[j]? = some p) :
    w.node[j]? = some (.leaf p.1 p.2) := by
  obtain ⟨more, hnode⟩ := h.leavesFirst
  rw [← hnode, List.getElem?_append_left (by simpa using (List.getElem?_eq_some_iff.mp hj).1),
    List.getElem?_map, hj, Option.map_some]

theorem Working.Forest.children_nodup : (w.node.flatMap Node.children).Nodup :=
  (List.nodup_append.mp (h.links.nodup_iff.mpr List.nodup_range)).1

/-- An index in use that is not in the queue is the child of exactly one entry. -/
theorem Working.Forest.existsUnique_parent {j : Nat} (hj : j < w.nnodes)
    (hpq : j ∉ w.pq.map BitVec.toNat) :
    ∃! p : Nat, ∃ c l r, w.node[p]? = some (.internal c l r) ∧ (l.toNat = j ∨ r.toNat = j) := by
  have hchild : j ∈ w.node.flatMap Node.children :=
    (List.mem_append.mp (h.links.mem_iff.mpr (List.mem_range.mpr hj))).resolve_right hpq
  refine (existsUnique_congr fun p => ?_).mp
    (existsUnique_getElem?_of_mem_flatMap h.children_nodup hchild)
  constructor
  · rintro ⟨n, hn, hmem⟩
    obtain ⟨c, l, r, rfl, hlr⟩ := Node.mem_children.mp hmem
    exact ⟨c, l, r, hn, hlr⟩
  · rintro ⟨c, l, r, hn, hlr⟩
    exact ⟨_, hn, Node.mem_children.mpr ⟨c, l, r, rfl, hlr⟩⟩

/-- The two children of an entry differ. -/
theorem Working.Forest.left_ne_right {j : Nat} {c : Word32} {l r : ArenaIndex}
    (hj : w.node[j]? = some (.internal c l r)) : l ≠ r := by
  have hpair : [l.toNat, r.toNat].Nodup :=
    (List.nodup_flatMap.mp h.children_nodup).1 _ (List.mem_of_getElem? hj)
  rintro rfl
  simp at hpair

/-- With one member in the queue, that member is the newest entry. -/
theorem Working.Forest.root_newest {r : ArenaIndex} (hr : w.pq = [r]) : r.toNat + 1 = w.nnodes := by
  obtain ⟨i, hi, hlast⟩ := h.newest
  rw [hr, List.mem_singleton] at hi
  rwa [hi] at hlast

end

/-- The two members a merge takes out become children, and the new entry is in the queue. -/
theorem Working.Forest.mergeOnce {leaves : List (Byte × Word32)} {w : Working} (h : w.Forest leaves)
    (h2 : 2 ≤ w.pq.length) (hK : leaves.length ≤ 256) : w.mergeOnce.Forest leaves := by
  have hsize := h.size
  have hroom : w.nnodes < 512 := by omega
  obtain ⟨a, b, rest, hperm, -, -, hmerge⟩ := Working.mergeOnce_spec h2 h.queueValid hroom
  have hnew : (BitVec.ofNat 9 w.nnodes).toNat = w.nnodes := toNat_ofNat_arenaIndex hroom
  have hlt : ∀ i ∈ a :: b :: rest, i.toNat < w.nnodes := fun i hi =>
    h.queueValid i (hperm.mem_iff.mpr hi)
  have hnode : w.mergeOnce.node = w.node ++ [_] := congrArg Working.node hmerge
  have hpq : w.mergeOnce.pq = rest ++ [BitVec.ofNat 9 w.nnodes] := congrArg Working.pq hmerge
  have hnnodes : w.mergeOnce.nnodes = w.nnodes + 1 := by
    rw [Working.nnodes, hnode, List.length_append, List.length_singleton, Working.nnodes]
  constructor
  case leavesFirst => exact hnode ▸ h.leavesFirst.trans (List.prefix_append _ _)
  case internal =>
    intro j hj hjn
    rw [hnode]
    rcases Nat.lt_succ_iff_lt_or_eq.mp (hnnodes ▸ hjn) with hold | rfl
    · obtain ⟨c, l, r, hget, hl, hr⟩ := h.internal j hj hold
      exact ⟨c, l, r, (List.getElem?_append_left hold).trans hget, hl, hr⟩
    · exact ⟨_, a, b, List.getElem?_concat_length, hlt a (by simp), hlt b (by simp)⟩
  case links =>
    rw [hnnodes, List.range_succ]
    calc w.mergeOnce.node.flatMap Node.children ++ w.mergeOnce.pq.map BitVec.toNat
        = w.node.flatMap Node.children ++ (a :: b :: rest).map BitVec.toNat ++ [w.nnodes] := by
          simp [hnode, hpq, hnew, -BitVec.toNat_ofNat]
      _ |>.Perm (w.node.flatMap Node.children ++ w.pq.map BitVec.toNat ++ [w.nnodes]) :=
          ((hperm.symm.map _).append_left _).append_right _
      _ |>.Perm (List.range w.nnodes ++ [w.nnodes]) := h.links.append_right _
  case newest => exact ⟨_, hpq ▸ List.mem_concat_self, by rw [hnew, hnnodes]⟩
  case size =>
    have hlen : w.pq.length = rest.length + 2 := hperm.length_eq
    rw [hpq, hnnodes, List.length_append, List.length_singleton]
    omega

/-! ### Phase 1: the leaves -/

/-- The members of the queue are all indices in use, as phase 1 leaves them (41_tree_builder R68). -/
def Working.QueueFull (w : Working) : Prop := w.pq.map BitVec.toNat = List.range w.nnodes

theorem Working.QueueFull.queueValid {w : Working} (h : w.QueueFull) : w.QueueValid := fun _ hi =>
  List.mem_range.mp (h ▸ List.mem_map_of_mem hi)

theorem Working.QueueFull.of_empty {w : Working} (hnode : w.node = []) (hpq : w.pq = []) :
    w.QueueFull := by
  rw [Working.QueueFull, Working.nnodes, hnode, hpq]; rfl

theorem Working.addLeaf_nnodes (w : Working) (p : Byte × Word32) :
    (w.addLeaf p).nnodes = w.nnodes + 1 := List.length_append

theorem Working.QueueFull.addLeaf {w : Working} (h : w.QueueFull) (hroom : w.nnodes < 512)
    (p : Byte × Word32) : (w.addLeaf p).QueueFull := by
  have hpq : (w.addLeaf p).pq = w.pq ++ [BitVec.ofNat 9 w.nnodes] :=
    congrArg Working.pq (Working.append_eq h.queueValid hroom _)
  rw [Working.QueueFull, hpq, Working.addLeaf_nnodes, List.range_succ, List.map_append, h,
    List.map_singleton, toNat_ofNat_arenaIndex hroom]

theorem Working.QueueFull.foldl_addLeaf {w : Working} (h : w.QueueFull) {ps : List (Byte × Word32)}
    (hroom : w.nnodes + ps.length ≤ 512) : (ps.foldl Working.addLeaf w).QueueFull := by
  induction ps generalizing w with
  | nil => exact h
  | cons p ps ih =>
    rw [List.length_cons] at hroom
    exact ih (h.addLeaf (by omega) p) (by rw [Working.addLeaf_nnodes]; omega)

theorem Working.buildLeaves_node {w : Working} (hnode : w.node = []) :
    w.buildLeaves.node = (FreqTable.present w.freq).map (fun p => Node.leaf p.1 p.2) := by
  rw [Working.buildLeaves, (foldl_addLeaf_node _ w).1, hnode, List.nil_append]

section
variable {w : Working} (hnode : w.node = []) (hpq : w.pq = [])
include hnode hpq

theorem Working.buildLeaves_queueFull : w.buildLeaves.QueueFull := by
  have hle := FreqTable.present_length_le w.freq
  exact (Working.QueueFull.of_empty hnode hpq).foldl_addLeaf
    (by rw [Working.nnodes, hnode, List.length_nil]; omega)

/-- The leaves are a forest: they have no children, and all are in the queue. -/
theorem Working.buildLeaves_forest (hpresent : FreqTable.present w.freq ≠ []) :
    w.buildLeaves.Forest (FreqTable.present w.freq) := by
  have hleaves := Working.buildLeaves_node hnode
  have hfull : w.buildLeaves.pq.map BitVec.toNat = List.range w.buildLeaves.nnodes :=
    Working.buildLeaves_queueFull hnode hpq
  have hnnodes : w.buildLeaves.nnodes = (FreqTable.present w.freq).length := by
    rw [Working.nnodes, hleaves, List.length_map]
  constructor
  case leavesFirst => rw [hleaves]
  case internal => exact fun j hj hjn => absurd hjn (by omega)
  case links =>
    have hchildren : w.buildLeaves.node.flatMap Node.children = [] := by
      rw [hleaves, List.flatMap_map]; simp
    rw [hchildren, hfull, List.nil_append]
  case newest =>
    have hpos := List.length_pos_of_ne_nil hpresent
    have hlast : w.buildLeaves.nnodes - 1 ∈ w.buildLeaves.pq.map BitVec.toNat := by
      rw [hfull, List.mem_range]; omega
    obtain ⟨i, hi, hlast⟩ := List.mem_map.mp hlast
    exact ⟨i, hi, by omega⟩
  case size =>
    have hlen := congrArg List.length hfull
    rw [List.length_map, List.length_range] at hlen
    omega

end

/-! ### Weights -/

/-- The weights of a list of indices, added as numbers. -/
def totalWeight (nodes : List Node) (pq : List ArenaIndex) : Nat :=
  (pq.map (fun i => (weightAt nodes i).toNat)).sum

theorem weightAt_of_getElem? {nodes : List Node} {i : ArenaIndex} {n : Node}
    (h : nodes[i.toNat]? = some n) : weightAt nodes i = n.weight := by
  rw [weightAt, h]

/-- An entry keeps its weight when another is appended. -/
theorem weightAt_append_left {nodes : List Node} {i : ArenaIndex} (h : i.toNat < nodes.length)
    (more : List Node) : weightAt (nodes ++ more) i = weightAt nodes i := by
  rw [weightAt, weightAt, List.getElem?_append_left h]

theorem weightAt_concat {nodes : List Node} (h : nodes.length < 512) (n : Node) :
    weightAt (nodes ++ [n]) (BitVec.ofNat 9 nodes.length) = n.weight :=
  weightAt_of_getElem? (by rw [toNat_ofNat_arenaIndex h, List.getElem?_concat_length])

theorem totalWeight_perm (nodes : List Node) {pq pq' : List ArenaIndex} (h : pq.Perm pq') :
    totalWeight nodes pq = totalWeight nodes pq' := (h.map _).sum_eq

/-- A new entry in the queue adds its weight. -/
theorem totalWeight_concat {nodes : List Node} {pq : List ArenaIndex} (hroom : nodes.length < 512)
    (hvalid : ∀ i ∈ pq, i.toNat < nodes.length) (n : Node) :
    totalWeight (nodes ++ [n]) (pq ++ [BitVec.ofNat 9 nodes.length]) =
      totalWeight nodes pq + n.weight.toNat := by
  have hold : pq.map (fun i => (weightAt (nodes ++ [n]) i).toNat) =
      pq.map (fun i => (weightAt nodes i).toNat) :=
    List.map_congr_left fun i hi => by rw [weightAt_append_left (hvalid i hi)]
  rw [totalWeight, List.map_append, List.sum_append, hold, List.map_singleton, List.sum_singleton,
    weightAt_concat hroom, totalWeight]

/-- The weights between two passes of `build`: sums over children without overflow, none 0, and in the queue
the weight `total` of the whole input (41_tree_builder R72). -/
structure Working.Weighs (total : Nat) (w : Working) : Prop where
  /-- An internal entry weighs what its children weigh together. -/
  childSum : ∀ c l r, Node.internal c l r ∈ w.node →
    c.toNat = (weightAt w.node l).toNat + (weightAt w.node r).toNat
  /-- No weight is 0. -/
  positive : ∀ n ∈ w.node, 1 ≤ n.weight.toNat
  /-- The queue's members weigh `total` together. -/
  queueTotal : totalWeight w.node w.pq = total

theorem Working.Weighs.weightAt_pos {total : Nat} {w : Working} (h : w.Weighs total) {i : ArenaIndex}
    (hi : i.toNat < w.nnodes) : 1 ≤ (weightAt w.node i).toNat := by
  rw [weightAt_of_getElem? (List.getElem?_eq_getElem hi)]
  exact h.positive _ (List.getElem_mem hi)

/-- A merge joins two members of the queue, whose weights together are at most the total, so their sum fits
32 bits. -/
theorem Working.Weighs.mergeOnce {total : Nat} {leaves : List (Byte × Word32)} {w : Working}
    (h : w.Weighs total) (htotal : total < 2 ^ 32) (hforest : w.Forest leaves) (h2 : 2 ≤ w.pq.length)
    (hK : leaves.length ≤ 256) : w.mergeOnce.Weighs total := by
  have hsize := hforest.size
  have hroom : w.nnodes < 512 := by omega
  have hvalid := hforest.queueValid
  obtain ⟨a, b, rest, hperm, -, -, hmerge⟩ := Working.mergeOnce_spec h2 hvalid hroom
  have hlt : ∀ i ∈ a :: b :: rest, i.toNat < w.nnodes := fun i hi => hvalid i (hperm.mem_iff.mpr hi)
  have hqueue : total = (weightAt w.node a).toNat + ((weightAt w.node b).toNat +
      totalWeight w.node rest) := by
    rw [← h.queueTotal, totalWeight_perm w.node hperm]
    simp [totalWeight]
  have hsum : (weightAt w.node a + weightAt w.node b).toNat =
      (weightAt w.node a).toNat + (weightAt w.node b).toNat :=
    BitVec.toNat_add_of_lt (by omega)
  have hkeep : ∀ i : ArenaIndex, i.toNat < w.nnodes → ∀ n,
      weightAt (w.node ++ [n]) i = weightAt w.node i := fun i hi n => weightAt_append_left hi [n]
  rw [hmerge]
  constructor
  case childSum =>
    intro c l r hmem
    rcases List.mem_append.mp hmem with hold | hnew
    · rw [hkeep l (hforest.child_lt hold (by simp)), hkeep r (hforest.child_lt hold (by simp))]
      exact h.childSum c l r hold
    · cases List.mem_singleton.mp hnew
      rw [hkeep a (hlt a (by simp)), hkeep b (hlt b (by simp)), hsum]
  case positive =>
    intro n hn
    rcases List.mem_append.mp hn with hold | hnew
    · exact h.positive n hold
    · rw [List.mem_singleton.mp hnew, Node.weight, hsum]
      exact Nat.le_add_right_of_le (h.weightAt_pos (hlt a (by simp)))
  case queueTotal =>
    refine (totalWeight_concat hroom (fun i hi => hlt i (by simp [hi])) _).trans ?_
    rw [Node.weight, hsum, hqueue]
    omega

/-- Phase 1 puts the counts of the symbols into the queue. -/
theorem totalWeight_foldl_addLeaf {w : Working} (h : w.QueueFull) {ps : List (Byte × Word32)}
    (hroom : w.nnodes + ps.length ≤ 512) :
    totalWeight (ps.foldl Working.addLeaf w).node (ps.foldl Working.addLeaf w).pq =
      totalWeight w.node w.pq + (ps.map (fun p => p.2.toNat)).sum := by
  induction ps generalizing w with
  | nil => rfl
  | cons p ps ih =>
    rw [List.length_cons] at hroom
    have hlt : w.nnodes < 512 := by omega
    have hone : totalWeight (w.addLeaf p).node (w.addLeaf p).pq =
        totalWeight w.node w.pq + p.2.toNat := by
      rw [Working.addLeaf, Working.append_eq h.queueValid hlt]
      exact totalWeight_concat hlt h.queueValid _
    rw [List.foldl_cons, ih (h.addLeaf hlt p) (by rw [Working.addLeaf_nnodes]; omega), hone,
      List.map_cons, List.sum_cons, Nat.add_assoc]

/-- The leaves weigh what the present symbols count, and no present count is 0. -/
theorem Working.buildLeaves_weighs {w : Working} (hnode : w.node = []) (hpq : w.pq = []) :
    w.buildLeaves.Weighs ((FreqTable.present w.freq).map (fun p => p.2.toNat)).sum := by
  have hleaves := Working.buildLeaves_node hnode
  have hle := FreqTable.present_length_le w.freq
  constructor
  case childSum => intro c l r hmem; simp [hleaves] at hmem
  case positive =>
    intro n hn
    rw [hleaves] at hn
    obtain ⟨⟨s, c⟩, hp, rfl⟩ := List.mem_map.mp hn
    have hc : c ≠ 0#32 := ((FreqTable.mem_present _ _ _).mp hp).2
    exact Nat.one_le_iff_ne_zero.mpr fun h0 => hc (BitVec.eq_of_toNat_eq h0)
  case queueTotal =>
    rw [Working.buildLeaves, totalWeight_foldl_addLeaf (.of_empty hnode hpq)
      (by rw [Working.nnodes, hnode, List.length_nil]; omega), hpq, totalWeight, List.map_nil,
      List.sum_nil, Nat.zero_add]

/-! ### The tree of an input -/

/-- The loop keeps what every pass keeps. -/
theorem Working.mergeLoop_induction {P : Working → Prop}
    (hpass : ∀ w, P w → 2 ≤ w.pq.length → P w.mergeOnce) (n : Nat) {w : Working} (h : P w) :
    P (Working.mergeLoop n w) := by
  induction n generalizing w with
  | zero => exact h
  | succ n ih =>
    rw [Working.mergeLoop]
    split
    · next h2 => exact ih (hpass w h h2)
    · exact h

/-- `build` of one present symbol or more ends the loop with one member in the queue and makes it ROOT. -/
theorem Working.build_eq {w : Working} (h : FreqTable.present w.freq ≠ []) :
    ∃ r, w.build = { Working.mergeLoop w.buildLeaves.pq.length w.buildLeaves with root := r } ∧
      w.build.pq = [r] := by
  have hone : (Working.mergeLoop w.buildLeaves.pq.length w.buildLeaves).pq.length = 1 :=
    Working.mergeLoop_pq_length (foldl_addLeaf_pq_ne_nil (.inl h)) (Nat.le_succ _)
  obtain ⟨r, hr⟩ := List.length_eq_one_iff.mp hone
  have hbuild : w.build = { Working.mergeLoop w.buildLeaves.pq.length w.buildLeaves with root := r } := by
    simp only [Working.build, Working.assignRoot, hr]
  exact ⟨r, hbuild, hbuild ▸ hr⟩

/-- The two invariants do not speak of ROOT, so they hold of what `build` leaves. -/
theorem Working.build_forest_weighs {w : Working} (hnode : w.node = []) (hpq : w.pq = [])
    (h : FreqTable.present w.freq ≠ []) {total : Nat} (htotal : total < 2 ^ 32)
    (hsum : ((FreqTable.present w.freq).map (fun p => p.2.toNat)).sum = total) :
    w.build.Forest (FreqTable.present w.freq) ∧ w.build.Weighs total ∧ w.build.pq = [w.build.root] := by
  have hK := FreqTable.present_length_le w.freq
  obtain ⟨r, hbuild, hr⟩ := Working.build_eq h
  obtain ⟨hforest, hweighs⟩ := Working.mergeLoop_induction
    (P := fun u => u.Forest (FreqTable.present w.freq) ∧ u.Weighs total)
    (fun u ⟨hf, hw⟩ h2 => ⟨hf.mergeOnce h2 hK, hw.mergeOnce htotal hf h2 hK⟩) w.buildLeaves.pq.length
    ⟨Working.buildLeaves_forest hnode hpq h, hsum ▸ Working.buildLeaves_weighs hnode hpq⟩
  have hroot : w.build.root = r := congrArg Working.root hbuild
  refine ⟨?_, ?_, hroot ▸ hr⟩
  · rw [hbuild]; exact { hforest with }
  · rw [hbuild]; exact { hweighs with }

/-- FREQ of an input, counted from a command start. -/
def inputFreq (input : List Byte) : FreqTable := (Working.init.count input).freq

theorem init_freq_at (x : Byte) : SymbolTable.at Working.init.freq x = 0#32 := SymbolTable.at_replicate _ x

section
variable {input : List Byte} (hlen : input.length ≤ 2 ^ 32 - 1)
include hlen

theorem inputFreq_at_toNat (x : Byte) : (SymbolTable.at (inputFreq input) x).toNat = input.count x :=
  Working.count_freq_toNat init_freq_at hlen x

theorem inputFreq_present :
    FreqTable.present (inputFreq input) =
      (distinctSymbols input).map (fun x => (x, SymbolTable.at (inputFreq input) x)) :=
  Working.count_present init_freq_at hlen

theorem inputFreq_present_length :
    (FreqTable.present (inputFreq input)).length = (distinctSymbols input).length := by
  rw [inputFreq_present hlen, List.length_map]

/-- The counts of the present symbols add up to the input length. -/
theorem inputFreq_present_sum :
    ((FreqTable.present (inputFreq input)).map (fun p => p.2.toNat)).sum = input.length := by
  rw [inputFreq_present hlen, List.map_map]
  calc ((distinctSymbols input).map (fun x => (SymbolTable.at (inputFreq input) x).toNat)).sum
      = ((distinctSymbols input).map input.count).sum := by simp only [inputFreq_at_toNat hlen]
    _ = input.length := sum_map_count_of_subset (symbols_nodup.filter _) fun _ => mem_distinctSymbols.mpr

/-- What `build` makes of an input that is not empty. -/
theorem treeOf_spec (hne : input ≠ []) :
    (treeOf input).Forest (FreqTable.present (inputFreq input)) ∧ (treeOf input).Weighs input.length ∧
      (treeOf input).pq = [(treeOf input).root] := by
  have hpresent : FreqTable.present (inputFreq input) ≠ [] := by
    rw [inputFreq_present hlen, ne_eq, List.map_eq_nil_iff, distinctSymbols_eq_nil_iff]
    exact hne
  exact Working.build_forest_weighs rfl rfl hpresent (by omega) (inputFreq_present_sum hlen)

end

/-- Settles O28: the invariant of the merge loop when one member is left, which is then the root. -/
theorem buildMakesAStrictBinaryTree : Obligations.BuildMakesAStrictBinaryTree := by
  intro input hne hlen
  obtain ⟨hforest, -, hpq⟩ := treeOf_spec hlen hne
  have hlast := hforest.root_newest hpq
  have hsize := hforest.size
  have hK := distinctSymbols_length_le input
  rw [hpq, List.length_singleton, inputFreq_present_length hlen] at hsize
  refine ⟨by omega, by omega, by omega, hpq, fun j x hx => ?_, fun j hj hjn => ?_, fun j hj => ?_⟩
  · have hleaf : (FreqTable.present (inputFreq input))[j]? =
        some (x, SymbolTable.at (inputFreq input) x) := by
      rw [inputFreq_present hlen, List.getElem?_map, hx, Option.map_some]
    exact ⟨_, hforest.node_getElem?_leaf hleaf, inputFreq_at_toNat hlen x⟩
  · obtain ⟨c, l, r, hget, hl, hr⟩ := hforest.internal j ((inputFreq_present_length hlen).trans_le hj) hjn
    exact ⟨c, l, r, hget, hforest.left_ne_right hget, hl, hr⟩
  · refine hforest.existsUnique_parent (by omega) ?_
    rw [hpq, List.map_singleton, List.mem_singleton]
    omega

/-- Settles O29: the weights of the merge loop's invariant, the root being the whole queue. -/
theorem weightsAddUpWithoutOverflow : Obligations.WeightsAddUpWithoutOverflow := by
  intro input hne hlen
  obtain ⟨-, hweighs, hpq⟩ := treeOf_spec hlen hne
  refine ⟨fun j c l r hj => hweighs.childSum c l r (List.mem_of_getElem? hj), ?_,
    fun j n hj => hweighs.positive n (List.mem_of_getElem? hj)⟩
  have hroot := hweighs.queueTotal
  rwa [hpq, totalWeight, List.map_singleton, List.sum_singleton] at hroot

end Sys2Proof.Machine
end

section
/-! Code trees: the trees that stand in the node arena, their paths, weights and costs (42_code_generator R76,
R79, R80). -/

namespace Sys2Proof.Machine

/-- A binary tree with a symbol and its count at each leaf. -/
inductive CodeTree where
  | leaf (s : Byte) (c : Word32)
  | node (left right : CodeTree)

namespace CodeTree

/-- The symbols of a tree with their counts, left to right. -/
def leaves : CodeTree → List (Byte × Word32)
  | leaf s c => [(s, c)]
  | node l r => l.leaves ++ r.leaves

/-- Each symbol with its path from the root: 0 left, 1 right (42_code_generator R76). -/
def paths : CodeTree → List (Byte × Bits)
  | leaf s _ => [(s, [])]
  | node l r =>
    l.paths.map (fun p => (p.1, false :: p.2)) ++ r.paths.map (fun p => (p.1, true :: p.2))

/-- Each symbol with its code: its path, but "0" for a lone leaf (42_code_generator R76, R77). -/
def codewords : CodeTree → List (Byte × Bits)
  | leaf s _ => [(s, [false])]
  | node l r => (node l r).paths

/-- The counts at the leaves, added as numbers. -/
def weight : CodeTree → Nat
  | leaf _ c => c.toNat
  | node l r => l.weight + r.weight

/-- The weights of all inner nodes together. -/
def cost : CodeTree → Nat
  | leaf _ _ => 0
  | node l r => l.cost + r.cost + (l.weight + r.weight)

/-- The tree is what the arena holds below index `i`: children before their parent, and an internal weight the
sum of the weights below it (41_tree_builder R72, R73). -/
def StandsAt (nodes : List Node) : CodeTree → ArenaIndex → Prop
  | leaf s c, i => nodes[i.toNat]? = some (.leaf s c)
  | node l r, i => ∃ c a b, nodes[i.toNat]? = some (.internal c a b) ∧ c.toNat = l.weight + r.weight ∧
      a.toNat < i.toNat ∧ b.toNat < i.toNat ∧ l.StandsAt nodes a ∧ r.StandsAt nodes b

/-! ### Paths -/

theorem mem_paths_node {l r : CodeTree} {x : Byte} {p : Bits} :
    (x, p) ∈ (node l r).paths ↔
      (∃ q, (x, q) ∈ l.paths ∧ p = false :: q) ∨ ∃ q, (x, q) ∈ r.paths ∧ p = true :: q := by
  simp [paths, eq_comm]

theorem paths_symbols (t : CodeTree) : t.paths.map Prod.fst = t.leaves.map Prod.fst := by
  induction t with
  | leaf s c => rfl
  | node l r ihl ihr => simp [paths, leaves, ← ihl, ← ihr, Function.comp_def]

/-- No path begins with another symbol's. -/
theorem paths_prefix_free {t : CodeTree} {x y : Byte} {p q : Bits} (hp : (x, p) ∈ t.paths)
    (hq : (y, q) ∈ t.paths) (h : p <+: q) : x = y := by
  induction t generalizing p q x y with
  | leaf s c =>
    simp only [paths, List.mem_singleton, Prod.mk.injEq] at hp hq
    exact hp.1.trans hq.1.symm
  | node l r ihl ihr =>
    rcases mem_paths_node.mp hp with ⟨p', hp', rfl⟩ | ⟨p', hp', rfl⟩ <;>
      rcases mem_paths_node.mp hq with ⟨q', hq', rfl⟩ | ⟨q', hq', rfl⟩
    · exact ihl hp' hq' (List.cons_prefix_cons.mp h).2
    · exact absurd (List.cons_prefix_cons.mp h).1 (by decide)
    · exact absurd (List.cons_prefix_cons.mp h).1 (by decide)
    · exact ihr hp' hq' (List.cons_prefix_cons.mp h).2

/-- Every infinite bit sequence starts with some path. -/
theorem exists_path_of_bits (t : CodeTree) (f : Nat → Bool) :
    ∃ x p, (x, p) ∈ t.paths ∧ p = (List.range p.length).map f := by
  induction t generalizing f with
  | leaf s c => exact ⟨s, [], by simp [paths]⟩
  | node l r ihl ihr =>
    have hcons : ∀ p : Bits, p = (List.range p.length).map (fun j => f (j + 1)) →
        f 0 :: p = (List.range (f 0 :: p).length).map f := fun p hp => by
      rw [List.length_cons, List.range_succ_eq_map, List.map_cons, List.map_map]
      exact congrArg _ hp
    cases h0 : f 0 with
    | false =>
      obtain ⟨x, p, hmem, hp⟩ := ihl (fun j => f (j + 1))
      exact ⟨x, false :: p, mem_paths_node.mpr (.inl ⟨p, hmem, rfl⟩), h0 ▸ hcons p hp⟩
    | true =>
      obtain ⟨x, p, hmem, hp⟩ := ihr (fun j => f (j + 1))
      exact ⟨x, true :: p, mem_paths_node.mpr (.inr ⟨p, hmem, rfl⟩), h0 ▸ hcons p hp⟩

/-! ### Codewords -/

theorem codewords_symbols (t : CodeTree) : t.codewords.map Prod.fst = t.leaves.map Prod.fst := by
  cases t with
  | leaf s c => rfl
  | node l r => exact paths_symbols _

/-- With two symbols or more the codewords are the paths. -/
theorem codewords_eq_paths {t : CodeTree} (h : 2 ≤ t.leaves.length) : t.codewords = t.paths := by
  cases t with
  | leaf s c => simp [leaves] at h
  | node l r => rfl

theorem leaves_length_pos (t : CodeTree) : 0 < t.leaves.length := by
  induction t with
  | leaf s c => exact Nat.one_pos
  | node l r ihl _ => exact List.length_append ▸ Nat.add_pos_left ihl _

/-- With one symbol, its codeword is the single bit 0 (42_code_generator R77). -/
theorem codewords_of_one {t : CodeTree} (h : t.leaves.length = 1) {x : Byte} {p : Bits}
    (hp : (x, p) ∈ t.codewords) : p = [false] := by
  cases t with
  | leaf s c => exact (Prod.mk.inj (List.mem_singleton.mp hp)).2
  | node l r =>
    have hl := l.leaves_length_pos
    have hr := r.leaves_length_pos
    rw [leaves, List.length_append] at h
    omega

/-- A lone leaf has no long path and no long codeword, and otherwise the two are the same. -/
theorem exists_longer_codeword_iff {t : CodeTree} {n : Nat} (hn : 1 ≤ n) :
    (∃ p ∈ t.codewords, n < p.2.length) ↔ ∃ p ∈ t.paths, n < p.2.length := by
  cases t with
  | leaf s c => simp [codewords, paths, Nat.one_le_iff_ne_zero.mp hn]
  | node l r => rfl

theorem codewords_ne_nil {t : CodeTree} {x : Byte} {p : Bits} (h : (x, p) ∈ t.codewords) : p ≠ [] := by
  cases t with
  | leaf s c =>
    rw [(Prod.mk.inj (List.mem_singleton.mp h)).2]
    exact List.cons_ne_nil _ _
  | node l r => rcases mem_paths_node.mp h with ⟨q, -, rfl⟩ | ⟨q, -, rfl⟩ <;> simp

theorem codewords_prefix_free {t : CodeTree} {x y : Byte} {p q : Bits} (hp : (x, p) ∈ t.codewords)
    (hq : (y, q) ∈ t.codewords) (h : p <+: q) : x = y := by
  cases t with
  | leaf s c =>
    simp only [codewords, List.mem_singleton, Prod.mk.injEq] at hp hq
    exact hp.1.trans hq.1.symm
  | node l r => exact paths_prefix_free hp hq h

/-! ### Weight and cost -/

section
variable {f : Byte → Nat} {t : CodeTree}

theorem sum_paths_weight (hf : ∀ p ∈ t.leaves, p.2.toNat = f p.1) :
    (t.paths.map (fun p => f p.1)).sum = t.weight := by
  induction t with
  | leaf s c => simp [paths, weight, hf (s, c) (by simp [leaves])]
  | node l r ihl ihr =>
    simp only [leaves, List.forall_mem_append] at hf
    simp only [paths, weight, List.map_append, List.map_map, List.sum_append, ← ihl hf.1, ← ihr hf.2]
    rfl

/-- The cost of a tree is the total length of its paths, each counted as often as its symbol occurs
(42_code_generator R80). -/
theorem sum_paths_length (hf : ∀ p ∈ t.leaves, p.2.toNat = f p.1) :
    (t.paths.map (fun p => f p.1 * p.2.length)).sum = t.cost := by
  induction t with
  | leaf s c => simp [paths, cost]
  | node l r ihl ihr =>
    simp only [leaves, List.forall_mem_append] at hf
    have hdeeper : ∀ (b : Bool) (ps : List (Byte × Bits)),
        ((ps.map (fun p => (p.1, b :: p.2))).map (fun p => f p.1 * p.2.length)).sum =
          (ps.map (fun p => f p.1 * p.2.length)).sum + (ps.map (fun p => f p.1)).sum := fun b ps => by
      simp only [List.map_map, ← List.sum_map_add]
      rfl
    rw [paths, cost, List.map_append, List.sum_append, hdeeper, hdeeper, ihl hf.1, ihr hf.2,
      sum_paths_weight hf.1, sum_paths_weight hf.2]
    omega

end

/-! ### Trees in the arena -/

section
variable {nodes : List Node} {t : CodeTree} {i : ArenaIndex}

/-- An entry appended to the arena leaves the trees in it as they are. -/
theorem StandsAt.append (h : t.StandsAt nodes i) (more : List Node) : t.StandsAt (nodes ++ more) i := by
  have hkeep : ∀ {j : Nat} {n : Node}, nodes[j]? = some n → (nodes ++ more)[j]? = some n := fun hj =>
    (List.getElem?_append_left (List.getElem?_eq_some_iff.mp hj).1).trans hj
  induction t generalizing i with
  | leaf s c => exact hkeep h
  | node l r ihl ihr =>
    obtain ⟨c, a, b, hget, hc, ha, hb, hl, hr⟩ := h
    exact ⟨c, a, b, hkeep hget, hc, ha, hb, ihl hl, ihr hr⟩

theorem StandsAt.weightAt (h : t.StandsAt nodes i) : (weightAt nodes i).toNat = t.weight := by
  cases t with
  | leaf s c => rw [weightAt_of_getElem? h]; rfl
  | node l r =>
    obtain ⟨c, a, b, hget, hc, -⟩ := h
    rw [weightAt_of_getElem? hget]
    exact hc

/-- Of two trees, the one whose root comes first in the order of the queue is not the heavier. -/
theorem StandsAt.weight_le_of_keyBefore {u : CodeTree} {j : ArenaIndex} (h : t.StandsAt nodes i)
    (hu : u.StandsAt nodes j) (hkey : keyBefore nodes i j = true) : t.weight ≤ u.weight := by
  rw [keyBefore_iff, h.weightAt, hu.weightAt] at hkey
  omega

/-- Following a path of bits from the root ends at a leaf exactly when it is the path of that leaf's
symbol. -/
theorem StandsAt.follow_eq_leaf_iff (h : t.StandsAt nodes i) {path : Bits} {x : Byte} :
    (∃ c, follow nodes i path = some (.leaf x c)) ↔ (x, path) ∈ t.paths := by
  induction t generalizing i path with
  | leaf s c =>
    cases path with
    | nil => simp [follow, show nodes[i.toNat]? = _ from h, paths, eq_comm]
    | cons b rest => simp [follow, show nodes[i.toNat]? = _ from h, paths]
  | node l r ihl ihr =>
    obtain ⟨c, a, b, hget, -, -, -, hl, hr⟩ := h
    rw [mem_paths_node]
    match path with
    | [] => simp [follow, hget]
    | false :: rest => simpa [follow, hget] using ihl hl
    | true :: rest => simpa [follow, hget] using ihr hr

end

end CodeTree

end Sys2Proof.Machine
end

section
/-! The merge builds one tree of all leaves that costs no more than a balanced one: an invariant of the merge
loop (41_tree_builder R69; 42_code_generator R80). -/

namespace Sys2Proof.Machine

/-! ### The merge and its cost, on weights alone -/

/-- A part of a collection that leaves room can avoid a lightest member without getting lighter. -/
theorem exists_le_avoiding_lightest {a : Nat} {S M : Multiset Nat} (hle : S ≤ a ::ₘ M)
    (hcard : S.card ≤ M.card) (hlight : ∀ x ∈ M, a ≤ x) :
    ∃ S' ≤ M, S'.card = S.card ∧ S.sum ≤ S'.sum := by
  by_cases ha : a ∈ S
  · obtain ⟨S₀, rfl⟩ := Multiset.exists_cons_of_mem ha
    rw [Multiset.card_cons] at hcard
    have hS₀ : S₀ ≤ M := (Multiset.cons_le_cons_iff a).mp hle
    obtain ⟨x, hx⟩ := Multiset.lt_iff_cons_le.mp (hS₀.lt_of_ne (by rintro rfl; omega))
    refine ⟨x ::ₘ S₀, hx, by simp, ?_⟩
    have hax : a ≤ x := hlight x (Multiset.mem_of_le hx (Multiset.mem_cons_self x S₀))
    simpa using hax
  · exact ⟨S, (Multiset.le_cons_of_notMem ha).mp hle, rfl, le_rfl⟩

/-- Between two merges, when `cost` has been paid and the trees left weigh `M`, together `n`: a tree of depth
`k` over `M`, with some members `S` one level higher, would keep the whole cost within `limit`. -/
def CostWithin (limit n cost : Nat) (M : Multiset Nat) : Prop :=
  ∃ (k : Nat) (S : Multiset Nat), S ≤ M ∧ S.card < M.card ∧ S.card + M.card = 2 ^ k ∧
    cost + n * k ≤ limit + S.sum

/-- Before the first merge: a tree of least depth over all members. -/
theorem CostWithin.start (n : Nat) {ws : List Nat} (h : ws ≠ []) :
    CostWithin (n * Nat.clog 2 ws.length) n 0 ws := by
  have hpos := List.length_pos_of_ne_nil h
  have hle : ws.length ≤ 2 ^ Nat.clog 2 ws.length := Nat.le_pow_clog Nat.one_lt_two _
  have hlt : 2 ^ Nat.clog 2 ws.length < 2 * ws.length := by
    rcases Nat.eq_or_lt_of_le hpos with h1 | h2
    · simp [← h1]
    · have hpred := Nat.pow_pred_clog_lt_self Nat.one_lt_two h2
      have hsucc := Nat.succ_pred_eq_of_pos (Nat.clog_pos Nat.one_lt_two h2)
      rw [← hsucc, Nat.pow_succ]
      omega
  refine ⟨Nat.clog 2 ws.length, (ws.take (2 ^ Nat.clog 2 ws.length - ws.length) : List Nat),
    Multiset.coe_le.mpr (List.take_sublist _ _).subperm, ?_, ?_, by omega⟩
  all_goals
    rw [Multiset.coe_card, Multiset.coe_card, List.length_take]
    omega

/-- Merging the two lightest members pays their weights. The members one level higher can be chosen apart from
the two, and the merged one then joins them; when that takes in all, the tree is one level less deep. -/
theorem CostWithin.merge {limit n cost a b : Nat} {R : Multiset Nat}
    (h : CostWithin limit n cost (a ::ₘ b ::ₘ R)) (hn : a + b + R.sum = n) (hab : a ≤ b)
    (ha : ∀ x ∈ R, a ≤ x) (hb : ∀ x ∈ R, b ≤ x) :
    CostWithin limit n (cost + (a + b)) ((a + b) ::ₘ R) := by
  obtain ⟨k, S, hle, hlt, hpow, hcost⟩ := h
  simp only [Multiset.card_cons] at hlt hpow
  obtain ⟨k, rfl⟩ : ∃ j, k = j + 1 := Nat.exists_eq_succ_of_ne_zero (by rintro rfl; omega)
  rw [Nat.pow_succ] at hpow
  obtain ⟨S₁, hle₁, hcard₁, hsum₁⟩ := exists_le_avoiding_lightest hle
    (by rw [Multiset.card_cons]; omega) (by simpa using ⟨hab, ha⟩)
  obtain ⟨S₂, hle₂, hcard₂, hsum₂⟩ := exists_le_avoiding_lightest hle₁ (by omega) hb
  rcases Nat.lt_or_ge S₂.card R.card with hfew | hall
  · refine ⟨k + 1, (a + b) ::ₘ S₂, Multiset.cons_le_cons _ hle₂, ?_, ?_, ?_⟩
    · simpa using hfew
    · simp only [Multiset.card_cons, Nat.pow_succ]; omega
    · rw [Multiset.sum_cons]; omega
  · obtain rfl : S₂ = R := Multiset.eq_of_le_of_card_le hle₂ hall
    refine ⟨k, 0, Multiset.zero_le _, by simp, ?_, ?_⟩
    · simp only [Multiset.card_cons, Multiset.card_zero]; omega
    · rw [Nat.mul_succ] at hcost
      rw [Multiset.sum_zero]; omega

/-- After the last merge the limit is kept. -/
theorem CostWithin.cost_le {limit n cost x : Nat} (h : CostWithin limit n cost {x}) : cost ≤ limit := by
  obtain ⟨k, S, -, hlt, hpow, hcost⟩ := h
  rw [Multiset.card_singleton] at hlt hpow
  obtain rfl : S = 0 := Multiset.card_eq_zero.mp (by omega)
  rw [Multiset.sum_zero] at hcost
  exact (Nat.le_add_right _ _).trans hcost

/-! ### The trees in the queue -/

/-- The counts of some leaves, added as numbers. -/
def totalCount (leaves : List (Byte × Word32)) : Nat := (leaves.map (fun p => p.2.toNat)).sum

theorem CodeTree.totalCount_leaves (t : CodeTree) : totalCount t.leaves = t.weight := by
  induction t with
  | leaf s c => simp [totalCount, leaves, weight]
  | node l r ihl ihr =>
    rw [totalCount] at ihl ihr
    rw [totalCount, leaves, List.map_append, List.sum_append, ihl, ihr, weight]

/-- Trees that share out the given leaves, at a cost that keeps the whole within that of a balanced tree. -/
structure Grove (leaves : List (Byte × Word32)) (ts : List CodeTree) : Prop where
  /-- Every leaf stands in one tree. -/
  shared : (ts.flatMap CodeTree.leaves).Perm leaves
  /-- The cost so far is that of the trees. -/
  cost : CostWithin (totalCount leaves * Nat.clog 2 leaves.length) (totalCount leaves)
    (ts.map CodeTree.cost).sum (ts.map CodeTree.weight : List Nat)

section
variable {leaves : List (Byte × Word32)} {ts : List CodeTree}

theorem Grove.perm (h : Grove leaves ts) {us : List CodeTree} (hperm : ts.Perm us) : Grove leaves us where
  shared := (hperm.symm.flatMap_right _).trans h.shared
  cost := by
    rw [← (hperm.map CodeTree.cost).sum_eq, ← Multiset.coe_eq_coe.mpr (hperm.map CodeTree.weight)]
    exact h.cost

theorem Grove.sum_weight (h : Grove leaves ts) : (ts.map CodeTree.weight).sum = totalCount leaves := by
  rw [totalCount, ← (h.shared.map _).sum_eq, List.map_flatMap, List.flatMap_def, List.sum_flatten,
    List.map_map]
  exact congrArg List.sum (List.map_congr_left fun t _ => t.totalCount_leaves.symm)

/-- A leaf for each pair is a start. -/
theorem Grove.of_leaves (h : leaves ≠ []) : Grove leaves (leaves.map (fun p => .leaf p.1 p.2)) where
  shared := by simp [List.flatMap_map, CodeTree.leaves]
  cost := by
    have hcost : ((leaves.map (fun p => CodeTree.leaf p.1 p.2)).map CodeTree.cost).sum = 0 := by
      simp [List.map_map, CodeTree.cost, Function.comp_def]
    rw [hcost, List.map_map]
    have := CostWithin.start (totalCount leaves)
      (ws := leaves.map (CodeTree.weight ∘ fun p => CodeTree.leaf p.1 p.2)) (by simpa using h)
    rwa [List.length_map] at this

/-- Joining the two lightest trees. -/
theorem Grove.join {a b : CodeTree} (h : Grove leaves (a :: b :: ts)) (hab : a.weight ≤ b.weight)
    (ha : ∀ t ∈ ts, a.weight ≤ t.weight) (hb : ∀ t ∈ ts, b.weight ≤ t.weight) :
    Grove leaves (.node a b :: ts) where
  shared := by simpa [CodeTree.leaves] using h.shared
  cost := by
    have hsum := h.sum_weight
    have hmerge := CostWithin.merge (R := (ts.map CodeTree.weight : List Nat)) h.cost
      (by simpa [Nat.add_assoc] using hsum) hab (by simpa using ha) (by simpa using hb)
    have hcost : ((CodeTree.node a b :: ts).map CodeTree.cost).sum =
        ((a :: b :: ts).map CodeTree.cost).sum + (a.weight + b.weight) := by
      simp only [List.map_cons, List.sum_cons, CodeTree.cost]
      omega
    rw [hcost]
    exact hmerge

end

/-! ### The invariant of the merge loop -/

theorem Working.Forest.queue_nodup {leaves : List (Byte × Word32)} {w : Working} (h : w.Forest leaves) :
    w.pq.Nodup :=
  List.Nodup.of_map _ (List.nodup_append.mp (h.links.nodup_iff.mpr List.nodup_range)).2.1

/-- Each member of the queue is the root of a tree in the arena, and together they are a grove. -/
def Working.Grown (leaves : List (Byte × Word32)) (w : Working) : Prop :=
  ∃ trees : ArenaIndex → CodeTree, (∀ i ∈ w.pq, (trees i).StandsAt w.node i) ∧
    Grove leaves (w.pq.map trees)

/-- An entry appended over the roots of two trees is the root of the two joined. -/
theorem CodeTree.StandsAt.join {nodes : List Node} {l r : CodeTree} {a b : ArenaIndex} {c : Word32}
    (hl : l.StandsAt nodes a) (hr : r.StandsAt nodes b) (ha : a.toNat < nodes.length)
    (hb : b.toNat < nodes.length) (hroom : nodes.length < 512) (hc : c.toNat = l.weight + r.weight) :
    (node l r).StandsAt (nodes ++ [.internal c a b]) (BitVec.ofNat 9 nodes.length) := by
  have hnew := toNat_ofNat_arenaIndex hroom
  exact ⟨c, a, b, by rw [hnew, List.getElem?_concat_length], hc, by rwa [hnew], by rwa [hnew], hl.append _,
    hr.append _⟩

/-- A merge pass with the two members it takes out in front, each before all that stay behind it. -/
theorem Working.Forest.mergeOnce_spec {leaves : List (Byte × Word32)} {w : Working} (h : w.Forest leaves)
    (h2 : 2 ≤ w.pq.length) (hroom : w.nnodes < 512) :
    ∃ a b rest, w.pq.Perm (a :: b :: rest) ∧ keyBefore w.node a b = true ∧
      (∀ i ∈ rest, keyBefore w.node a i = true) ∧ (∀ i ∈ rest, keyBefore w.node b i = true) ∧
      w.mergeOnce = { w with
        node := w.node ++ [.internal (weightAt w.node a + weightAt w.node b) a b]
        pq := rest ++ [BitVec.ofNat 9 w.nnodes] } := by
  obtain ⟨a, b, rest, hperm, hleastA, hleastB, hmerge⟩ := Working.mergeOnce_spec h2 h.queueValid hroom
  obtain ⟨⟨hab, ha⟩, hb, -⟩ : (a ≠ b ∧ a ∉ rest) ∧ b ∉ rest ∧ rest.Nodup := by
    simpa only [List.nodup_cons, List.mem_cons, not_or] using hperm.nodup h.queue_nodup
  have hmem : ∀ i ∈ a :: b :: rest, i ∈ w.pq := fun i hi => hperm.mem_iff.mpr hi
  refine ⟨a, b, rest, hperm, hleastA b (hmem b (by simp)) hab.symm, fun i hi => ?_, fun i hi => ?_, hmerge⟩
  · exact hleastA i (hmem i (by simp [hi])) (ne_of_mem_of_not_mem hi ha)
  · exact hleastB i (hmem i (by simp [hi])) (ne_of_mem_of_not_mem hi ha) (ne_of_mem_of_not_mem hi hb)

/-- A merge pass joins the trees of the two members it takes out (41_tree_builder R69). -/
theorem Working.Grown.mergeOnce {leaves : List (Byte × Word32)} {w : Working} (h : w.Grown leaves)
    (hforest : w.Forest leaves) (htotal : totalCount leaves < 2 ^ 32) (h2 : 2 ≤ w.pq.length)
    (hK : leaves.length ≤ 256) : w.mergeOnce.Grown leaves := by
  obtain ⟨trees, hstands, hgrove⟩ := h
  have hsize := hforest.size
  have hroom : w.nnodes < 512 := by omega
  obtain ⟨a, b, rest, hperm, hab, ha, hb, hmerge⟩ := hforest.mergeOnce_spec h2 hroom
  have hvalid : ∀ i ∈ a :: b :: rest, i.toNat < w.nnodes := fun i hi =>
    hforest.queueValid i (hperm.mem_iff.mpr hi)
  obtain ⟨hstandsA, hstandsB, hstandsRest⟩ : (trees a).StandsAt w.node a ∧ (trees b).StandsAt w.node b ∧
      ∀ i ∈ rest, (trees i).StandsAt w.node i := by
    simpa only [hperm.mem_iff, List.forall_mem_cons] using hstands
  have hgroveAB := hgrove.perm (hperm.map trees)
  have hjoin : Grove leaves (.node (trees a) (trees b) :: rest.map trees) :=
    hgroveAB.join (hstandsA.weight_le_of_keyBefore hstandsB hab)
      (List.forall_mem_map.mpr fun i hi => hstandsA.weight_le_of_keyBefore (hstandsRest i hi) (ha i hi))
      (List.forall_mem_map.mpr fun i hi => hstandsB.weight_le_of_keyBefore (hstandsRest i hi) (hb i hi))
  have hweight : (weightAt w.node a + weightAt w.node b).toNat = (trees a).weight + (trees b).weight := by
    have hsum := hgroveAB.sum_weight
    simp only [List.map_cons, List.sum_cons] at hsum
    rw [← hstandsA.weightAt, ← hstandsB.weightAt] at hsum ⊢
    exact BitVec.toNat_add_of_lt (by omega)
  have hold : ∀ t, ∀ i ∈ rest, Function.update trees (BitVec.ofNat 9 w.nnodes) t i = trees i :=
    fun t i hi => Function.update_of_ne (fun he => absurd (hvalid i (by simp [hi]))
      (by rw [he, toNat_ofNat_arenaIndex hroom]; exact lt_irrefl _)) _ _
  rw [hmerge]
  refine ⟨Function.update trees (BitVec.ofNat 9 w.nnodes) (.node (trees a) (trees b)), fun i hi => ?_, ?_⟩
  · rcases List.mem_append.mp hi with hi | hi
    · rw [hold _ i hi]
      exact (hstandsRest i hi).append _
    · rw [List.mem_singleton.mp hi, Function.update_self]
      exact hstandsA.join hstandsB (hvalid a (by simp)) (hvalid b (by simp)) hroom hweight
  · rw [List.map_append, List.map_singleton, Function.update_self, List.map_congr_left (hold _)]
    exact hjoin.perm (List.perm_append_singleton _ _).symm

/-- The `j`-th of some leaves, as a tree; there is none past the end. -/
def leafTree (leaves : List (Byte × Word32)) (j : Nat) : CodeTree :=
  match leaves[j]? with
  | some p => .leaf p.1 p.2
  | none => .leaf 0#8 0#32

theorem leafTree_of_getElem? {leaves : List (Byte × Word32)} {j : Nat} {p : Byte × Word32}
    (h : leaves[j]? = some p) : leafTree leaves j = .leaf p.1 p.2 := by
  rw [leafTree, h]

theorem map_leafTree_range (leaves : List (Byte × Word32)) :
    (List.range leaves.length).map (leafTree leaves) = leaves.map (fun p => .leaf p.1 p.2) := by
  refine List.ext_getElem (by simp) fun j hj _ => ?_
  rw [List.length_map, List.length_range] at hj
  rw [List.getElem_map, List.getElem_map, List.getElem_range]
  exact leafTree_of_getElem? (List.getElem?_eq_getElem hj)

/-- Phase 1 leaves a leaf for each present symbol (41_tree_builder R68). -/
theorem Working.buildLeaves_grown {w : Working} (hnode : w.node = []) (hpq : w.pq = [])
    (hpresent : FreqTable.present w.freq ≠ []) : w.buildLeaves.Grown (FreqTable.present w.freq) := by
  have hleaves := Working.buildLeaves_node hnode
  have hfull := Working.buildLeaves_queueFull hnode hpq
  have hnnodes : w.buildLeaves.nnodes = (FreqTable.present w.freq).length := by
    rw [Working.nnodes, hleaves, List.length_map]
  refine ⟨fun i => leafTree (FreqTable.present w.freq) i.toNat, fun i hi => ?_, ?_⟩
  · have hget := List.getElem?_eq_getElem (hnnodes ▸ hfull.queueValid i hi)
    show (leafTree (FreqTable.present w.freq) i.toNat).StandsAt w.buildLeaves.node i
    rw [leafTree_of_getElem? hget, hleaves]
    exact List.getElem?_map.trans (congrArg _ hget)
  · have hmap : w.buildLeaves.pq.map (fun i => leafTree (FreqTable.present w.freq) i.toNat) =
        (w.buildLeaves.pq.map BitVec.toNat).map (leafTree (FreqTable.present w.freq)) := by
      rw [List.map_map]; rfl
    rw [hmap, show w.buildLeaves.pq.map BitVec.toNat = _ from hfull, hnnodes, map_leafTree_range]
    exact Grove.of_leaves hpresent

/-! ### The tree of an input -/

/-- What `build` makes of one present symbol or more: a tree of their leaves at ROOT, of bounded cost. -/
theorem Working.build_tree {w : Working} (hnode : w.node = []) (hpq : w.pq = [])
    (h : FreqTable.present w.freq ≠ []) (htotal : totalCount (FreqTable.present w.freq) < 2 ^ 32) :
    ∃ t : CodeTree, t.StandsAt w.build.node w.build.root ∧ t.leaves.Perm (FreqTable.present w.freq) ∧
      t.cost ≤ totalCount (FreqTable.present w.freq) * Nat.clog 2 (FreqTable.present w.freq).length := by
  have hK := FreqTable.present_length_le w.freq
  obtain ⟨r, hbuild, hr⟩ := Working.build_eq h
  obtain ⟨-, trees, hstands, hshared, hcost⟩ := Working.mergeLoop_induction
    (P := fun u => u.Forest (FreqTable.present w.freq) ∧ u.Grown (FreqTable.present w.freq))
    (fun u ⟨hf, hg⟩ h2 => ⟨hf.mergeOnce h2 hK, hg.mergeOnce hf htotal h2 hK⟩) w.buildLeaves.pq.length
    ⟨Working.buildLeaves_forest hnode hpq h, Working.buildLeaves_grown hnode hpq h⟩
  have hroot : w.build.root = r := congrArg Working.root hbuild
  have hnodes := congrArg Working.node hbuild
  have hqueue : _ = [r] := (congrArg Working.pq hbuild).symm.trans hr
  rw [hqueue] at hstands hshared hcost
  refine ⟨trees r, ?_, by simpa using hshared, by simpa using CostWithin.cost_le hcost⟩
  rw [hroot, hnodes]
  exact hstands r (by simp)

/-- A tree is what `build` makes of an input: at ROOT, with a leaf for each distinct symbol and its count, and
no costlier than a balanced tree. -/
structure CodeTree.BuiltFrom (input : List Byte) (t : CodeTree) : Prop where
  stands : t.StandsAt (treeOf input).node (treeOf input).root
  symbols : (t.leaves.map Prod.fst).Perm (distinctSymbols input)
  counts : ∀ p ∈ t.leaves, p.2.toNat = input.count p.1
  cost_le : t.cost ≤ input.length * Nat.clog 2 (distinctSymbols input).length

theorem inputFreq_present_ne_nil {input : List Byte} (hne : input ≠ []) (hlen : input.length ≤ 2 ^ 32 - 1) :
    FreqTable.present (inputFreq input) ≠ [] := by
  rw [inputFreq_present hlen, ne_eq, List.map_eq_nil_iff, distinctSymbols_eq_nil_iff]
  exact hne

theorem exists_builtFrom {input : List Byte} (hne : input ≠ []) (hlen : input.length ≤ 2 ^ 32 - 1) :
    ∃ t : CodeTree, t.BuiltFrom input := by
  have htotal : totalCount (FreqTable.present (inputFreq input)) = input.length := inputFreq_present_sum hlen
  obtain ⟨t, hstands, hleaves, hcost⟩ := Working.build_tree (w := Working.init.count input) rfl rfl
    (inputFreq_present_ne_nil hne hlen) (htotal.trans_lt (by omega))
  refine ⟨t, hstands, ?_, fun p hp => ?_, ?_⟩
  · calc t.leaves.map Prod.fst
      _ |>.Perm ((FreqTable.present (inputFreq input)).map Prod.fst) := hleaves.map _
      _ = distinctSymbols input := by rw [inputFreq_present hlen, List.map_map]; exact List.map_id _
  · have hp' : p.2 = SymbolTable.at (inputFreq input) p.1 :=
      ((FreqTable.mem_present _ _ _).mp (hleaves.mem_iff.mp hp)).1
    rw [hp', inputFreq_at_toNat hlen]
  · rw [← inputFreq_present_length hlen, ← htotal]
    exact hcost

end Sys2Proof.Machine
end

section
/-! The code generator: `codes` gives each symbol its path in the tree, unless one is longer than 32
(42_code_generator R76 to R80). -/

namespace Sys2Proof.Machine

/-! ### A bit sequence as a code entry -/

/-- A bit sequence as `walk` builds it, its first bit at bit 31 (42_code_generator R76). -/
def leftAligned (bits : Bits) : Word32 :=
  bits.zipIdx.foldl (fun v p => if p.1 then appendOne v p.2 else v) 0#32

/-- The entry of a symbol whose code is `bits` (10_state R20). -/
def codeEntry (bits : Bits) : CodeEntry := { len := BitVec.ofNat 6 bits.length, bits := leftAligned bits }

theorem leftAligned_concat_false (bits : Bits) : leftAligned (bits ++ [false]) = leftAligned bits := by
  simp [leftAligned, List.zipIdx_append]

theorem leftAligned_concat_true (bits : Bits) :
    leftAligned (bits ++ [true]) = appendOne (leftAligned bits) bits.length := by
  simp [leftAligned, List.zipIdx_append]

theorem getMsbD_appendOne (v : Word32) {d : Nat} (hd : d < 32) (j : Nat) :
    (appendOne v d).getMsbD j = (v.getMsbD j || decide (j = d)) := by
  have hbit := getMsbD_bitAt true hd j
  rw [bitAt, if_pos rfl, Bool.and_true] at hbit
  rw [appendOne, if_pos hd, BitVec.getMsbD_or, hbit]

theorem getMsbD_leftAligned {bits : Bits} (h : bits.length ≤ 32) (j : Nat) :
    (leftAligned bits).getMsbD j = (bits[j]?).getD false := by
  induction bits using List.reverseRecOn with
  | nil => simp [leftAligned]
  | append_singleton bits b ih =>
    rw [List.length_append, List.length_singleton] at h
    have hword : (leftAligned (bits ++ [b])).getMsbD j =
        ((leftAligned bits).getMsbD j || (decide (j = bits.length) && b)) := by
      cases b with
      | false => rw [leftAligned_concat_false, Bool.and_false, Bool.or_false]
      | true => rw [leftAligned_concat_true, getMsbD_appendOne _ (by omega), Bool.and_true]
    rw [hword, ih (by omega)]
    rcases Nat.lt_trichotomy j bits.length with hlt | rfl | hgt
    · simp [List.getElem?_append_left hlt, Nat.ne_of_lt hlt]
    · simp
    · simp [List.getElem?_eq_none (l := bits) hgt.le, Nat.ne_of_gt hgt,
        List.getElem?_eq_none (l := bits ++ [b]) (show (bits ++ [b]).length ≤ j by simpa using hgt)]

section
variable {bits : Bits} (h : bits.length ≤ 32)
include h

theorem codeEntry_len_toNat : (codeEntry bits).len.toNat = bits.length := by
  rw [codeEntry, BitVec.toNat_ofNat, Nat.mod_eq_of_lt (by omega)]

theorem codeEntry_toBits : (codeEntry bits).toBits = bits := by
  refine List.ext_getElem (by rw [CodeEntry.toBits_length, codeEntry_len_toNat h]) fun j hj hj' => ?_
  rw [CodeEntry.toBits_getElem, codeEntry, getMsbD_leftAligned h, List.getElem?_eq_getElem hj', Option.getD_some]

theorem codeEntry_goodRecord (hne : bits ≠ []) (x : Byte) : goodRecord (x, codeEntry bits) := by
  have hpos := List.length_pos_of_ne_nil hne
  have hlen := codeEntry_len_toNat h
  refine ⟨hlen.symm ▸ hpos, hlen.symm ▸ h, ?_⟩
  rw [hlen, bitsBelow_eq_zero_iff h]
  intro j hj
  rw [codeEntry, getMsbD_leftAligned h, List.getElem?_eq_none hj, Option.getD_none]

end

/-! ### What `walk` and `codes` do on a tree -/

/-- The records of some symbols with their codes. -/
def codeRecords (ps : List (Byte × Bits)) : List (Byte × CodeEntry) := ps.map (fun p => (p.1, codeEntry p.2))

theorem codeRecords_symbols (ps : List (Byte × Bits)) :
    (codeRecords ps).map (fun p => p.1) = ps.map Prod.fst := List.map_map

theorem codeRecords_append (ps qs : List (Byte × Bits)) :
    codeRecords (ps ++ qs) = codeRecords ps ++ codeRecords qs := List.map_append

theorem tableOf_append (t : CodeTable) (ps qs : List (Byte × CodeEntry)) :
    tableOf t (ps ++ qs) = tableOf (tableOf t ps) qs := List.foldl_append

/-- The symbols of a tree with their paths, below a path `above`. -/
def CodeTree.pathsBelow (above : Bits) (t : CodeTree) : List (Byte × Bits) :=
  t.paths.map (fun p => (p.1, above ++ p.2))

theorem CodeTree.pathsBelow_nil (t : CodeTree) : t.pathsBelow [] = t.paths := by
  simp [CodeTree.pathsBelow]

theorem CodeTree.pathsBelow_node (above : Bits) (l r : CodeTree) :
    (node l r).pathsBelow above = l.pathsBelow (above ++ [false]) ++ r.pathsBelow (above ++ [true]) := by
  simp [pathsBelow, paths, Function.comp_def]

/-- The walk over a tree that stands in the arena, from a path `above` (42_code_generator R76, R78): every
symbol gets its path, unless one is too long. -/
theorem walk_eq {nodes : List Node} {t : CodeTree} {i : ArenaIndex} (h : t.StandsAt nodes i) {fuel : Nat}
    (hfuel : i.toNat < fuel) (above : Bits) (table : CodeTable) :
    walk nodes fuel i above.length (leftAligned above) table =
      if ∀ p ∈ t.pathsBelow above, p.2.length ≤ 32 then
        .ok (tableOf table (codeRecords (t.pathsBelow above)))
      else .error .unrepresentableCodeLength := by
  induction t generalizing i fuel above table with
  | leaf s c =>
    cases fuel with
    | zero => omega
    | succ fuel =>
      have hpaths : (CodeTree.leaf s c).pathsBelow above = [(s, above)] := by
        simp [CodeTree.pathsBelow, CodeTree.paths]
      rw [walk, show nodes[i.toNat]? = _ from h, hpaths]
      by_cases hdeep : 32 < above.length
      · simp [hdeep]
      · simp [hdeep, Nat.not_lt.mp hdeep, tableOf, codeRecords, codeEntry]
  | node l r ihl ihr =>
    cases fuel with
    | zero => omega
    | succ fuel =>
      obtain ⟨c, a, b, hget, -, ha, hb, hl, hr⟩ := h
      have hleft := ihl hl (show a.toNat < fuel by omega) (above ++ [false]) table
      have hright := ihr hr (show b.toNat < fuel by omega) (above ++ [true])
      rw [List.length_append, List.length_singleton, leftAligned_concat_false] at hleft
      simp only [List.length_append, List.length_singleton, leftAligned_concat_true] at hright
      rw [walk, hget, CodeTree.pathsBelow_node]
      simp only [hleft, List.forall_mem_append]
      by_cases hfits : ∀ p ∈ l.pathsBelow (above ++ [false]), p.2.length ≤ 32
      · rw [if_pos hfits, codeRecords_append, tableOf_append]
        simp only [hright, and_iff_right hfits]
      · rw [if_neg hfits, if_neg (fun hboth => hfits hboth.1)]

/-- `codes` on a tree that stands at ROOT. -/
theorem Working.codes_eq {w : Working} {t : CodeTree} (h : t.StandsAt w.node w.root) :
    w.codes =
      if ∀ p ∈ t.codewords, p.2.length ≤ 32 then
        .ok { w with code := tableOf w.code (codeRecords t.codewords) }
      else .error .unrepresentableCodeLength := by
  cases t with
  | leaf s c =>
    rw [Working.codes, show w.node[w.root.toNat]? = _ from h]
    simp [CodeTree.codewords, tableOf, codeRecords, codeEntry, leftAligned]
  | node l r =>
    have hwalk := walk_eq h (Nat.lt_succ_self _) [] w.code
    rw [CodeTree.pathsBelow_nil] at hwalk
    obtain ⟨c, a, b, hget, -⟩ := h
    rw [Working.codes, hget, CodeTree.codewords]
    simp only [show walk w.node (w.root.toNat + 1) w.root 0 0#32 w.code = _ from hwalk]
    by_cases hfits : ∀ p ∈ (CodeTree.node l r).paths, p.2.length ≤ 32
    · simp only [if_pos hfits]
    · simp only [if_neg hfits]

end Sys2Proof.Machine
end

section
/-! The code table of an input, and the obligations on it (42_code_generator R76 to R80). -/

namespace Sys2Proof.Machine

/-! ### The code table of an input -/

/-- `build` leaves CODE alone. -/
theorem Working.build_code {w : Working} (h : FreqTable.present w.freq ≠ []) : w.build.code = w.code := by
  obtain ⟨r, hbuild, -⟩ := Working.build_eq h
  have hleaves : w.buildLeaves.code = w.code := (congrArg Working.code (foldl_addLeaf_node _ w).2 :)
  have hpass : ∀ u : Working, u.code = w.code → 2 ≤ u.pq.length → u.mergeOnce.code = w.code := by
    intro u hu h2
    obtain ⟨pq, n, -, hmerge⟩ := Working.mergeOnce_eq_append h2
    rw [hmerge]
    exact hu
  rw [hbuild]
  exact Working.mergeLoop_induction hpass _ hleaves

theorem treeOf_code {input : List Byte} (hne : input ≠ []) (hlen : input.length ≤ 2 ^ 32 - 1) :
    (treeOf input).code = Working.init.code :=
  Working.build_code (w := Working.init.count input) (inputFreq_present_ne_nil hne hlen)

theorem init_code_at (x : Byte) : SymbolTable.at Working.init.code x = { len := 0#6, bits := 0#32 } :=
  SymbolTable.at_replicate _ x

/-- A sum over an input, symbol by symbol: each counts as often as it occurs. -/
theorem sum_map_count_mul_of_subset {input l : List Byte} (hnodup : l.Nodup) (hsub : input ⊆ l)
    (g : Byte → Nat) :
    (l.map (fun x => input.count x * g x)).sum = (input.map g).sum := by
  rw [← List.sum_toFinset _ hnodup, Finset.sum_list_map_count]
  refine (Finset.sum_subset (fun x hx => ?_) fun x _ hx => ?_).symm
  · exact List.mem_toFinset.mpr (hsub (List.mem_toFinset.mp hx))
  · rw [List.count_eq_zero.mpr (fun hmem => hx (List.mem_toFinset.mpr hmem)), Nat.zero_mul]

/-- The payload has no byte without a bit (44_bit_packer_reader R91, R92). -/
theorem pack_length_lt (bits : Bits) (w : Working) : 8 * (w.pack bits).1.length < bits.length + 8 := by
  obtain ⟨-, -, hcount, -⟩ := packLoop_spec bits w.flushAcc w.flushAcc_clean
  have hzero : w.flushAcc.nacc.toNat = 0 := rfl
  rw [pack_eq]
  split
  · show 8 * (packLoop bits w.flushAcc).1.length < bits.length + 8
    omega
  · next hpart =>
    have hpos : (packLoop bits w.flushAcc).2.nacc.toNat ≠ 0 := fun h0 => hpart (BitVec.eq_of_toNat_eq h0)
    rw [List.length_append, List.length_singleton]
    omega

/-- A code table holds the codewords of the tree `build` makes of an input, all of them short enough. -/
structure CodeTree.Coded (input : List Byte) (t : CodeTree) (table : CodeTable) : Prop
    extends t.BuiltFrom input where
  short : ∀ x p, (x, p) ∈ t.codewords → p.length ≤ 32
  table_eq : table = tableOf Working.init.code (codeRecords t.codewords)

/-- What a `codes` that did not fault leaves (42_code_generator R76, R77). -/
theorem exists_coded {input : List Byte} {w : Working} (hne : input ≠ []) (hlen : input.length ≤ 2 ^ 32 - 1)
    (hcodes : (treeOf input).codes = .ok w) :
    (∃ t : CodeTree, t.Coded input w.code) ∧ w = { treeOf input with code := w.code } := by
  obtain ⟨t, ht⟩ := exists_builtFrom hne hlen
  rw [Working.codes_eq ht.stands] at hcodes
  split at hcodes
  · next hshort =>
    cases hcodes
    exact ⟨⟨t, ht, fun x p hp => hshort _ hp, by rw [treeOf_code hne hlen]⟩, rfl⟩
  · cases hcodes

namespace CodeTree.Coded

variable {input : List Byte} {t : CodeTree} {table : CodeTable} (h : t.Coded input table)
include h

theorem codewords_perm : (t.codewords.map Prod.fst).Perm (distinctSymbols input) :=
  t.codewords_symbols ▸ h.symbols

theorem leaves_length : t.leaves.length = (distinctSymbols input).length := by
  rw [← h.symbols.length_eq, List.length_map]

theorem codewords_nodup : (t.codewords.map Prod.fst).Nodup :=
  h.codewords_perm.nodup_iff.mpr (symbols_nodup.filter _)

theorem exists_codeword_iff {x : Byte} : (∃ p, (x, p) ∈ t.codewords) ↔ x ∈ input := by
  rw [← mem_distinctSymbols, ← h.codewords_perm.mem_iff]
  simp

theorem at_of_mem {x : Byte} {p : Bits} (hp : (x, p) ∈ t.codewords) :
    SymbolTable.at table x = codeEntry p := by
  rw [h.table_eq]
  exact tableOf_at_of_mem _ (codeRecords_symbols _ ▸ h.codewords_nodup)
    (List.mem_map_of_mem (f := fun p => (p.1, codeEntry p.2)) hp)

/-- A symbol that does not occur gets no code. -/
theorem at_of_not_mem {x : Byte} (hx : x ∉ input) :
    SymbolTable.at table x = { len := 0#6, bits := 0#32 } := by
  rw [h.table_eq, tableOf_at_of_not_mem, init_code_at]
  rwa [codeRecords_symbols, h.codewords_perm.mem_iff, mem_distinctSymbols]

/-- The code of a symbol of the input is its codeword. -/
theorem mem_codewords {x : Byte} (hx : x ∈ input) : (x, (SymbolTable.at table x).toBits) ∈ t.codewords := by
  obtain ⟨p, hp⟩ := h.exists_codeword_iff.mpr hx
  rwa [h.at_of_mem hp, codeEntry_toBits (h.short x p hp)]

theorem goodRecord_at {x : Byte} (hx : x ∈ input) : goodRecord (x, SymbolTable.at table x) := by
  obtain ⟨p, hp⟩ := h.exists_codeword_iff.mpr hx
  rw [h.at_of_mem hp]
  exact codeEntry_goodRecord (h.short x p hp) (codewords_ne_nil hp) x

theorem present_iff {x : Byte} : (SymbolTable.at table x).present = true ↔ x ∈ input := by
  refine ⟨fun hp => ?_, fun hx => (CodeEntry.present_iff _).mpr (h.goodRecord_at hx).1⟩
  by_contra hx
  rw [h.at_of_not_mem hx] at hp
  exact absurd hp (by decide)

theorem entries_length : (CodeTable.entries table).length = (distinctSymbols input).length := by
  rw [CodeTable.entries_eq_map, List.length_map, distinctSymbols]
  congr 1
  exact List.filter_congr fun x _ => by rw [Bool.eq_iff_iff, h.present_iff, List.contains_iff_mem]

/-- The table is good in the document's sense (42_code_generator R79). -/
theorem good : CodeTable.good table := by
  refine ⟨fun x => ?_, fun x y hxy hx hy hprefix => hxy ?_⟩
  · by_cases hx : x ∈ input
    · exact .inr (h.goodRecord_at hx)
    · rw [h.at_of_not_mem hx]
      exact .inl ⟨rfl, rfl⟩
  · exact codewords_prefix_free (h.mem_codewords (h.present_iff.mp hx)) (h.mem_codewords (h.present_iff.mp hy))
      hprefix

/-- With two symbols or more, every infinite bit sequence starts with exactly one code. -/
theorem existsUnique_code (h2 : 2 ≤ (distinctSymbols input).length) (f : Nat → Bool) :
    ∃! x, x ∈ input ∧ (SymbolTable.at table x).toBits =
      (List.range (SymbolTable.at table x).len.toNat).map f := by
  have hpaths := codewords_eq_paths (h.leaves_length ▸ h2)
  obtain ⟨x, p, hp, hf⟩ := t.exists_path_of_bits f
  rw [← hpaths] at hp
  have hx := h.exists_codeword_iff.mp ⟨p, hp⟩
  have hlen := codeEntry_len_toNat (h.short x p hp)
  refine ⟨x, ⟨hx, ?_⟩, ?_⟩
  · rw [h.at_of_mem hp, codeEntry_toBits (h.short x p hp), hlen]
    exact hf
  · rintro y ⟨hy, hbits⟩
    have hstart : ∀ {m n : Nat}, m ≤ n → (List.range m).map f <+: (List.range n).map f := by
      intro m n hmn
      obtain ⟨d, rfl⟩ := Nat.exists_eq_add_of_le hmn
      rw [List.range_add, List.map_append]
      exact List.prefix_append _ _
    have hq := h.mem_codewords hy
    rw [hbits] at hq
    rw [hf] at hp
    rcases Nat.le_total p.length (SymbolTable.at table y).len.toNat with hle | hle
    · exact (codewords_prefix_free hp hq (hstart hle)).symm
    · exact codewords_prefix_free hq hp (hstart hle)

/-- The Bitstream has one code for each byte (42_code_generator R80). -/
theorem bitstream_length : (bitstream table input).length =
    (t.codewords.map (fun p => input.count p.1 * p.2.length)).sum := by
  have hcover : input ⊆ t.codewords.map Prod.fst := fun x hx =>
    h.codewords_perm.mem_iff.mpr (mem_distinctSymbols.mpr hx)
  rw [bitstream, List.length_flatMap,
    ← sum_map_count_mul_of_subset h.codewords_nodup hcover fun x => (SymbolTable.at table x).toBits.length,
    List.map_map]
  refine congrArg List.sum (List.map_congr_left fun p hp => ?_)
  simp only [Function.comp_apply, h.at_of_mem (x := p.1) (p := p.2) hp, codeEntry_toBits (h.short p.1 p.2 hp)]

/-- With two symbols or more the Bitstream is as long as the tree is costly, so no longer than with codes of
one width. -/
theorem bitstream_length_le (h2 : 2 ≤ (distinctSymbols input).length) :
    (bitstream table input).length ≤ input.length * Nat.clog 2 (distinctSymbols input).length := by
  rw [h.bitstream_length, codewords_eq_paths (h.leaves_length ▸ h2),
    sum_paths_length (f := input.count) h.counts]
  exact h.cost_le

/-- With one symbol each byte has the one-bit code. -/
theorem toBits_of_one (h1 : (distinctSymbols input).length = 1) {x : Byte} (hx : x ∈ input) :
    (SymbolTable.at table x).toBits = [false] :=
  codewords_of_one (h.leaves_length.trans h1) (h.mem_codewords hx)

theorem bitstream_length_of_one (h1 : (distinctSymbols input).length = 1) :
    (bitstream table input).length = input.length := by
  rw [bitstream, List.length_flatMap, List.map_congr_left (g := fun _ => 1)
    fun x hx => by rw [h.toBits_of_one h1 hx]; rfl]
  simp

/-- No code is empty. -/
theorem length_le_bitstream : input.length ≤ (bitstream table input).length := by
  rw [bitstream, List.length_flatMap]
  have hone : ∀ x ∈ input, 1 ≤ (SymbolTable.at table x).toBits.length := fun x hx => by
    rw [CodeEntry.toBits_length]
    exact (h.goodRecord_at hx).1
  simpa using List.sum_le_sum hone

end CodeTree.Coded

/-! ### The obligations -/

/-- Settles O30: the code of a symbol is its path in the tree that stands at ROOT. -/
theorem codesAreRootToLeafPaths : Obligations.CodesAreRootToLeafPaths := by
  intro input w hne hlen hcodes
  obtain ⟨⟨t, ht⟩, hframe⟩ := exists_coded hne hlen hcodes
  refine ⟨fun h2 x hx => ?_, fun x hx => ?_, fun x hx => ht.at_of_not_mem hx, hframe⟩
  · rw [ht.stands.follow_eq_leaf_iff, ← CodeTree.codewords_eq_paths (ht.leaves_length ▸ h2)]
    exact ht.mem_codewords hx
  · have hxin : x ∈ input := mem_distinctSymbols.mp (by simp [hx])
    obtain ⟨p, hp⟩ := ht.exists_codeword_iff.mpr hxin
    rw [ht.at_of_mem hp, CodeTree.codewords_of_one (by rw [ht.leaves_length, hx]; rfl) hp]
    rfl

/-- Settles O31: the leaves of the arena are the codewords' symbols, and a lone leaf at ROOT is at depth 0. -/
theorem codesFaultsExactlyOnATooDeepLeaf : Obligations.CodesFaultsExactlyOnATooDeepLeaf := by
  intro input r hne hlen
  obtain ⟨t, ht⟩ := exists_builtFrom hne hlen
  have hdeep : (∃ path x c, 32 < path.length ∧
      follow (treeOf input).node (treeOf input).root path = some (.leaf x c)) ↔
      ∃ p ∈ t.codewords, 32 < p.2.length := by
    simp only [exists_and_left, ht.stands.follow_eq_leaf_iff,
      CodeTree.exists_longer_codeword_iff (show 1 ≤ 32 by decide), Prod.exists]
    exact ⟨fun ⟨path, hlong, x, hpath⟩ => ⟨x, path, hpath, hlong⟩,
      fun ⟨x, path, hpath, hlong⟩ => ⟨path, hlong, x, hpath⟩⟩
  rw [hdeep, Working.codes_eq ht.stands]
  by_cases hshort : ∀ p ∈ t.codewords, p.2.length ≤ 32
  · rw [if_pos hshort]
    exact ⟨fun herr => absurd herr nofun,
      fun ⟨_, p, hp, hlong⟩ => absurd (hshort p hp) (Nat.not_le.mpr hlong)⟩
  · rw [if_neg hshort, Except.error.injEq]
    exact ⟨fun hr => ⟨hr.symm, by simpa using hshort⟩, fun hr => hr.1.symm⟩

/-- Settles O32: every bit sequence starts with a path of the tree, and no path begins with another. -/
theorem codeTableIsPrefixFreeAndComplete : Obligations.CodeTableIsPrefixFreeAndComplete := by
  intro input w hne hlen hcodes
  obtain ⟨⟨t, ht⟩, -⟩ := exists_coded hne hlen hcodes
  exact ⟨ht.good, fun x => ht.present_iff, ht.entries_length, ht.existsUnique_code, fun h1 x hx =>
    ht.toBits_of_one h1 hx⟩

/-- Settles O33: the Bitstream is as long as the tree is costly, and the merge loop keeps that cost within a
balanced tree's. -/
theorem bitstreamIsNoLongerThanFixedWidth : Obligations.BitstreamIsNoLongerThanFixedWidth := by
  intro input w hne hlen hcodes
  obtain ⟨⟨t, ht⟩, -⟩ := exists_coded hne hlen hcodes
  have hpos := List.length_pos_of_ne_nil (mt distinctSymbols_eq_nil_iff.mp hne)
  have height : (bitstream w.code input).length ≤ 8 * input.length := by
    rcases Nat.eq_or_lt_of_le hpos with h1 | h2
    · rw [ht.bitstream_length_of_one h1.symm]
      omega
    · have hclog : Nat.clog 2 (distinctSymbols input).length ≤ 8 :=
        Nat.clog_le_of_le_pow (distinctSymbols_length_le input)
      calc (bitstream w.code input).length
          ≤ input.length * Nat.clog 2 (distinctSymbols input).length := ht.bitstream_length_le h2
        _ ≤ input.length * 8 := Nat.mul_le_mul_left _ hclog
        _ = 8 * input.length := Nat.mul_comm _ _
  have hpayload := pack_length_lt (bitstream w.code input) w
  exact ⟨ht.bitstream_length_le, ht.bitstream_length_of_one, ht.length_le_bitstream, height, by omega⟩

end Sys2Proof.Machine
end

section
/-! The table serializer (43_table_serializer R83 to R86): the order of the records, the round trip, and the
faults of the records in DECODE. -/

namespace Sys2Proof.Machine

/-! ### The present entries -/

theorem CodeTable.entries_symbols (t : CodeTable) :
    (CodeTable.entries t).map (fun p => p.1) = symbols.filter (fun x => (SymbolTable.at t x).present) := by
  rw [CodeTable.entries_eq_map, List.map_map]
  exact List.map_id _

theorem CodeTable.entries_sorted (t : CodeTable) :
    (CodeTable.entries t).Pairwise (fun p q => p.1.toNat < q.1.toNat) := by
  rw [← List.pairwise_map (f := fun p : Byte × CodeEntry => p.1) (R := fun x y => x.toNat < y.toNat),
    CodeTable.entries_symbols]
  exact symbols_sorted.filter _

/-- Settles O36: the entries are the present ones among all symbols, which are listed in ascending order. -/
theorem recordsStandInAscendingSymbolOrder : Obligations.RecordsStandInAscendingSymbolOrder :=
  fun t => ⟨CodeTable.entries_sorted t, fun x e => by
    rw [CodeTable.mem_entries, CodeEntry.present_iff, Nat.succ_le_iff]⟩

/-! ### The round trip -/

theorem CodeEntry.good.goodRecord {e : CodeEntry} (h : e.good) (hpresent : e.present = true) (x : Byte) :
    goodRecord (x, e) := by
  rcases h with ⟨habsent, -⟩ | hgood
  · rw [CodeEntry.present_iff, habsent] at hpresent
    exact absurd hpresent (by decide)
  · exact hgood

theorem CodeEntry.good.eq_of_absent {e : CodeEntry} (h : e.good) (habsent : e.present = false) :
    e = { len := 0#6, bits := 0#32 } := by
  obtain ⟨len, bits⟩ := e
  rcases h with ⟨hlen, hbits⟩ | ⟨hlen, -⟩
  · exact congrArg₂ CodeEntry.mk hlen hbits
  · rw [(CodeEntry.present_iff _).mpr hlen] at habsent
    cases habsent

/-- The present entries of a good table are records that pass checks 4 to 7. -/
theorem CodeTable.good.legalRecords {t : CodeTable} (h : CodeTable.good t) :
    legalRecords (CodeTable.entries t) := by
  obtain ⟨hgood, hfree⟩ := h
  refine ⟨CodeTable.entries_symbols t ▸ symbols_nodup.filter _, fun ⟨x, e⟩ hp => ?_,
    fun ⟨x, e⟩ hp ⟨y, f⟩ hq hne => ?_⟩
  · obtain ⟨rfl, hpresent⟩ := (CodeTable.mem_entries t x e).mp hp
    exact (hgood x).goodRecord hpresent x
  · obtain ⟨rfl, hx⟩ := (CodeTable.mem_entries t x e).mp hp
    obtain ⟨rfl, hy⟩ := (CodeTable.mem_entries t y f).mp hq
    exact hfree x y hne hx hy

/-- Settles O34: the serialized form is the table's own good records, and entering them in an empty table
gives the table back. -/
theorem deserializeInvertsSerialize : Obligations.DeserializeInvertsSerialize := by
  intro t rest hgood
  obtain ⟨hnodup, hrecords, hfree⟩ := hgood.legalRecords
  refine ⟨?_, serialize_length t⟩
  rw [serialize_length, serialize, List.append_assoc,
    deserialize_good rest init_code_at hnodup hrecords hfree,
    tableOf_entries init_code_at fun x => (hgood.1 x).eq_of_absent]

/-! ### One record that fails a check (43_table_serializer R84, checks 4 to 6) -/

section
variable {x len : Byte} {v : Word32} {t : CodeTable}

theorem readRecord_badCodeLen (h : len.toNat = 0 ∨ 32 < len.toNat) :
    readRecord x len v t = .error (.malformedContainer .badCodeLen) := by
  rw [readRecord, if_pos (by omega)]

theorem readRecord_dupSymbol (h1 : 1 ≤ len.toNat) (h32 : len.toNat ≤ 32)
    (hx : (SymbolTable.at t x).present = true) :
    readRecord x len v t = .error (.malformedContainer .dupSymbol) := by
  rw [readRecord, if_neg (by omega), if_pos hx]

/-- A code of 32 bits has no bits below it, so dirty padding means a shorter one. -/
theorem readRecord_dirtyPad (h1 : 1 ≤ len.toNat) (h32 : len.toNat ≤ 32)
    (hx : (SymbolTable.at t x).present ≠ true) (hv : bitsBelow v len.toNat ≠ 0) :
    readRecord x len v t = .error (.malformedContainer .dirtyPad) := by
  have hlt : len.toNat < 32 := h32.lt_of_ne fun heq => hv (by rw [heq]; exact Nat.mod_one _)
  rw [readRecord, if_neg (by omega), if_neg hx, if_pos ⟨hlt, hv⟩]

end

/-! ### The record loop and check 7 -/

section
variable {records : List (Byte × CodeEntry)} {t : CodeTable}
  (ht : ∀ x, SymbolTable.at t x = { len := 0#6, bits := 0#32 })
  (hn : (records.map (fun p => p.1)).Nodup) (hg : ∀ p ∈ records, goodRecord p)
include ht hn hg

/-- A symbol is present in the table of good records exactly when a record has it. -/
theorem tableOf_present_iff (x : Byte) :
    (SymbolTable.at (tableOf t records) x).present = true ↔ x ∈ records.map (fun p => p.1) := by
  constructor
  · intro hx
    exact List.mem_map_of_mem (f := fun p => p.1)
      ((mem_entries_tableOf ht hn hg _).mp ((CodeTable.mem_entries _ x _).mpr ⟨rfl, hx⟩))
  · intro hx
    obtain ⟨p, hp, rfl⟩ := List.mem_map.mp hx
    obtain ⟨hat, hpresent⟩ := (CodeTable.mem_entries _ p.1 p.2).mp ((mem_entries_tableOf ht hn hg p).mpr hp)
    rwa [← hat]

/-- The record loop goes past good records. -/
theorem readRecords_append (n : Nat) (rest : List Byte) :
    readRecords (records.length + n) (records.flatMap (fun p => recordBytes p.1 p.2) ++ rest) t =
      readRecords n rest (tableOf t records) :=
  readRecords_good n rest hn hg fun p _ => by rw [ht]; rfl

theorem prefixFree_tableOf_eq_false {p q : Byte × CodeEntry} (hp : p ∈ records) (hq : q ∈ records)
    (hne : p.1 ≠ q.1) (hprefix : p.2.toBits <+: q.2.toBits) :
    prefixFree (CodeTable.entries (tableOf t records)) = false := by
  have hmem := mem_entries_tableOf ht hn hg
  rw [Bool.eq_false_iff, ne_eq, prefixFree_iff fun r hr => (hg r ((hmem r).mp hr)).2.1]
  exact fun hfree => hfree p ((hmem p).mpr hp) q ((hmem q).mpr hq) hne hprefix

end

/-- The record loop stops at a record that fails a check. -/
theorem readRecords_cons_error {x len : Byte} {v : Word32} {t : CodeTable} {r : FaultReport} (n : Nat)
    (rest : List Byte) (h : readRecord x len v t = .error r) :
    readRecords (n + 1) (x :: len :: bytesBe32 v ++ rest) t = .error r := by
  rw [readRecords_cons, h]

/-! ### The faults of `deserialize`, and of DECODE with it -/

/-- With a count of at most 256 and the bytes of its records there, checks 1 to 3 pass: the record loop decides,
and then check 7. -/
theorem deserialize_of_count {c : Nat} {rest : List Byte} (t : CodeTable) (hc : c ≤ 256)
    (hlen : 6 * c ≤ rest.length) :
    deserialize (bytesBe32 (BitVec.ofNat 32 c) ++ rest) t =
      (readRecords c rest t).bind fun t' =>
        if prefixFree (CodeTable.entries t') then .ok (t', 4 + 6 * c)
        else .error (.malformedContainer .notPrefixFree) := by
  have hcount : (BitVec.ofNat 32 c).toNat = c := Nat.mod_eq_of_lt (by omega)
  rw [deserialize, takeBe32_bytesBe32]
  simp only [hcount, List.length_append, bytesBe32_length]
  rw [if_neg (by omega), if_neg (by omega)]
  cases readRecords c rest t <;> rfl

section
variable {s : State} {r : FaultReport}

/-- DECODE takes the fault that its parser finds (45_codec_commands R107). -/
theorem exec_decode_of_parse_error (hcap : s.inLen.toNat ≤ s.cfg.inCap)
    (h : parseContainer s.input Working.init.code = .error r) :
    ∃ t, exec .decode s = .next t ∧ t.faultedWith r ∧ s.sameInputSide t := by
  have hresult : decodeResult s = .error r := by
    have hstart : s.work.start.code = Working.init.code := rfl
    rw [decodeResult, if_neg (Nat.not_lt.mpr hcap), decodeInput, hstart, h]
  refine ⟨s.raiseFault r, ?_, raiseFault_faultedWith s r, finish_sameInputSide s (.error r)⟩
  rw [exec_decode, hresult]
  rfl

/-- DECODE takes the fault that `deserialize` finds in the bytes after the original symbol count. -/
theorem exec_decode_of_deserialize_error {osc : Word32} {rest : List Byte}
    (hcap : s.inLen.toNat ≤ s.cfg.inCap) (hinput : s.input = bytesBe32 osc ++ rest)
    (h : deserialize rest Working.init.code = .error r) :
    ∃ t, exec .decode s = .next t ∧ t.faultedWith r ∧ s.sameInputSide t := by
  refine exec_decode_of_parse_error hcap ?_
  rw [hinput, parseContainer, takeBe32_bytesBe32]
  simp only [h]

end

/-- Settles O45: the record loop enters the records that pass in an empty table and stops at the next one,
whose symbol is present in the table exactly when it came before. -/
theorem firstBadRecordDecidesTheSubCause : Obligations.FirstBadRecordDecidesTheSubCause := by
  intro s osc c before x len v after cause hcap hc hlt hinput hlen hn hg hcause
  simp only [← recordBytes_eq, List.append_assoc] at hinput
  have hpresent := tableOf_present_iff init_code_at hn hg x
  have hbad : readRecord x len v (tableOf Working.init.code before) = .error (.malformedContainer cause) := by
    rcases hcause with ⟨rfl, hlen⟩ | ⟨rfl, h1, h32, hx⟩ | ⟨rfl, h1, h32, hx, hv⟩
    · exact readRecord_badCodeLen hlen
    · exact readRecord_dupSymbol h1 h32 (hpresent.mpr hx)
    · exact readRecord_dirtyPad h1 h32 (mt hpresent.mp hx) hv
  obtain ⟨n, rfl⟩ : ∃ n, c = before.length + (n + 1) := ⟨c - before.length - 1, by omega⟩
  have hsize : 6 * (before.length + (n + 1)) ≤ (before.flatMap (fun p => recordBytes p.1 p.2) ++
      (x :: len :: bytesBe32 v ++ after)).length := by
    have hinLen := congrArg List.length hinput
    rw [State.input, List.length_map, List.length_range, List.length_append, List.length_append,
      bytesBe32_length, bytesBe32_length] at hinLen
    omega
  refine exec_decode_of_deserialize_error hcap hinput ?_
  rw [deserialize_of_count _ hc hsize, readRecords_append init_code_at hn hg,
    readRecords_cons_error n after hbad]
  rfl

/-- Settles O46: the record loop passes, and the table it leaves holds both codes. -/
theorem tableThatIsNotPrefixFreeFaults : Obligations.TableThatIsNotPrefixFreeFaults := by
  intro s osc records after p q hcap hinput hn hg hp hq hne hprefix
  simp only [← recordBytes_eq, List.append_assoc] at hinput
  have hsize : 6 * records.length ≤ (records.flatMap (fun p => recordBytes p.1 p.2) ++ after).length := by
    rw [List.length_append, flatMap_recordBytes_length]
    exact Nat.le_add_right _ _
  have hread := readRecords_append init_code_at hn hg 0 after
  rw [Nat.add_zero, readRecords] at hread
  refine exec_decode_of_deserialize_error hcap hinput ?_
  rw [deserialize_of_count _ (length_le_of_nodup hn) hsize, hread, Except.bind,
    prefixFree_tableOf_eq_false init_code_at hn hg hp hq hne hprefix]
  rfl

end Sys2Proof.Machine
end

section
/-! The bit packer and the bit reader (44_bit_packer_reader R91 to R96): how a packed sequence lies in its
bytes, and that no other bytes spell it. -/

namespace Sys2Proof.Machine

/-! ### The bits of bytes -/

theorem byteBits_getElem? (n : Nat) (b : Byte) (t : Nat) :
    (byteBits n b)[t]? = if t < n then some (b.getMsbD t) else none := by
  split
  · next h => rw [List.getElem?_eq_getElem (by rwa [byteBits_length]), byteBits_getElem]
  · next h => exact List.getElem?_eq_none (by rw [byteBits_length]; omega)

theorem byteBits_inj {n : Nat} {a b : Byte} :
    byteBits n a = byteBits n b ↔ ∀ t < n, a.getMsbD t = b.getMsbD t := by
  simp [byteBits]

theorem byteBits_eight_injective : Function.Injective (byteBits 8) :=
  fun _ _ h => BitVec.eq_of_getMsbD_eq fun t ht => byteBits_inj.mp h t ht

theorem flatMap_byteBits_injective : Function.Injective (List.flatMap (byteBits 8)) := by
  intro l
  induction l with
  | nil =>
    intro l' h
    have hlen := congrArg List.length h
    rw [flatMap_byteBits_length, flatMap_byteBits_length] at hlen
    exact (List.length_eq_zero_iff.mp (by simpa using hlen.symm)).symm
  | cons b rest ih =>
    rintro (_ | ⟨b', rest'⟩) h
    · cases h
    · obtain ⟨hb, hrest⟩ := List.append_inj h (by rw [byteBits_length, byteBits_length])
      rw [byteBits_eight_injective hb, ih hrest]

/-- Bit `t` of byte `j` is bit `8 j + t` of the sequence that full bytes spell. -/
theorem flatMap_byteBits_getElem? (l : List Byte) (j : Nat) {t : Nat} (ht : t < 8) :
    (l.flatMap (byteBits 8))[8 * j + t]? = l[j]?.map (fun b => b.getMsbD t) := by
  induction l generalizing j with
  | nil => rfl
  | cons b rest ih =>
    rw [List.flatMap_cons]
    cases j with
    | zero =>
      rw [List.getElem?_append_left (by rw [byteBits_length]; omega), byteBits_getElem?, if_pos (by omega)]
      simp
    | succ j =>
      rw [List.getElem?_append_right (by rw [byteBits_length]; omega), byteBits_length,
        List.getElem?_cons_succ, ← ih j]
      congr 1
      omega

/-! ### A non-empty payload -/

/-- The bytes `full ++ [last]` with `usable` bits in the last one hold exactly the sequence `bits`, and the
padding is 0. -/
structure PackedInto (bits : Bits) (full : List Byte) (last usable : Byte) : Prop where
  one_le : 1 ≤ usable.toNat
  le_eight : usable.toNat ≤ 8
  unpack_eq : unpack (full ++ [last]) usable = bits
  padding : ∀ t, usable.toNat ≤ t → last.getMsbD t = false

theorem pack_nil (w : Working) : w.pack [] = ([], 0#8, w.flushAcc) := rfl

/-- What `pack` makes of a non-empty sequence (44_bit_packer_reader R91). -/
theorem pack_of_ne_nil {bits : Bits} (hne : bits ≠ []) (w : Working) :
    ∃ full last, (w.pack bits).1 = full ++ [last] ∧ PackedInto bits full last (w.pack bits).2.1 := by
  obtain ⟨hbits, ⟨hlt, hclean⟩, -, -⟩ := packLoop_spec bits w.flushAcc w.flushAcc_clean
  have hstart : byteBits w.flushAcc.nacc.toNat w.flushAcc.acc = [] := rfl
  rw [hstart, List.nil_append] at hbits
  rw [pack_eq, if_neg hne]
  generalize packLoop bits w.flushAcc = loop at hbits hlt hclean ⊢
  obtain ⟨bytes, w'⟩ := loop
  dsimp only at hbits hlt hclean ⊢
  split
  · next hzero =>
    have hfull : bytes.flatMap (byteBits 8) = bits := by
      rw [← hbits, hzero]; exact (List.append_nil _).symm
    rcases List.eq_nil_or_concat' bytes with rfl | ⟨full, last, rfl⟩
    · exact absurd hfull.symm hne
    · have hunpack : unpack (full ++ [last]) 8#8 = bits := by
        rw [unpack_append_singleton, ← hfull, List.flatMap_append, List.flatMap_singleton]; rfl
      have hpacked : PackedInto bits full last 8#8 :=
        ⟨by decide, by decide, hunpack, fun t ht => BitVec.getMsbD_of_ge _ _ ht⟩
      exact ⟨full, last, rfl, hpacked⟩
  · next hpart =>
    have hpos : w'.nacc.toNat ≠ 0 := fun h0 => hpart (BitVec.eq_of_toNat_eq h0)
    have husable : (w'.nacc.setWidth 8).toNat = w'.nacc.toNat := by rw [BitVec.toNat_setWidth]; omega
    refine ⟨bytes, w'.acc, rfl, by rw [husable]; omega, by rw [husable]; omega, ?_, by rwa [husable]⟩
    rw [unpack_append_singleton, husable, hbits]

namespace PackedInto
variable {bits : Bits} {full : List Byte} {last usable : Byte}

theorem length_eq (h : PackedInto bits full last usable) :
    bits.length = 8 * full.length + usable.toNat := by
  rw [← h.unpack_eq, unpack_length _ _ (by simp), List.length_append, List.length_singleton,
    Nat.add_sub_cancel]

/-- Every bit of every byte, padding included (44_bit_packer_reader R93). -/
theorem getMsbD_eq (h : PackedInto bits full last usable) {j : Nat} {b : Byte}
    (hb : (full ++ [last])[j]? = some b) {t : Nat} (ht : t < 8) :
    b.getMsbD t = (bits[8 * j + t]?).getD false := by
  rw [← h.unpack_eq, unpack_append_singleton]
  rcases Nat.lt_or_ge j full.length with hj | hj
  · rw [List.getElem?_append_left hj] at hb
    rw [List.getElem?_append_left (by rw [flatMap_byteBits_length]; omega), flatMap_byteBits_getElem? _ _ ht,
      hb]
    rfl
  · obtain rfl : j = full.length := by
      have := (List.getElem?_eq_some_iff.mp hb).1
      rw [List.length_append, List.length_singleton] at this
      omega
    obtain rfl : last = b := by simpa using hb
    rw [List.getElem?_append_right (by rw [flatMap_byteBits_length]; omega), flatMap_byteBits_length,
      Nat.add_sub_cancel_left, byteBits_getElem?]
    split
    · rfl
    · exact h.padding t (by omega)

end PackedInto

/-- Two non-empty payloads that spell the same bits differ at most in their padding. -/
theorem eq_of_unpack_eq {full full' : List Byte} {last last' usable usable' : Byte}
    (h1 : 1 ≤ usable.toNat) (h8 : usable.toNat ≤ 8) (h1' : 1 ≤ usable'.toNat) (h8' : usable'.toNat ≤ 8)
    (h : unpack (full ++ [last]) usable = unpack (full' ++ [last']) usable') :
    full = full' ∧ usable = usable' ∧ ∀ t < usable.toNat, last.getMsbD t = last'.getMsbD t := by
  rw [unpack_append_singleton, unpack_append_singleton] at h
  have hlen := congrArg List.length h
  simp only [List.length_append, flatMap_byteBits_length, byteBits_length] at hlen
  obtain ⟨hfull, hlast⟩ := List.append_inj h (by simp only [flatMap_byteBits_length]; omega)
  obtain rfl : usable = usable' := BitVec.eq_of_toNat_eq (by omega)
  exact ⟨flatMap_byteBits_injective hfull, rfl, byteBits_inj.mp hlast⟩

/-- Settles O37: `pack` of a non-empty sequence is one payload that spells it, and the only one with clear
padding. -/
theorem packAndUnpackAreInverse : Obligations.PackAndUnpackAreInverse := by
  refine ⟨fun bits w => ?_, fun payload last usable w h1 h8 => ?_⟩
  · rcases eq_or_ne bits [] with rfl | hne
    · rfl
    · obtain ⟨full, last, hpayload, hpacked⟩ := pack_of_ne_nil hne w
      rw [hpayload, hpacked.unpack_eq]
  · have hne : unpack (payload ++ [last]) usable ≠ [] := fun hnil => by
      have hlen := unpack_length (payload ++ [last]) usable (by simp)
      rw [hnil, List.length_nil] at hlen
      omega
    obtain ⟨full, last', hpayload, hpacked⟩ := pack_of_ne_nil hne w
    obtain ⟨rfl, husable, hlast⟩ :=
      eq_of_unpack_eq h1 h8 hpacked.one_le hpacked.le_eight hpacked.unpack_eq.symm
    refine ⟨husable.symm, last', hpayload, fun t _ => ?_⟩
    by_cases ht : t < usable.toNat
    · rw [← hlast t ht, decide_eq_true ht, Bool.true_and]
    · rw [hpacked.padding t (by rw [← husable]; omega), decide_eq_false ht, Bool.false_and]

/-- Settles O38: the counts follow from `8 * full.length + usable` bits with `usable` from 1 to 8. -/
theorem packHasItsClosedForm : Obligations.PackHasItsClosedForm := by
  intro bits w
  rcases eq_or_ne bits [] with rfl | hne
  · simp [pack_nil]
  · obtain ⟨full, last, hpayload, hpacked⟩ := pack_of_ne_nil hne w
    have hlen := hpacked.length_eq
    have h1 := hpacked.one_le
    have h8 := hpacked.le_eight
    rw [hpayload, List.length_append, List.length_singleton, if_neg (mt List.length_eq_zero_iff.mp hne)]
    refine ⟨by omega, by omega, fun j b hb t ht => ?_, fun _ => by omega⟩
    have hbit := hpacked.getMsbD_eq hb ht
    rwa [BitVec.getMsbD_eq_getLsbD, decide_eq_true ht, Bool.true_and,
      show 8 - 1 - t = 7 - t from rfl] at hbit

end Sys2Proof.Machine
end

section
/-! What DECODE makes of a Container (45_codec_commands R106 to R110): the ends of a command, the parser on the
fields of IN and on a Container's bytes, and the matcher on a list of codes and what is left. -/

namespace Sys2Proof.Machine

/-! ### The end of a command -/

section
variable {i : Instr} {s : State}

/-- A command with a fault ends with it and changes nothing of the input side (60_exceptions R117). -/
theorem exec_faults {r : FaultReport} (h : resultOf i s = .error r) :
    ∃ t, exec i s = .next t ∧ t.faultedWith r ∧ s.sameInputSide t :=
  ⟨s.raiseFault r, by rw [exec_eq, h, State.finish], raiseFault_faultedWith s r,
    finish_sameInputSide s (.error r)⟩

/-- A command with a result that OUT_LEN can count ends with it (45_codec_commands R111). -/
theorem exec_finishes {out : List Byte} (h : resultOf i s = .ok out) (hlen : out.length < 2 ^ 64) :
    ∃ t, exec i s = .next t ∧ t.finishedWith out ∧ s.sameInputSide t :=
  ⟨s.complete out, by rw [exec_eq, h, State.finish], complete_finishedWith s out hlen,
    finish_sameInputSide s (.ok out)⟩

/-- The result fits OUT, whose capacity is below 2^64 (00_scope R5). -/
theorem resultOf_length_lt {out : List Byte} (hcfg : s.cfg.wf = true) (h : resultOf i s = .ok out) :
    out.length < 2 ^ 64 := by
  obtain ⟨-, -, -, hcap⟩ := (Config.wf_iff s.cfg).mp hcfg
  exact (resultOf_fits hcfg h).trans_lt hcap

/-- A command that ends with STATUS 0x02 had a result, with which it ended. -/
theorem exists_result_of_done {t : State} (hcfg : s.cfg.wf = true) (hexec : exec i s = .next t)
    (hdone : t.status = 0x02#8) : ∃ out, resultOf i s = .ok out ∧ t.finishedWith out := by
  cases h : resultOf i s with
  | ok out =>
    obtain ⟨t', ht', hfinished, -⟩ := exec_finishes h (resultOf_length_lt hcfg h)
    obtain rfl : t' = t := Host.Outcome.next.inj (ht'.symm.trans hexec)
    exact ⟨out, rfl, hfinished⟩
  | error r =>
    obtain ⟨t', ht', ⟨hstatus, -⟩, -⟩ := exec_faults h
    obtain rfl : t' = t := Host.Outcome.next.inj (ht'.symm.trans hexec)
    exact absurd (hstatus.symm.trans hdone) (by decide)

/-- OUT holds one result at a time. -/
theorem State.finishedWith_inj {out out' : List Byte} (h : s.finishedWith out) (h' : s.finishedWith out') :
    out = out' := by
  obtain ⟨-, -, -, hlen, hget, -⟩ := h
  obtain ⟨-, -, -, hlen', hget', -⟩ := h'
  have hsame : out.length = out'.length := hlen.symm.trans hlen'
  refine List.ext_getElem? fun a => ?_
  rcases Nat.lt_or_ge a out.length with ha | ha
  · exact (hget a ha).2.symm.trans (hget' a (hsame ▸ ha)).2
  · rw [List.getElem?_eq_none ha, List.getElem?_eq_none (hsame ▸ ha)]

end

/-- With IN_LEN within IN_CAP, DECODE is what it makes of the input bytes. -/
theorem resultOf_decode {s : State} (hcap : s.inLen.toNat ≤ s.cfg.inCap) :
    resultOf .decode s = decodeInput s.cfg.outCap s.input Working.init := by
  rw [resultOf, decodeResult, if_neg (Nat.not_lt.mpr hcap), decodeInput_start]

/-! ### The 32-bit fields of IN -/

@[simp] theorem State.input_length (s : State) : s.input.length = s.inLen.toNat := by
  simp [State.input]

/-- A 32-bit field at an offset of IN is read from the four bytes there (20_memory R33). -/
theorem takeBe32_drop_input {s : State} {a : Nat} (h : a + 4 ≤ s.inLen.toNat) :
    takeBe32 (s.input.drop a) =
      some (be32 (s.inRead a) (s.inRead (a + 1)) (s.inRead (a + 2)) (s.inRead (a + 3)),
        s.input.drop (a + 4)) := by
  have hget : ∀ {j : Nat}, j < s.inLen.toNat → s.input.drop j = s.inRead j :: s.input.drop (j + 1) := by
    intro j hj
    rw [List.drop_eq_getElem_cons (by simpa using hj)]
    simp [State.input]
  rw [hget (by omega), hget (by omega), hget (by omega), hget (by omega), takeBe32]

theorem takeBe32_input {s : State} (h : 4 ≤ s.inLen.toNat) :
    takeBe32 s.input =
      some (be32 (s.inRead 0) (s.inRead 1) (s.inRead 2) (s.inRead 3), s.input.drop 4) :=
  takeBe32_drop_input (a := 0) (by omega)

/-! ### The parser's checks, in order (45_codec_commands R107) -/

section
variable {input rest : List Byte} {count : Word32} {r : FaultReport} (t : CodeTable)

theorem parseContainer_of_deserialize_error (hcount : takeBe32 input = some (count, rest))
    (h : deserialize rest t = .error r) : parseContainer input t = .error r := by
  rw [parseContainer, hcount]
  simp only [h]

/-- Fewer than eight bytes do not hold the two count fields. -/
theorem parseContainer_truncFixed (h : input.length < 8) :
    parseContainer input t = .error (.malformedContainer .truncFixed) := by
  cases hcount : takeBe32 input with
  | none => rw [parseContainer, hcount]
  | some field =>
    obtain ⟨count, rest⟩ := field
    have hshort : takeBe32 rest = none := takeBe32_eq_none.mpr (by have := takeBe32_length hcount; omega)
    exact parseContainer_of_deserialize_error t hcount (by rw [deserialize, hshort])

theorem deserialize_truncTable (hcount : takeBe32 input = some (count, rest))
    (h : rest.length < 6 * count.toNat) :
    deserialize input t = .error (.malformedContainer .truncTable) := by
  have hlen := takeBe32_length hcount
  rw [deserialize, hcount]
  exact if_pos (by omega)

theorem deserialize_tooManyEntries (hcount : takeBe32 input = some (count, rest))
    (h : 6 * count.toNat ≤ rest.length) (h256 : 256 < count.toNat) :
    deserialize input t = .error (.malformedContainer .tooManyEntries) := by
  have hlen := takeBe32_length hcount
  rw [deserialize, hcount]
  simp only
  rw [if_neg (by omega), if_pos h256]

end

/-- Settles O44: the two count fields are the words at offsets 0 and 4 of IN. -/
theorem decodeChecksLengthsAndCountFirst : Obligations.DecodeChecksLengthsAndCountFirst := by
  intro s
  refine ⟨fun hcap => ?_, fun hcap hshort => ?_, fun hcap h8 htable => ?_, fun hcap h8 htable h256 => ?_⟩
  · have hresult : resultOf .decode s = .error .badLength := by
      rw [resultOf, decodeResult, if_pos hcap]
    exact exec_faults hresult
  · exact exec_decode_of_parse_error hcap (parseContainer_truncFixed _ (by rwa [State.input_length]))
  · refine exec_decode_of_parse_error hcap (parseContainer_of_deserialize_error _ (takeBe32_input (by omega))
      (deserialize_truncTable _ (takeBe32_drop_input h8) ?_))
    rwa [List.length_drop, State.input_length]
  · refine exec_decode_of_parse_error hcap (parseContainer_of_deserialize_error _ (takeBe32_input (by omega))
      (deserialize_tooManyEntries _ (takeBe32_drop_input h8) ?_ h256))
    rwa [List.length_drop, State.input_length]

/-! ### The fields after the table (45_codec_commands R107, steps d to h) -/

section
variable (count : Word32) (table : CodeTable) (n : Nat)

theorem parseTail_truncFixed {tail : List Byte} (h : tail.length < 5) :
    parseTail count table n tail = .error (.malformedContainer .truncFixed) := by
  cases tail with
  | nil => rfl
  | cons usable rest =>
    have hshort : takeBe32 rest = none := takeBe32_eq_none.mpr (Nat.lt_of_succ_lt_succ h)
    rw [parseTail, hshort]

variable {usable : Byte} {p : Word32} {payload : List Byte}

theorem parseTail_truncPayload (h : payload.length < p.toNat) :
    parseTail count table n (usable :: bytesBe32 p ++ payload) =
      .error (.malformedContainer .truncPayload) := by
  rw [List.cons_append, parseTail, takeBe32_bytesBe32]
  exact if_pos h

theorem parseTail_trailingBytes (h : p.toNat < payload.length) :
    parseTail count table n (usable :: bytesBe32 p ++ payload) =
      .error (.malformedContainer .trailingBytes) := by
  rw [List.cons_append, parseTail, takeBe32_bytesBe32]
  simp only
  rw [if_neg (by omega), if_pos h]

/-- The length field says that the payload is short enough, so an illegal payload has a bad usable count. -/
theorem parseTail_badUsable (h : p.toNat = payload.length) (hbad : ¬ legalPayload usable payload) :
    parseTail count table n (usable :: bytesBe32 p ++ payload) =
      .error (.malformedContainer .badUsable) := by
  have hlt := p.isLt
  rw [legalPayload, ← List.length_eq_zero_iff] at hbad
  rw [List.cons_append, parseTail, takeBe32_bytesBe32]
  simp only
  rw [if_neg (by omega), if_neg (by omega), if_pos (by omega)]

end

/-- Settles O47: the parser goes past the legal records, and each cause is one check of the tail. -/
theorem decodeChecksTheFieldsAfterTheTableInOrder :
    Obligations.DecodeChecksTheFieldsAfterTheTableInOrder := by
  intro s osc records tail cause hcap ⟨hnodup, hgood, hfree⟩ hinput hcause
  simp only [← recordBytes_eq, List.append_assoc] at hinput
  refine exec_decode_of_parse_error hcap ?_
  rw [hinput, parseContainer_records osc tail init_code_at hnodup hgood hfree]
  rcases hcause with ⟨rfl, hshort⟩ | ⟨usable, p, payload, rfl, ⟨rfl, h⟩ | ⟨rfl, h⟩ | ⟨rfl, h, hbad⟩⟩
  · exact parseTail_truncFixed _ _ _ hshort
  · exact parseTail_truncPayload _ _ _ h
  · exact parseTail_trailingBytes _ _ _ h
  · exact parseTail_badUsable _ _ _ h hbad

/-! ### A legal Container -/

/-- The working state in which DECODE starts to match with a code table (45_codec_commands R109). -/
def matcherStart (table : CodeTable) : Working :=
  { Working.init with code := table, curLen := 0#6, curBits := 0#32, emit := 0#32 }

/-- DECODE of a parsed Container with records and a count that fits OUT is what the matcher emits. -/
theorem decodeInput_eq_matchLoop {outCap : Nat} {input : List Byte} {p : Parsed}
    (h : parseContainer input Working.init.code = .ok p) (h0 : p.entries ≠ 0)
    (hcount : p.count.toNat ≤ outCap) :
    decodeInput outCap input Working.init =
      (matchLoop (CodeTable.entries p.table) p.count (unpack p.payload p.usable) (matcherStart p.table)).map
        (fun p => p.1) := by
  rw [decodeInput_parsed h h0 hcount, matcherStart]
  generalize matchLoop _ _ _ _ = result
  cases result <;> rfl

section
variable {records : List (Byte × CodeEntry)} {usable : Byte} {payload : List Byte}
variable (hrecords : legalRecords records) (hpayload : legalPayload usable payload)
include hrecords

theorem mem_entries_of_legalRecords (p : Byte × CodeEntry) :
    p ∈ CodeTable.entries (tableOf Working.init.code records) ↔ p ∈ records :=
  mem_entries_tableOf init_code_at hrecords.1 hrecords.2.1 p

theorem matchTable_of_legalRecords :
    MatchTable (CodeTable.entries (tableOf Working.init.code records)) :=
  matchTable_tableOf init_code_at hrecords.1 hrecords.2.1 hrecords.2.2

include hpayload

/-- The parser finds the fields of a legal Container (45_codec_commands R107). -/
theorem parseContainer_containerOf (osc : Nat) :
    parseContainer (containerOf osc records usable payload) Working.init.code =
      .ok {
        count := BitVec.ofNat 32 osc
        table := tableOf Working.init.code records
        entries := records.length
        usable := usable
        payload := payload } := by
  obtain ⟨hnodup, hgood, hfree⟩ := hrecords
  obtain ⟨hlen, hle, hzero⟩ := hpayload
  have htail := parseContainer_records (BitVec.ofNat 32 osc)
    (usable :: bytesBe32 (BitVec.ofNat 32 payload.length) ++ payload) init_code_at hnodup hgood hfree
  rw [parseTail_good _ _ _ usable payload hlen hle hzero] at htail
  simpa only [containerOf, ← recordBytes_eq, List.append_assoc, List.cons_append, List.nil_append]
    using htail

/-- DECODE of a legal Container with records and a count that OUT can hold, whose bits start with the codes of
at most that many of its symbols: those symbols, and what the matcher makes of the bits that are left. -/
theorem decodeInput_containerOf {outCap count : Nat} {chosen : List (Byte × CodeEntry)} {left : Bits}
    (hne : records ≠ []) (hchosen : ∀ p ∈ chosen, p ∈ records) (hlt : count < 2 ^ 32)
    (hcount : chosen.length ≤ count) (hfits : count ≤ outCap)
    (hbits : unpack payload usable = spelled chosen ++ left) :
    ∃ w : Working, w.holdsPrefix [] ∧ w.emit.toNat = chosen.length ∧
      decodeInput outCap (containerOf count records usable payload) Working.init =
        (matchLoop (CodeTable.entries (tableOf Working.init.code records)) (BitVec.ofNat 32 count) left w).map
          (fun p => chosen.map (fun p => p.1) ++ p.1) := by
  have hword : (BitVec.ofNat 32 count).toNat = count := Nat.mod_eq_of_lt hlt
  have hentries : ∀ p ∈ chosen, p ∈ CodeTable.entries (tableOf Working.init.code records) := fun p hp =>
    (mem_entries_of_legalRecords hrecords p).mpr (hchosen p hp)
  obtain ⟨w, hw, hemit, hmatch⟩ := matchLoop_codes (matchTable_of_legalRecords hrecords)
    (count := BitVec.ofNat 32 count) (w := matcherStart (tableOf Working.init.code records)) chosen hentries
    left (Working.holdsPrefix_nil rfl rfl) (by rw [hword]; exact (Nat.zero_add _).trans_le hcount)
  refine ⟨w, hw, hemit.trans (Nat.zero_add _), ?_⟩
  rw [decodeInput_eq_matchLoop (parseContainer_containerOf hrecords hpayload count)
    (mt List.length_eq_zero_iff.mp hne) (by rwa [hword])]
  dsimp only
  rw [hbits, spelled, hmatch]
  cases matchLoop (CodeTable.entries (tableOf Working.init.code records)) (BitVec.ofNat 32 count) left w <;> rfl

end

/-- Settles O48: the parser finds no record, and then neither the count nor OUT_CAP is looked at. -/
theorem decodeOfAnEmptyTableIsEmpty : Obligations.DecodeOfAnEmptyTableIsEmpty := by
  intro s osc usable payload hcap hpayload hinput
  have hrecords : legalRecords [] := ⟨List.nodup_nil, nofun, nofun⟩
  have hresult : resultOf .decode s = .ok [] := by
    rw [resultOf_decode hcap, hinput, decodeInput, parseContainer_containerOf hrecords hpayload]
    rfl
  exact exec_finishes hresult (by decide)

/-- Settles O49: the count is compared with OUT_CAP before the matcher runs. -/
theorem decodeOfATooLongResultOverflows : Obligations.DecodeOfATooLongResultOverflows := by
  intro s osc records usable payload hcap hrecords hne hpayload hlt hlong hinput
  have hword : (BitVec.ofNat 32 osc).toNat = osc := Nat.mod_eq_of_lt hlt
  have hresult : resultOf .decode s = .error .outputOverflow := by
    rw [resultOf_decode hcap, hinput, decodeInput, parseContainer_containerOf hrecords hpayload]
    simp only [hword]
    rw [if_neg (mt List.length_eq_zero_iff.mp hne), if_pos hlong]
  exact exec_faults hresult

/-- Settles O50: the matcher stops when it has emitted the chosen symbols, for they are as many as the count. -/
theorem decodeCompletesOnEveryLegalContainer : Obligations.DecodeCompletesOnEveryLegalContainer := by
  intro s records chosen extra usable payload hcfg hcap hrecords hne hpayload hchosen hlt hfits hbits hinput
  obtain ⟨w, -, hemit, hdecode⟩ :=
    decodeInput_containerOf hrecords hpayload hne hchosen hlt le_rfl hfits hbits
  have hdone : (BitVec.ofNat 32 chosen.length).toNat ≤ w.emit.toNat :=
    ((Nat.mod_eq_of_lt hlt).trans hemit.symm).le
  have hresult : resultOf .decode s = .ok (chosen.map (fun p => p.1)) := by
    rw [resultOf_decode hcap, hinput, hdecode, matchLoop_done _ _ hdone, Except.map, List.append_nil]
  exact exec_finishes hresult (resultOf_length_lt hcfg hresult)

/-! ### The faults of the matcher (45_codec_commands R109) -/

section
variable {es : List (Byte × CodeEntry)} {count : Word32} {w : Working} {p : Byte × CodeEntry} {left : Bits}
variable (hes : MatchTable es) (hp : p ∈ es) (hprefix : left <+: p.2.toBits)
  (hshort : left.length < p.2.len.toNat) (hw : w.holdsPrefix []) (hmissing : w.emit.toNat < count.toNat)
include hes hp hprefix hshort hw hmissing

/-- The bits end before a code does. -/
theorem matchLoop_outOfBits : matchLoop es count left w = .error (.malformedContainer .outOfBits) := by
  obtain ⟨w', hmatch, -, hemit⟩ := matchLoop_prefix hes hp left [] hw hmissing hprefix hshort
  rw [List.append_nil] at hmatch
  rw [hmatch, matchLoop, if_pos (by rwa [hemit])]

/-- A bit makes the prefix start no code, whatever bits follow. -/
theorem matchLoop_noCode {b : Bool} (hno : ∀ q ∈ es, ¬ left ++ [b] <+: q.2.toBits) (more : Bits) :
    matchLoop es count (left ++ b :: more) w = .error (.malformedContainer .noCode) := by
  obtain ⟨w', hmatch, hw', hemit⟩ := matchLoop_prefix hes hp left (b :: more) hw hmissing hprefix hshort
  have h32 := (hes.good p hp).2.1
  have hbit := Working.holdsPrefix_matchBit hw' (by rw [List.nil_append]; omega) b
  have hexact : exactMatch es (w'.matchBit b) = none :=
    (exactMatch_eq_none hes.good hbit).mpr fun q hq heq => hno q hq (heq ▸ List.prefix_rfl)
  have hextend : ¬ extendable es (w'.matchBit b) = true := fun hext => by
    obtain ⟨q, hq, hstart, -⟩ := (extendable_iff es hbit).mp hext
    exact hno q hq hstart
  rw [hmatch, matchLoop, if_pos (by rwa [hemit]), hexact]
  exact if_neg hextend

end

/-- Settles O51: after the chosen symbols the matcher has the empty prefix and symbols to emit, and takes the
fault of the bits that are left. -/
theorem matcherFaultsAsStated : Obligations.MatcherFaultsAsStated := by
  intro s records chosen count left usable payload hcap hrecords hne hpayload hchosen hless hlt hfits hinput
    ⟨p, hp, hprefix, hshort⟩
  have hes := matchTable_of_legalRecords hrecords
  have hmem := mem_entries_of_legalRecords hrecords
  have hfault : ∀ {bits : Bits} {r : FaultReport}, unpack payload usable = spelled chosen ++ bits →
      (∀ w : Working, w.holdsPrefix [] → w.emit.toNat < (BitVec.ofNat 32 count).toNat →
        matchLoop (CodeTable.entries (tableOf Working.init.code records)) (BitVec.ofNat 32 count) bits w =
          .error r) →
      ∃ t, exec .decode s = .next t ∧ t.faultedWith r ∧ s.sameInputSide t := by
    intro bits r hbits hmatch
    obtain ⟨w, hw, hemit, hdecode⟩ :=
      decodeInput_containerOf hrecords hpayload hne hchosen hlt hless.le hfits hbits
    have hmissing : w.emit.toNat < (BitVec.ofNat 32 count).toNat := by
      rwa [hemit, BitVec.toNat_ofNat, Nat.mod_eq_of_lt hlt]
    refine exec_faults ?_
    rw [resultOf_decode hcap, hinput, hdecode, hmatch w hw hmissing, Except.map]
  refine ⟨fun hbits => ?_, fun b more hbits hno => ?_⟩
  · exact hfault hbits fun w hw hmissing =>
      matchLoop_outOfBits hes ((hmem p).mpr hp) hprefix hshort hw hmissing
  · rw [List.append_assoc] at hbits
    exact hfault hbits fun w hw hmissing =>
      matchLoop_noCode hes ((hmem p).mpr hp) hprefix hshort hw hmissing (fun q hq => hno q ((hmem q).mp hq)) more

/-! ### The length of the result -/

/-- Settles O52: the two words that the parser reads are those at offsets 0 and 4 of IN. -/
theorem decodeResultHasTheCountedLength : Obligations.DecodeResultHasTheCountedLength := by
  intro s t hexec hstatus hcfg
  obtain ⟨out, hresult, -, -, -, hlen, -⟩ := exists_result_of_done hcfg hexec hstatus
  have hfits := resultOf_fits hcfg hresult
  have hcap : s.inLen.toNat ≤ s.cfg.inCap := by
    by_contra hcap
    rw [resultOf, decodeResult, if_pos (Nat.not_le.mp hcap)] at hresult
    cases hresult
  rw [resultOf_decode hcap] at hresult
  obtain ⟨count, c, rest, rest', hcount, hc, hempty, hfull⟩ := decodeInput_length hresult
  have h8 : 8 ≤ s.inLen.toNat := by
    have h1 := takeBe32_length hcount
    have h2 := takeBe32_length hc
    rw [State.input_length] at h1
    omega
  rw [takeBe32_input (by omega)] at hcount
  cases hcount
  rw [takeBe32_drop_input h8] at hc
  cases hc
  refine ⟨fun h0 => ?_, fun h0 => ?_⟩
  · rw [hempty (by rw [h0]; rfl)] at hlen
    exact BitVec.eq_of_toNat_eq hlen
  · rw [hlen]
    exact ⟨(hfull fun hz => h0 (BitVec.eq_of_toNat_eq hz)).1, hfits⟩

end Sys2Proof.Machine
end

section
/-! The move of the ENGINE with BUSY = 1 (45_codec_commands R100, R112), in each of the three ways in which it
gets it. -/

namespace Sys2Proof.Machine

theorem engineStep_of_decode {s : State} {i : Instr} (hbusy : s.busy = true)
    (h : decode [s.cmd] = .ok (i, [])) : engineStep s = exec i s := by
  rw [engineStep_eq, if_pos hbusy, State.fetch, h, exec_eq]

/-- Settles O3: the move is the ENGINE's, which fetches what CMD decodes to. -/
theorem stepRunsTheDecodedCommand : Obligations.StepRunsTheDecodedCommand := by
  intro s i rest hbusy hdecode
  refine ⟨fun hs => ?_, fun hs => ?_, fun hs => ?_⟩
  · rw [step_nil hs, engineStep_of_decode hbusy hdecode]
  · rw [step_poll_busy hs hbusy, engineStep_of_decode hbusy hdecode]
  · rw [step_engineTurn hs, engineStep_of_decode (s := s.setScript rest) hbusy hdecode]

theorem raiseFault_afterIllegalCommand (s : State) :
    s.afterIllegalCommand (s.raiseFault .illegalCommand) := by
  obtain ⟨hstatus, hcode, hinfo, -, -, hundefined⟩ := raiseFault_faultedWith s .illegalCommand
  exact ⟨hstatus, hcode, hinfo, rfl, fun a => hundefined a (Nat.zero_le a),
    finish_sameInputSide s (.error .illegalCommand)⟩

/-- Settles O5: the move is the ENGINE's, which can only raise the fault. -/
theorem illegalCommandDoesNothingButFault : Obligations.IllegalCommandDoesNothingButFault := by
  intro s rest hbusy h1 h2
  refine ⟨fun hs => ?_, fun hs => ?_, fun hs => ?_⟩
  · exact ⟨_, (step_nil hs).trans (engineStep_illegal hbusy h1 h2), raiseFault_afterIllegalCommand s⟩
  · exact ⟨_, (step_poll_busy hs hbusy).trans (engineStep_illegal hbusy h1 h2),
      raiseFault_afterIllegalCommand s⟩
  · exact ⟨_, (step_engineTurn hs).trans (engineStep_illegal (s := s.setScript rest) hbusy h1 h2),
      raiseFault_afterIllegalCommand (s.setScript rest)⟩

end Sys2Proof.Machine
end

section
/-! What ENCODE makes of an input (45_codec_commands R102 to R105), and the round trip through DECODE (R113). -/

namespace Sys2Proof.Machine

/-! ### ENCODE as its parts -/

/-- With IN_LEN within both bounds, ENCODE is what it makes of the input bytes. -/
theorem resultOf_encode {s : State} (hcap : s.inLen.toNat ≤ s.cfg.inCap)
    (hlen : s.inLen.toNat ≤ 2 ^ 32 - 1) :
    resultOf .encode s = encodeInput s.cfg.outCap s.input Working.init := by
  rw [resultOf, encodeResult, if_neg (Nat.not_lt.mpr hcap), if_neg (Nat.not_lt.mpr hlen), encodeInput_start]

theorem encodeInput_nil (outCap : Nat) :
    encodeInput outCap [] Working.init = .ok (List.replicate 13 0x00#8) := by
  rw [encodeInput, if_pos ((Working.count_k_eq_zero_iff init_freq_at (by decide)).mpr rfl)]

/-- ENCODE of a non-empty input: `codes` first, and then the size of the Container (45_codec_commands R102). -/
theorem encodeInput_of_ne_nil {input : List Byte} (outCap : Nat) (hne : input ≠ [])
    (hlen : input.length ≤ 2 ^ 32 - 1) :
    encodeInput outCap input Working.init = (treeOf input).codes.bind fun w =>
      if outCap < (assemble input w).length then .error .outputOverflow else .ok (assemble input w) := by
  rw [encodeInput, if_neg (mt (Working.count_k_eq_zero_iff init_freq_at hlen).mp hne), ← treeOf]
  cases (treeOf input).codes <;> rfl

theorem containerBytes_eq_containerOf (n : Nat) (t : CodeTable) (usable : Byte) (payload : List Byte) :
    containerBytes n (serialize t) usable payload = containerOf n (CodeTable.entries t) usable payload := by
  simp only [containerBytes, serialize, containerOf, recordBytes_eq, List.append_assoc]

/-- The Container that ENCODE assembles has the present codes as its records, in order. -/
theorem assemble_eq_containerOf (input : List Byte) (w : Working) :
    assemble input w =
      containerOf input.length (CodeTable.entries w.code) (w.pack (bitstream w.code input)).2.1
        (w.pack (bitstream w.code input)).1 :=
  containerBytes_eq_containerOf ..

/-- Its size: a record for each distinct symbol (30_encoding R56). -/
theorem assemble_length {input : List Byte} {w : Working} (hne : input ≠ [])
    (hlen : input.length ≤ 2 ^ 32 - 1) (hcodes : (treeOf input).codes = .ok w) :
    (assemble input w).length =
      13 + 6 * (distinctSymbols input).length + (w.pack (bitstream w.code input)).1.length := by
  obtain ⟨⟨t, ht⟩, -⟩ := exists_coded hne hlen hcodes
  rw [assemble_eq_containerOf, ← containerBytes_eq_containerOf, containerBytes_length, ht.entries_length]

theorem State.input_ne_nil {s : State} (h : 0 < s.inLen.toNat) : s.input ≠ [] :=
  List.ne_nil_of_length_pos (s.input_length.symm ▸ h)

/-! ### The obligations on ENCODE -/

/-- Settles O40: the first operand check that fails decides. -/
theorem encodeChecksItsOperandsInOrder : Obligations.EncodeChecksItsOperandsInOrder := by
  have hend : ∀ {s : State} {r : FaultReport}, resultOf .encode s = .error r →
      ∃ t, exec .encode s = .next t ∧ t.status = 0x06#8 ∧ t.errcode = r.errcode ∧ t.errinfo = r.errinfo ∧
        t.outHolds [] ∧ s.sameInputSide t := fun h => by
    obtain ⟨t, ht, ⟨hstatus, hcode, hinfo, hout⟩, hside⟩ := exec_faults h
    exact ⟨t, ht, hstatus, hcode, hinfo, hout, hside⟩
  refine fun s => ⟨fun hcap => hend (r := .badLength) ?_, fun hcap hlong => hend (r := .inputTooLong) ?_⟩
  · rw [resultOf, encodeResult, if_pos hcap]
  · rw [resultOf, encodeResult, if_neg (Nat.not_lt.mpr hcap), if_pos hlong]

/-- Settles O41: K = 0 for the empty input. -/
theorem encodeOfTheEmptyInputGivesThirteenZeros : Obligations.EncodeOfTheEmptyInputGivesThirteenZeros := by
  intro s hempty
  have hzero : s.inLen.toNat = 0 := by rw [hempty]; rfl
  have hresult : resultOf .encode s = .ok (List.replicate 13 0x00#8) := by
    rw [resultOf_encode (by omega) (by omega), List.eq_nil_of_length_eq_zero (s.input_length.trans hzero),
      encodeInput_nil]
  exact exec_finishes hresult (by decide)

/-- Settles O42: `codes` decides first, then the size of the assembled Container. -/
theorem encodeCompletesWithTheContainer : Obligations.EncodeCompletesWithTheContainer := by
  intro s hpos hcap hlen
  have hne := State.input_ne_nil hpos
  have hlen' : s.input.length ≤ 2 ^ 32 - 1 := by rwa [State.input_length]
  have hencode := (resultOf_encode hcap hlen).trans (encodeInput_of_ne_nil s.cfg.outCap hne hlen')
  refine ⟨fun w payload usable w' hcodes hpack => ?_, fun r hcodes => ?_⟩
  · have hsize := assemble_length hne hlen' hcodes
    have hcontainer := assemble_eq_containerOf s.input w
    rw [hcodes, Except.bind, hsize] at hencode
    rw [hpack] at hencode hcontainer
    rw [hcontainer, State.input_length] at hencode
    refine ⟨fun hfits hcfg => ?_, fun hlong => ?_⟩
    · rw [if_neg (Nat.not_lt.mpr hfits)] at hencode
      exact (exec_finishes hencode (resultOf_length_lt hcfg hencode)).imp
        fun t ⟨ht, hfinished, hside⟩ => ⟨ht, hside, hfinished⟩
    · rw [if_pos hlong] at hencode
      exact (exec_faults hencode).imp fun t ⟨ht, hfaulted, hside⟩ => ⟨ht, hside, hfaulted⟩
  · rw [hcodes, Except.bind] at hencode
    exact (exec_faults hencode).imp fun t ⟨ht, hfaulted, hside⟩ => ⟨ht, hside, hfaulted⟩

/-! ### One repeated symbol (42_code_generator R77) -/

theorem distinctSymbols_replicate {n : Nat} (hn : 1 ≤ n) (x : Byte) :
    distinctSymbols (List.replicate n x) = [x] := by
  have hmem : ∀ y, y ∈ distinctSymbols (List.replicate n x) ↔ y ∈ [x] := fun y => by
    rw [mem_distinctSymbols, List.mem_replicate, List.mem_singleton]
    exact and_iff_right (by omega)
  exact List.perm_singleton.mp
    ((List.perm_ext_iff_of_nodup (symbols_nodup.filter _) (List.nodup_singleton x)).mpr hmem)

/-- A lone leaf is not too deep. -/
theorem exists_codes_of_one {input : List Byte} (hne : input ≠ []) (hlen : input.length ≤ 2 ^ 32 - 1)
    (hone : (distinctSymbols input).length = 1) : ∃ w, (treeOf input).codes = .ok w := by
  obtain ⟨t, ht⟩ := exists_builtFrom hne hlen
  have hleaf : t.leaves.length = 1 := by rw [← List.length_map, ht.symbols.length_eq, hone]
  have hshort : ∀ p ∈ t.codewords, p.2.length ≤ 32 := fun p hp => by
    rw [CodeTree.codewords_of_one hleaf hp]
    decide
  exact ⟨_, (Working.codes_eq ht.stands).trans (if_pos hshort)⟩

/-- The one symbol gets the code 0, and no other symbol a code. -/
theorem codes_replicate {n : Nat} (hn : 1 ≤ n) (hlen : n ≤ 2 ^ 32 - 1) (x : Byte) :
    ∃ w, (treeOf (List.replicate n x)).codes = .ok w ∧
      CodeTable.entries w.code = [(x, { len := 1#6, bits := 0#32 })] ∧
      bitstream w.code (List.replicate n x) = List.replicate n false := by
  have hx : x ∈ List.replicate n x := List.mem_replicate.mpr ⟨by omega, rfl⟩
  have hne := List.ne_nil_of_mem hx
  have hlen' : (List.replicate n x).length ≤ 2 ^ 32 - 1 := by rwa [List.length_replicate]
  have hone := distinctSymbols_replicate hn x
  obtain ⟨w, hcodes⟩ := exists_codes_of_one hne hlen' (congrArg List.length hone)
  obtain ⟨-, hcode, -, -⟩ := codesAreRootToLeafPaths _ w hne hlen' hcodes
  obtain ⟨-, hpresent, hcount, -, -⟩ := codeTableIsPrefixFreeAndComplete _ w hne hlen' hcodes
  have hmem : (x, SymbolTable.at w.code x) ∈ CodeTable.entries w.code :=
    (CodeTable.mem_entries _ _ _).mpr ⟨rfl, (hpresent x).mpr hx⟩
  rw [hcode x hone] at hmem
  refine ⟨w, hcodes, ?_, ?_⟩
  · obtain ⟨p, hp⟩ := List.length_eq_one_iff.mp (hcount.trans (congrArg List.length hone))
    rw [hp, List.mem_singleton] at hmem
    rw [hp, ← hmem]
  · rw [bitstream, List.flatMap_replicate, hcode x hone]
    exact List.flatten_replicate_singleton

/-- Packing zeros gives zeros (44_bit_packer_reader R93). -/
theorem pack_replicate_false {n : Nat} (hn : 1 ≤ n) (w : Working) :
    w.pack (List.replicate n false) =
      (List.replicate ((n + 7) / 8) 0#8, BitVec.ofNat 8 ((n - 1) % 8 + 1),
        (w.pack (List.replicate n false)).2.2) := by
  obtain ⟨hlen, husable, hbits, -⟩ := packHasItsClosedForm (List.replicate n false) w
  rw [List.length_replicate] at hlen husable
  rw [if_neg (by omega)] at husable
  refine Prod.ext (List.eq_replicate_iff.mpr ⟨hlen, fun b hb => ?_⟩) (Prod.ext ?_ rfl)
  · obtain ⟨j, hj⟩ := List.mem_iff_getElem?.mp hb
    refine BitVec.eq_of_getMsbD_eq fun t ht => ?_
    have hbit := hbits j b hj t ht
    rw [List.getElem?_replicate] at hbit
    rw [BitVec.getMsbD_eq_getLsbD, decide_eq_true ht, Bool.true_and, show 8 - 1 - t = 7 - t from rfl, hbit]
    split <;> simp
  · refine BitVec.eq_of_toNat_eq ?_
    rw [husable, BitVec.toNat_ofNat]
    omega

/-- A Container with the one-bit code 0 of one symbol (30_encoding R51, R52). -/
theorem containerOf_one (n : Nat) (x usable : Byte) (payload : List Byte) :
    containerOf n [(x, { len := 1#6, bits := 0#32 })] usable payload =
      bytesBe32 (BitVec.ofNat 32 n) ++ bytesBe32 1#32 ++ [x, 1#8, 0#8, 0#8, 0#8, 0#8] ++ [usable] ++
        bytesBe32 (BitVec.ofNat 32 payload.length) ++ payload := by
  have hrecord : ([(x, { len := 1#6, bits := 0#32 })] : List (Byte × CodeEntry)).flatMap
      (fun p => p.1 :: BitVec.ofNat 8 p.2.len.toNat :: bytesBe32 p.2.bits) =
      [x, 1#8, 0#8, 0#8, 0#8, 0#8] := by simp [bytesBe32]
  rw [containerOf, hrecord, List.length_singleton]

/-- Settles O43: the Container of O42, whose fields are those of one code and of a Bitstream of zeros. -/
theorem encodeOfOneRepeatedSymbolCompletes : Obligations.EncodeOfOneRepeatedSymbolCompletes := by
  intro s x n hn hlen hcap hcfg hinput hfits
  have hinLen : s.inLen.toNat = n := by rw [← State.input_length, hinput, List.length_replicate]
  obtain ⟨w, hcodes, hentries, hstream⟩ := codes_replicate hn hlen x
  obtain ⟨hclauses, -⟩ := encodeCompletesWithTheContainer s (by omega) (by omega) (by omega)
  rw [hinput, hinLen, distinctSymbols_replicate hn] at hclauses
  obtain ⟨hcompletes, -⟩ := hclauses w _ _ _ hcodes
    ((congrArg (fun bits => w.pack bits) hstream).trans (pack_replicate_false hn w))
  rw [hentries, containerOf_one, List.length_replicate] at hcompletes
  exact hcompletes hfits hcfg

/-! ### The round trip (45_codec_commands R113) -/

/-- What `pack` leaves is a legal payload (30_encoding R53). -/
theorem pack_legalPayload {bits : Bits} {w : Working} (h : (w.pack bits).1.length < 2 ^ 32) :
    legalPayload (w.pack bits).2.1 (w.pack bits).1 := by
  obtain ⟨hlen, husable, -, -⟩ := packHasItsClosedForm bits w
  rw [legalPayload, ← List.length_eq_zero_iff]
  split at husable <;> omega

/-- The Bitstream spells the input symbol by symbol. -/
theorem bitstream_eq_spelled (t : CodeTable) (input : List Byte) :
    bitstream t input = spelled (input.map fun x => (x, SymbolTable.at t x)) := by
  rw [spelled, List.flatMap_map]
  rfl

/-- DECODE gives back an input from its assembled Container. -/
theorem exec_decode_assemble {input : List Byte} {w : Working} {u : State} (hne : input ≠ [])
    (hlen : input.length ≤ 2 ^ 32 - 1) (hcodes : (treeOf input).codes = .ok w) (hcfg : u.cfg.wf = true)
    (hcap : u.inLen.toNat ≤ u.cfg.inCap) (hfits : input.length ≤ u.cfg.outCap)
    (hinput : u.input = assemble input w) :
    ∃ v, exec .decode u = .next v ∧ v.finishedWith input ∧ u.sameInputSide v := by
  obtain ⟨hgood, hpresent, hcount, -, -⟩ := codeTableIsPrefixFreeAndComplete input w hne hlen hcodes
  obtain ⟨-, -, -, -, hpayload⟩ := bitstreamIsNoLongerThanFixedWidth input w hne hlen hcodes
  have hbits := packAndUnpackAreInverse.1 (bitstream w.code input) w
  have hrecords : CodeTable.entries w.code ≠ [] := fun hnil => hne (by
    rw [hnil] at hcount
    exact distinctSymbols_eq_nil_iff.mp (List.eq_nil_of_length_eq_zero hcount.symm))
  have hchosen : ∀ p ∈ input.map (fun x => (x, SymbolTable.at w.code x)), p ∈ CodeTable.entries w.code := by
    intro p hp
    obtain ⟨x, hx, rfl⟩ := List.mem_map.mp hp
    exact (CodeTable.mem_entries _ _ _).mpr ⟨rfl, (hpresent x).mpr hx⟩
  have hdecode := decodeCompletesOnEveryLegalContainer u (CodeTable.entries w.code)
    (input.map fun x => (x, SymbolTable.at w.code x)) [] _ _ hcfg hcap hgood.legalRecords hrecords
    (pack_legalPayload (hpayload.trans_lt (by omega))) hchosen (by rw [List.length_map]; omega)
    (by rwa [List.length_map]) (by rw [hbits, bitstream_eq_spelled, List.append_nil])
    (by rw [hinput, assemble_eq_containerOf, List.length_map])
  have hsymbols : (input.map fun x => (x, SymbolTable.at w.code x)).map (fun p => p.1) = input := by
    rw [List.map_map]
    exact List.map_id _
  rwa [hsymbols] at hdecode

/-- The ways in which ENCODE has a result: the empty input, or `codes` and a Container that fits. -/
theorem resultOf_encode_ok {s : State} {out : List Byte} (h : resultOf .encode s = .ok out) :
    (s.input = [] ∧ out = List.replicate 13 0x00#8) ∨
      s.input ≠ [] ∧ s.input.length ≤ 2 ^ 32 - 1 ∧
        ∃ w, (treeOf s.input).codes = .ok w ∧ out = assemble s.input w := by
  by_cases hcap : s.cfg.inCap < s.inLen.toNat
  · rw [resultOf, encodeResult, if_pos hcap] at h
    cases h
  by_cases hlong : 2 ^ 32 - 1 < s.inLen.toNat
  · rw [resultOf, encodeResult, if_neg hcap, if_pos hlong] at h
    cases h
  rw [resultOf_encode (Nat.not_lt.mp hcap) (Nat.not_lt.mp hlong)] at h
  have hlen : s.input.length ≤ 2 ^ 32 - 1 := by rw [State.input_length]; exact Nat.not_lt.mp hlong
  by_cases hnil : s.input = []
  · rw [hnil, encodeInput_nil] at h
    cases h
    exact .inl ⟨hnil, rfl⟩
  · rw [encodeInput_of_ne_nil _ hnil hlen] at h
    cases hcodes : (treeOf s.input).codes with
    | error r => rw [hcodes] at h; cases h
    | ok w =>
      rw [hcodes, Except.bind] at h
      split at h
      · cases h
      · cases h
        exact .inr ⟨hnil, hlen, w, rfl, rfl⟩

/-- Settles O53: the result of ENCODE is the Container of zeros or the assembled one, and each decodes to the
input. -/
theorem decodeInvertsEncode : Obligations.DecodeInvertsEncode := by
  intro s t u container hcfg hcfg' hexec hfinished hinput hcap hfits
  obtain ⟨out, hresult, hfinished'⟩ := exists_result_of_done hcfg hexec hfinished.1
  obtain rfl := State.finishedWith_inj hfinished hfinished'
  rcases resultOf_encode_ok hresult with ⟨hnil, hzeros⟩ | ⟨hne, hlen, w, hcodes, hassemble⟩
  · rw [hnil]
    exact decodeOfAnEmptyTableIsEmpty u 0 0#8 [] hcap ⟨by decide, by decide, by decide⟩ (hinput.trans hzeros)
  · exact exec_decode_assemble hne hlen hcodes hcfg' hcap (by rwa [State.input_length])
      (hinput.trans hassemble)

end Sys2Proof.Machine
end

section
/-! How a command ends: the POLL that waits for it, its result or its fault, and the codes of the fault
(60_exceptions R115 to R128). -/

namespace Sys2Proof.Machine

/-- A POLL that finds BUSY = 0 is over and does nothing else (30_encoding R57). -/
theorem step_poll_idle {s : State} {rest : List HostAction} (h : s.script = .poll :: rest)
    (hidle : s.busy = false) : step s = .next (s.setScript rest) :=
  step_cons h (by simp [hidle])

@[simp] theorem finish_script (s : State) (x : Except FaultReport (List Byte)) :
    (s.finish x).script = s.script := by
  obtain ⟨-, -, -, -, -, hscript, -, -⟩ := finish_sameInputSide s x
  exact hscript

/-- Settles O16: the first step is the ENGINE's and ends the command, the second is the POLL's. -/
theorem pollingHostSeesTheCommandFinish : Obligations.PollingHostSeesTheCommandFinish := by
  intro s rest hbusy hs
  obtain ⟨x, hend⟩ := engineStep_busy hbusy
  have hpoll : (s.finish x).script = .poll :: rest := (finish_script s x).trans hs
  exact ⟨s.finish x, (step_poll_busy hs hbusy).trans hend, finish_busy s x, finish_done s x, hpoll,
    step_poll_idle hpoll (finish_busy s x)⟩

/-- Settles O22: a command's result fits OUT, so that OUT_LEN can count it. -/
theorem commandEndsWithItsWholeResultOrNone : Obligations.CommandEndsWithItsWholeResultOrNone := by
  intro i s hcfg
  cases hresult : resultOf i s with
  | ok out =>
    obtain ⟨t, ht, hfinished, hside⟩ := exec_finishes hresult (resultOf_length_lt hcfg hresult)
    exact ⟨t, ht, hside, .inl ⟨out, resultOf_fits hcfg hresult, hfinished⟩⟩
  | error r =>
    obtain ⟨t, ht, hfaulted, hside⟩ := exec_faults hresult
    exact ⟨t, ht, hside, .inr ⟨r, hfaulted⟩⟩

/-- Only MalformedContainer has a sub-cause (60_exceptions R115). -/
theorem FaultReport.errinfo_eq_zero {r : FaultReport} (h : ∀ c, r ≠ .malformedContainer c) :
    r.errinfo = 0#8 := by
  cases r with
  | malformedContainer c => exact absurd rfl (h c)
  | unrepresentableCodeLength | inputTooLong | outputOverflow | illegalCommand | badLength => rfl

/-- Settles O23: row by row, the two tables. -/
theorem faultCodesAreTheTablesValues : Obligations.FaultCodesAreTheTablesValues :=
  ⟨fun _ => rfl, rfl, rfl, rfl, rfl, rfl, fun _ h => FaultReport.errinfo_eq_zero h, rfl⟩

end Sys2Proof.Machine
end

section
/-! Reset at any time, and the host's accesses while a command runs (70_reset_and_hazards R130, R133). -/

namespace Sys2Proof.Machine

/-! ### The reset event -/

/-- A reset event at the head of the script takes place whatever STATUS is (70_reset_and_hazards R130). -/
theorem step_reset {s : State} {rest : List HostAction} (hs : s.script = .reset :: rest) :
    step s = .next (s.setScript rest).resetEvent :=
  step_cons hs (by simp)

@[simp] theorem State.resetEvent_done (s : State) : s.resetEvent.done = false := by
  simp [State.done]

/-- Settles O7: the next state is `resetEvent`, whose registers are read off; OUT is undefined by DONE = 0. -/
theorem resetEventPutsTheBlockAtItsResetValues : Obligations.ResetEventPutsTheBlockAtItsResetValues :=
  fun _ _ hs => ⟨_, step_reset hs, rfl, rfl, rfl, rfl, rfl, rfl, fun _ => rfl,
    State.outDefined_of_not_done (State.resetEvent_done _), rfl, rfl, rfl⟩

/-! ### Accesses while BUSY = 1 -/

/-- Of the four values of STATUS only one has BUSY set (10_state R13). -/
theorem State.Inv.status_of_busy {s : State} (h : s.Inv) (hbusy : s.busy = true) :
    s.status = statusBusy := by
  rw [State.busy] at hbusy
  rcases h.statusLegal with hst | hst | hst | hst
  · exact absurd (hst ▸ hbusy) (by decide)
  · exact hst
  · exact absurd (hst ▸ hbusy) (by decide)
  · exact absurd (hst ▸ hbusy) (by decide)

/-- A running command has neither error codes nor a result yet (10_state R15, R16). -/
theorem State.Inv.cleared_of_busy {s : State} (h : s.Inv) (hbusy : s.busy = true) :
    s.errcode = 0#8 ∧ s.errinfo = 0#8 ∧ s.outLen = 0#64 := by
  have hst := h.status_of_busy hbusy
  obtain ⟨hcode, hinfo⟩ := h.noError (hst ▸ by decide)
  obtain ⟨hlen, -⟩ := h.noResult (hst ▸ by decide)
  exact ⟨hcode, hinfo, hlen⟩

theorem hostWriteReg_cmd_busy {s : State} (h : s.busy = true) (v : Word64) :
    hostWriteReg 0 v s = .refused .writeCmdWhileBusy := if_pos h

theorem hostWriteReg_inLen_busy {s : State} (h : s.busy = true) (v : Word64) :
    hostWriteReg 4 v s = .refused .writeInLenWhileBusy := if_pos h

/-- A read of OUT with BUSY = 1 is the hazard at every offset (70_reset_and_hazards R133). -/
theorem step_readOut_busy {s : State} {rest : List HostAction} {a : Nat} (h : s.busy = true)
    (hs : s.script = .readOut a :: rest) : step s = .refused .readOutWhileBusy :=
  (step_cons hs (by simp)).trans (if_pos h)

/-- Settles O12: the hazards are refused before any other check, and the reads are those of O8 and O10 with
the values the invariant fixes while a command runs. -/
theorem hazardousAccessesWhileBusyAreRefused : Obligations.HazardousAccessesWhileBusyAreRefused := by
  intro s rest a hinv hbusy
  obtain ⟨hcmd, hstatus, herrcode, herrinfo, hinLen, houtLen, -⟩ :=
    registerFileReadsAndIgnoresAsStated s rest
  obtain ⟨hcode, hinfo, hlen⟩ := hinv.cleared_of_busy hbusy
  rw [hinv.status_of_busy hbusy] at hstatus
  rw [hcode] at herrcode
  rw [hinfo] at herrinfo
  rw [hlen] at houtLen
  exact ⟨fun v hs => (step_writeReg hs).trans (hostWriteReg_cmd_busy (s := s.setScript rest) hbusy v),
    fun v hs => (step_writeReg hs).trans (hostWriteReg_inLen_busy (s := s.setScript rest) hbusy v),
    fun _ hs => (step_writeIn hs).trans (if_pos hbusy), step_readOut_busy hbusy,
    hcmd, hstatus, herrcode, herrinfo, hinLen, houtLen, step_readIn_of_lt⟩

end Sys2Proof.Machine
end
